-- ==== Sys2Proof/Word.lean ====
section
/-! DEFINITION. The word types of KCE (spec/00_scope.md R12, R14). -/

namespace Sys2Proof

/-- A byte (R12). -/
abbrev Byte := BitVec 8

/-- A lane, or 64-bit word (R12). -/
abbrev Lane := BitVec 64

/-- A 32-bit word of a packet: the command word, `N`, a length prefix, a status word (R81, R82, R84). -/
abbrev Word32 := BitVec 32

/-- A byte string, first byte first (R14). -/
abbrev Bytes := List Byte

end Sys2Proof
end

