-- ==== Sys2Proof/Machine/Bytes.lean ====
section
/-! DEFINITION. Bit and byte-order helpers: the notation of spec/00_scope.md R12 to R15. -/

namespace Sys2Proof

/-- The all-ones lane, `ONES` (45_fft.md). -/
def ones : Lane := 0xFFFFFFFFFFFFFFFF

/-- `rotl64(v, n)`, `0 <= n <= 63`, the case `n = 0` stated apart (R13). -/
def rotl64 (v : Lane) (n : Nat) : Lane :=
  if n = 0 then v else (v <<< n) ||| (v >>> (64 - n))

/-- Byte `k` of the number `v`: `(v >> 8k) & 0xFF` (R15). -/
def byteOf (v k : Nat) : Byte := BitVec.ofNat 8 (v >>> (8 * k))

/-- The number a little-endian byte string stands for: `sum over k of s[k] * 2^(8k)` (R15). -/
def loadLE : Bytes → Nat
  | [] => 0
  | b :: s => b.toNat + 2 ^ 8 * loadLE s

/-- The low `n` bytes of the number `v`, little-endian (R15). -/
def storeLE (n v : Nat) : Bytes := (List.range n).map (byteOf v)

/-- `load64` (R15). -/
def load64 (s : Bytes) : Lane := BitVec.ofNat 64 (loadLE s)

/-- `store64` (R15). -/
def store64 (v : Lane) : Bytes := storeLE 8 v.toNat

/-- `load32` (R15). -/
def load32 (s : Bytes) : Word32 := BitVec.ofNat 32 (loadLE s)

/-- `store32` of a number: its low four bytes (R15). -/
def store32 (v : Nat) : Bytes := storeLE 4 v

/-- `s[a:b]`: bytes `a` to `b-1` (R14). -/
def slice (s : Bytes) (a b : Nat) : Bytes := (s.drop a).take (b - a)

/-- `0^k`: `k` zero bytes (R14). -/
def zeros (k : Nat) : Bytes := List.replicate k 0

/-- Byte `k` of a byte string, `s[k]` (R14). -/
def byteAt (s : Bytes) (k : Nat) : Byte := s.getD k 0

end Sys2Proof
end

