-- ==== Sys2Proof/Config.lean ====
section
/-! DEFINITION. What an implementation fixes (spec/00_scope.md R10, spec/45_fft.md R252, R253,
spec/92_eei_decisions.md D16, D19, D20), and the free values that stand for what the spec leaves OPEN. -/

namespace Sys2Proof

/-- The parameters of R10 that some command's result depends on, as plain data: the model takes them as an argument
(D20), and the argument travels in `State.cfg`, which no step writes (log entry 1). `PERM_IMPL` is not among them:
no result depends on it (R152); see `Machine.permuteWith`. -/
structure Config where
  /-- `IBUF_BYTES`: the largest payload total a command may carry. -/
  ibufBytes : Nat
  /-- `OBUF_BYTES`: the largest output a command may return. -/
  obufBytes : Nat
  /-- `FFT_M`: the bit width `m` of the field representation. -/
  fftM : Nat
  /-- `FFT_POLY`: the exponents below `m` with coefficient 1 in the defining polynomial, each once. -/
  fftPoly : List Nat
  /-- `FFT_MASK[5][2]`: entry `k` is the pair `FFT_MASK[k][0]`, `FFT_MASK[k][1]`. -/
  fftMask : List (Lane × Lane)
  /-- `FFT_SCAL[5][m]`. -/
  fftScal : List (List Lane)
  /-- `FFT_CONSTS[63][m]`. -/
  fftConsts : List (List Lane)
  /-- `FFT_REV[64]`. -/
  fftRev : List Nat
  deriving DecidableEq, Repr

/-- The constraints of R10 and R253, "all checked at build time, never at run time". -/
abbrev Config.Valid (c : Config) : Prop :=
  (200 ≤ c.ibufBytes ∧ 8 * c.fftM ≤ c.ibufBytes ∧ 200 ≤ c.obufBytes ∧ 8 * c.fftM ≤ c.obufBytes) ∧
  1 ≤ c.fftM ∧
  (0 ∈ c.fftPoly ∧ (∀ e ∈ c.fftPoly, e < c.fftM) ∧ c.fftPoly.Nodup) ∧
  c.fftMask.length = 5 ∧
  (c.fftScal.length = 5 ∧ ∀ v ∈ c.fftScal, v.length = c.fftM) ∧
  (c.fftConsts.length = 63 ∧ ∀ v ∈ c.fftConsts, v.length = c.fftM) ∧
  (c.fftRev.length = 64 ∧ c.fftRev.Nodup ∧ ∀ r ∈ c.fftRev, r < 64)

/-- `RATE512`: the rate in bytes of the 512 variants, a named constant that is changed in one place (R10, D16). -/
def Config.rate512 : Nat := 72

/-- The default values of `FFT_MASK` (the table of R256): a default of an OPEN parameter, so `Config.implemented` does
not fix the masks to them. -/
def Config.defaultMask : List (Lane × Lane) :=
  [(0x8888888888888888, 0x4444444444444444),
   (0xC0C0C0C0C0C0C0C0, 0x3030303030303030),
   (0xF000F000F000F000, 0x0F000F000F000F00),
   (0xFF000000FF000000, 0x00FF000000FF0000),
   (0xFFFF000000000000, 0x0000FFFF00000000)]

/-- The 6-bit reversal of `j`: `sum over b in 0..5 of ((j >> b) & 1) * 2^(5-b)` (R258). -/
def Config.bitReverse6 (j : Nat) : Nat :=
  ((List.range 6).map fun b => ((j >>> b) % 2) * 2 ^ (5 - b)).sum

/-- `FFT_REV` as decided (R258, D20). -/
def Config.bitReversal : List Nat := (List.range 64).map Config.bitReverse6

/-! Free values: uninterpreted constants for the OPEN parameters (D19, D20; log entry 1). -/

/-- Free: `FFT_M - 1`. -/
opaque Config.freeFftM : Nat
/-- Free: how far `IBUF_BYTES` exceeds the greater of its two minimums. -/
opaque Config.freeIbuf : Nat
/-- Free: how far `OBUF_BYTES` exceeds the greater of its two minimums. -/
opaque Config.freeObuf : Nat
/-- Free: whether an exponent has coefficient 1 in the defining polynomial. -/
opaque Config.freePoly : Nat → Bool
/-- Free: the mask pair `k`. -/
opaque Config.freeMask : Nat → Lane × Lane
/-- Free: `FFT_SCAL[j][i]`. -/
opaque Config.freeScal : Nat → Nat → Lane
/-- Free: `FFT_CONSTS[k][i]`. -/
opaque Config.freeConsts : Nat → Nat → Lane

/-- `FFT_M` of the implementation: any number from 1 up (R253). -/
def Config.implementedM : Nat := Config.freeFftM + 1

/-- The least capacity R10 and D19 allow a buffer: "minimum 200" and "at least `8*FFT_M`". -/
def Config.minCapacity (m : Nat) : Nat := max 200 (8 * m)

/-- The implementation the model is of: every OPEN parameter a free value within the constraints of R10 and R253, and
none of the values they allow is left out (log entry 1). -/
def Config.implemented : Config where
  ibufBytes := Config.minCapacity Config.implementedM + Config.freeIbuf
  obufBytes := Config.minCapacity Config.implementedM + Config.freeObuf
  fftM := Config.implementedM
  fftPoly := (List.range Config.implementedM).filter fun e => e == 0 || Config.freePoly e
  fftMask := (List.range 5).map Config.freeMask
  fftScal := (List.range 5).map fun j => (List.range Config.implementedM).map (Config.freeScal j)
  fftConsts := (List.range 63).map fun k => (List.range Config.implementedM).map (Config.freeConsts k)
  fftRev := Config.bitReversal

end Sys2Proof
end

