-- ==== Sys2Proof/Syntax.lean ====
section
/-! DEFINITION. The commands of KCE, one constructor per row of the opcode map (spec/30_encoding.md R90,
spec/opcode_table.json), with the operands in the order of that map. A word field operand is the field's byte as it
arrives (R85); `N` is 32 bits, `V` is 64 bits (R81); a payload is a byte string. -/

namespace Sys2Proof

inductive Instr where
  /-- `ZERO` (R120) -/
  | zero
  /-- `LDSTATE state` (R121) -/
  | ldstate (state : Bytes)
  /-- `STSTATE` (R122) -/
  | ststate
  /-- `PERMUTE` (R151) -/
  | permute
  /-- `ROUND r` (R149) -/
  | round (r : Byte)
  /-- `THETA` (R140) -/
  | theta
  /-- `RHOPI` (R143) -/
  | rhopi
  /-- `CHI` (R144) -/
  | chi
  /-- `IOTA r` (R145) -/
  | iota (r : Byte)
  /-- `ABSORB rate, dom, input` (R172) -/
  | absorb (rate dom : Byte) (input : Bytes)
  /-- `SQUEEZE rate, N` (R173) -/
  | squeeze (rate : Byte) (nBlocks : Word32)
  /-- `BLOCKUPDATE rate, blocks` (R174) -/
  | blockupdate (rate : Byte) (blocks : Bytes)
  /-- `SHA3_COMPUTE.w message` (R192) -/
  | sha3Compute (w : Byte) (message : Bytes)
  /-- `SHA3_FINAL.w tail` (R193) -/
  | sha3Final (w : Byte) (tail : Bytes)
  /-- `SHAKE_INIT.w key` (R195) -/
  | shakeInit (w : Byte) (key : Bytes)
  /-- `SHAKE_SQUEEZE.w N` (R196) -/
  | shakeSqueeze (w : Byte) (nBlocks : Word32)
  /-- `SHAKE_COMPUTE.w N, key` (R197) -/
  | shakeCompute (w : Byte) (outLen : Word32) (key : Bytes)
  /-- `CSHAKE_INIT.w key, name, custom` (R201) -/
  | cshakeInit (w : Byte) (key name custom : Bytes)
  /-- `CSHAKE_COMPUTE.w N, key, name, custom` (R202) -/
  | cshakeCompute (w : Byte) (outLen : Word32) (key name custom : Bytes)
  /-- `KMAC_INIT.w key, custom` (R205) -/
  | kmacInit (w : Byte) (key custom : Bytes)
  /-- `KMAC_FINAL.w N, tail` (R206) -/
  | kmacFinal (w : Byte) (outLen : Word32) (tail : Bytes)
  /-- `KMAC_COMPUTE.w N, message, key, custom` (R207) -/
  | kmacCompute (w : Byte) (outLen : Word32) (message key custom : Bytes)
  /-- `LENC V` (R241) -/
  | lenc (v : Lane)
  /-- `RENC V` (R242) -/
  | renc (v : Lane)
  /-- `FFT_LD coefficients` (R260) -/
  | fftLd (coefficients : Bytes)
  /-- `FFT_RADIX` (R261) -/
  | fftRadix
  /-- `FFT_BFLY` (R262) -/
  | fftBfly
  /-- `FFT` (R263) -/
  | fft
  /-- `FFT_ST j` (R264) -/
  | fftSt (j : Byte)
  /-- `FFT_STIN` (R265) -/
  | fftStin
  deriving DecidableEq, Repr

/-- The payloads a command carries, in packet order (R81, R83). -/
def Instr.payloads : Instr → List Bytes
  | .ldstate p | .absorb _ _ p | .blockupdate _ p | .sha3Compute _ p | .sha3Final _ p | .shakeInit _ p
  | .shakeCompute _ _ p | .kmacFinal _ _ p | .fftLd p => [p]
  | .kmacInit _ key custom => [key, custom]
  | .cshakeInit _ key name custom | .cshakeCompute _ _ key name custom => [key, name, custom]
  | .kmacCompute _ _ message key custom => [message, key, custom]
  | .zero | .ststate | .permute | .round _ | .theta | .rhopi | .chi | .iota _ | .squeeze _ _ | .shakeSqueeze _ _
  | .lenc _ | .renc _ | .fftRadix | .fftBfly | .fft | .fftSt _ | .fftStin => []

end Sys2Proof
end

