-- ==== Sys2Proof/WellFormed.lean ====
section
/-! DEFINITION. Which terms of `Instr` are well-formed commands: steps 2 and 3 of the decoding order
(spec/30_encoding.md R87) beyond what the constructors already fix. A command that is not well-formed is an
`IllegalCommand`; an invalid rate, a bad length, an overflow and a full buffer are faults of well-formed commands. -/

namespace Sys2Proof

/-- The index and selector ranges: `r <= 23` (R145, R149), `j <= 63` (R264), `w` in 0, 1, 2, and 1 or 2 for the two
SHA-3 commands (R86). -/
def Instr.inRange : Instr → Bool
  | .round r | .iota r => r.toNat ≤ 23
  | .fftSt j => j.toNat ≤ 63
  | .sha3Compute w _ | .sha3Final w _ => 1 ≤ w.toNat && w.toNat ≤ 2
  | .shakeInit w _ | .shakeSqueeze w _ | .shakeCompute w _ _ | .cshakeInit w _ _ _ | .cshakeCompute w _ _ _ _
  | .kmacInit w _ _ | .kmacFinal w _ _ | .kmacCompute w _ _ _ _ => w.toNat ≤ 2
  | .zero | .ldstate _ | .ststate | .permute | .theta | .rhopi | .chi | .absorb _ _ _ | .squeeze _ _
  | .blockupdate _ _ | .lenc _ | .renc _ | .fftLd _ | .fftRadix | .fftBfly | .fft | .fftStin => true

/-- Every payload's length fits its 32-bit length prefix (R81). -/
def Instr.lengthsFit (i : Instr) : Bool := i.payloads.all fun p => p.length < 2 ^ 32

/-- A well-formed command: it has a packet (R81) and its indexes and selectors are in range (R87 step 3). -/
def Instr.wellFormed (i : Instr) : Bool := i.inRange && i.lengthsFit

/-- `Instr.wellFormed` as a proposition. -/
abbrev WellFormed (i : Instr) : Prop := i.wellFormed = true

end Sys2Proof
end

