-- ==== Sys2Proof/Decode.lean ====
section
/-! DEFINITION. The command word, the thirteen formats, the opcode map, the decoder and the encoder
(spec/30_encoding.md R80 to R90). The index and selector ranges of R87 step 3 are judged by the command's own rule
(`Machine`), which raises the same `IllegalCommand`: a word decodes to its opcode row by mask and match alone (R83). -/

namespace Sys2Proof

/-! ### The command word (R82) -/

/-- `OP`, bits 31:24. -/
def fieldOp (word : Word32) : Byte := word.extractLsb' 24 8
/-- `A`, bits 23:16. -/
def fieldA (word : Word32) : Byte := word.extractLsb' 16 8
/-- `B`, bits 15:8. -/
def fieldB (word : Word32) : Byte := word.extractLsb' 8 8
/-- `Z`, bits 7:0. -/
def fieldZ (word : Word32) : Byte := word.extractLsb' 0 8

/-- The command word with the fields `OP`, `A`, `B` and `Z = 0`. -/
def commandWord (op a b : Byte) : Word32 := op ++ a ++ b ++ (0 : Byte)

/-! ### Formats (R83) -/

inductive Format where
  | z | i | p | rdp | rp | rn | wp | wn | wnp | wp2 | wp3 | wnp3 | v
  deriving DecidableEq, Repr

/-- The bits an opcode row of this format fixes (R83). -/
def Format.mask : Format → Word32
  | .z | .p | .v => 0xFFFFFFFF
  | .rdp => 0xFF0000FF
  | .i | .rp | .rn | .wp | .wn | .wnp | .wp2 | .wp3 | .wnp3 => 0xFF00FFFF

/-- How many bytes follow the command word when every numeric argument is 0 and every payload empty (R81, R83). -/
def Format.operandBytes : Format → Nat
  | .z | .i => 0
  | .p | .rdp | .rp | .wp | .rn | .wn => 4
  | .wnp | .wp2 | .v => 8
  | .wp3 => 12
  | .wnp3 => 16

/-! ### The opcode map (R90) -/

structure OpcodeRow where
  mnemonic : String
  op : Byte
  format : Format
  deriving DecidableEq, Repr

/-- The opcode map of R90. -/
def opcodeTable : List OpcodeRow :=
  [⟨"ZERO", 0x01, .z⟩, ⟨"LDSTATE", 0x02, .p⟩, ⟨"STSTATE", 0x03, .z⟩] ++
  [⟨"PERMUTE", 0x10, .z⟩, ⟨"ROUND", 0x11, .i⟩, ⟨"THETA", 0x12, .z⟩, ⟨"RHOPI", 0x13, .z⟩, ⟨"CHI", 0x14, .z⟩,
   ⟨"IOTA", 0x15, .i⟩] ++
  [⟨"ABSORB", 0x20, .rdp⟩, ⟨"SQUEEZE", 0x21, .rn⟩, ⟨"BLOCKUPDATE", 0x22, .rp⟩] ++
  [⟨"SHA3_COMPUTE", 0x30, .wp⟩, ⟨"SHA3_FINAL", 0x31, .wp⟩, ⟨"SHAKE_INIT", 0x34, .wp⟩, ⟨"SHAKE_SQUEEZE", 0x35, .wn⟩,
   ⟨"SHAKE_COMPUTE", 0x36, .wnp⟩, ⟨"CSHAKE_INIT", 0x38, .wp3⟩, ⟨"CSHAKE_COMPUTE", 0x39, .wnp3⟩,
   ⟨"KMAC_INIT", 0x3C, .wp2⟩, ⟨"KMAC_FINAL", 0x3D, .wnp⟩, ⟨"KMAC_COMPUTE", 0x3E, .wnp3⟩] ++
  [⟨"LENC", 0x40, .v⟩, ⟨"RENC", 0x41, .v⟩] ++
  [⟨"FFT_LD", 0x50, .p⟩, ⟨"FFT_RADIX", 0x51, .z⟩, ⟨"FFT_BFLY", 0x52, .z⟩, ⟨"FFT", 0x53, .z⟩, ⟨"FFT_ST", 0x54, .i⟩,
   ⟨"FFT_STIN", 0x55, .z⟩]

/-- The row's match: `OP << 24`, every operand field 0 (R83). -/
def OpcodeRow.matchWord (row : OpcodeRow) : Word32 := commandWord row.op 0 0

/-- A word decodes to a row iff `word & mask = match` (R83). -/
def OpcodeRow.fits (row : OpcodeRow) (word : Word32) : Bool := word &&& row.format.mask == row.matchWord

/-- The row a command belongs to. -/
def Instr.row : Instr → OpcodeRow
  | .zero => ⟨"ZERO", 0x01, .z⟩
  | .ldstate _ => ⟨"LDSTATE", 0x02, .p⟩
  | .ststate => ⟨"STSTATE", 0x03, .z⟩
  | .permute => ⟨"PERMUTE", 0x10, .z⟩
  | .round _ => ⟨"ROUND", 0x11, .i⟩
  | .theta => ⟨"THETA", 0x12, .z⟩
  | .rhopi => ⟨"RHOPI", 0x13, .z⟩
  | .chi => ⟨"CHI", 0x14, .z⟩
  | .iota _ => ⟨"IOTA", 0x15, .i⟩
  | .absorb _ _ _ => ⟨"ABSORB", 0x20, .rdp⟩
  | .squeeze _ _ => ⟨"SQUEEZE", 0x21, .rn⟩
  | .blockupdate _ _ => ⟨"BLOCKUPDATE", 0x22, .rp⟩
  | .sha3Compute _ _ => ⟨"SHA3_COMPUTE", 0x30, .wp⟩
  | .sha3Final _ _ => ⟨"SHA3_FINAL", 0x31, .wp⟩
  | .shakeInit _ _ => ⟨"SHAKE_INIT", 0x34, .wp⟩
  | .shakeSqueeze _ _ => ⟨"SHAKE_SQUEEZE", 0x35, .wn⟩
  | .shakeCompute _ _ _ => ⟨"SHAKE_COMPUTE", 0x36, .wnp⟩
  | .cshakeInit _ _ _ _ => ⟨"CSHAKE_INIT", 0x38, .wp3⟩
  | .cshakeCompute _ _ _ _ _ => ⟨"CSHAKE_COMPUTE", 0x39, .wnp3⟩
  | .kmacInit _ _ _ => ⟨"KMAC_INIT", 0x3C, .wp2⟩
  | .kmacFinal _ _ _ => ⟨"KMAC_FINAL", 0x3D, .wnp⟩
  | .kmacCompute _ _ _ _ _ => ⟨"KMAC_COMPUTE", 0x3E, .wnp3⟩
  | .lenc _ => ⟨"LENC", 0x40, .v⟩
  | .renc _ => ⟨"RENC", 0x41, .v⟩
  | .fftLd _ => ⟨"FFT_LD", 0x50, .p⟩
  | .fftRadix => ⟨"FFT_RADIX", 0x51, .z⟩
  | .fftBfly => ⟨"FFT_BFLY", 0x52, .z⟩
  | .fft => ⟨"FFT", 0x53, .z⟩
  | .fftSt _ => ⟨"FFT_ST", 0x54, .i⟩
  | .fftStin => ⟨"FFT_STIN", 0x55, .z⟩

/-! ### The decoder (R81, R87 steps 2 and 3) -/

/-- Why a packet is no command. Every reason is `IllegalCommand` to the host (R304). -/
inductive DecodeError where
  /-- Shorter than 4 bytes (R87 step 2). -/
  | shortPacket
  /-- `Z != 0` (R87 step 2, R88). -/
  | reservedField
  /-- `OP` is not in the opcode map (R87 step 2, R88). -/
  | unknownOpcode
  /-- A field the format does not use is not 0 (R87 step 3, R88). -/
  | unusedField
  /-- The packet is shorter or longer than its format's grammar, or a length prefix runs past its end (R81). -/
  | malformedPacket
  deriving DecidableEq, Repr

/-- What reading a packet gives. -/
abbrev Decoded := Except DecodeError Instr

/-- The packet must end here (R81). -/
def endPacket (rest : Bytes) (i : Instr) : Decoded :=
  match rest with
  | [] => .ok i
  | _ :: _ => .error .malformedPacket

/-- Read `store32(N)` and go on (R81). -/
def takeWord32 (rest : Bytes) (k : Word32 → Bytes → Decoded) : Decoded :=
  match rest with
  | b0 :: b1 :: b2 :: b3 :: tl => k (load32 [b0, b1, b2, b3]) tl
  | _ => .error .malformedPacket

/-- Read `store64(V)` and go on (R81). -/
def takeWord64 (rest : Bytes) (k : Lane → Bytes → Decoded) : Decoded :=
  match rest with
  | b0 :: b1 :: b2 :: b3 :: b4 :: b5 :: b6 :: b7 :: tl => k (load64 [b0, b1, b2, b3, b4, b5, b6, b7]) tl
  | _ => .error .malformedPacket

/-- Read a length prefix and its payload and go on (R81). -/
def takePayload (rest : Bytes) (k : Bytes → Bytes → Decoded) : Decoded :=
  takeWord32 rest fun n tl =>
    if n.toNat ≤ tl.length then k (tl.take n.toNat) (tl.drop n.toNat) else .error .malformedPacket

/-- The format uses neither `A` nor `B` (R82, R83). -/
def noFields (a b : Byte) (k : Decoded) : Decoded :=
  if a = 0 ∧ b = 0 then k else .error .unusedField

/-- The format uses `A` and not `B` (R82, R83). -/
def fieldAOnly (b : Byte) (k : Decoded) : Decoded :=
  if b = 0 then k else .error .unusedField

/-- Format Z. -/
def formatZ (a b : Byte) (rest : Bytes) (i : Instr) : Decoded := noFields a b (endPacket rest i)
/-- Format I. -/
def formatI (a b : Byte) (rest : Bytes) (f : Byte → Instr) : Decoded := fieldAOnly b (endPacket rest (f a))
/-- Format P. -/
def formatP (a b : Byte) (rest : Bytes) (f : Bytes → Instr) : Decoded :=
  noFields a b (takePayload rest fun p tl => endPacket tl (f p))
/-- Format RDP. -/
def formatRDP (a b : Byte) (rest : Bytes) (f : Byte → Byte → Bytes → Instr) : Decoded :=
  takePayload rest fun p tl => endPacket tl (f a b p)
/-- Formats RP and WP: one operand field, one payload. -/
def formatAP (a b : Byte) (rest : Bytes) (f : Byte → Bytes → Instr) : Decoded :=
  fieldAOnly b (takePayload rest fun p tl => endPacket tl (f a p))
/-- Formats RN and WN: one operand field and `N`. -/
def formatAN (a b : Byte) (rest : Bytes) (f : Byte → Word32 → Instr) : Decoded :=
  fieldAOnly b (takeWord32 rest fun n tl => endPacket tl (f a n))
/-- Format WNP. -/
def formatWNP (a b : Byte) (rest : Bytes) (f : Byte → Word32 → Bytes → Instr) : Decoded :=
  fieldAOnly b (takeWord32 rest fun n r1 => takePayload r1 fun p tl => endPacket tl (f a n p))
/-- Format WP2. -/
def formatWP2 (a b : Byte) (rest : Bytes) (f : Byte → Bytes → Bytes → Instr) : Decoded :=
  fieldAOnly b (takePayload rest fun p r1 => takePayload r1 fun q tl => endPacket tl (f a p q))
/-- Format WP3. -/
def formatWP3 (a b : Byte) (rest : Bytes) (f : Byte → Bytes → Bytes → Bytes → Instr) : Decoded :=
  fieldAOnly b (takePayload rest fun p r1 => takePayload r1 fun q r2 => takePayload r2 fun r tl =>
    endPacket tl (f a p q r))
/-- Format WNP3. -/
def formatWNP3 (a b : Byte) (rest : Bytes) (f : Byte → Word32 → Bytes → Bytes → Bytes → Instr) : Decoded :=
  fieldAOnly b (takeWord32 rest fun n r0 => takePayload r0 fun p r1 => takePayload r1 fun q r2 =>
    takePayload r2 fun r tl => endPacket tl (f a n p q r))
/-- Format V. -/
def formatV (a b : Byte) (rest : Bytes) (f : Lane → Instr) : Decoded :=
  noFields a b (takeWord64 rest fun v tl => endPacket tl (f v))

/-- The opcode map: the shape of a packet is known from `OP` alone (R82, R90). -/
def decodeFields (op a b : Byte) (rest : Bytes) : Decoded :=
  match op.toNat with
  | 0x01 => formatZ a b rest .zero
  | 0x02 => formatP a b rest .ldstate
  | 0x03 => formatZ a b rest .ststate
  | 0x10 => formatZ a b rest .permute
  | 0x11 => formatI a b rest .round
  | 0x12 => formatZ a b rest .theta
  | 0x13 => formatZ a b rest .rhopi
  | 0x14 => formatZ a b rest .chi
  | 0x15 => formatI a b rest .iota
  | 0x20 => formatRDP a b rest .absorb
  | 0x21 => formatAN a b rest .squeeze
  | 0x22 => formatAP a b rest .blockupdate
  | 0x30 => formatAP a b rest .sha3Compute
  | 0x31 => formatAP a b rest .sha3Final
  | 0x34 => formatAP a b rest .shakeInit
  | 0x35 => formatAN a b rest .shakeSqueeze
  | 0x36 => formatWNP a b rest .shakeCompute
  | 0x38 => formatWP3 a b rest .cshakeInit
  | 0x39 => formatWNP3 a b rest .cshakeCompute
  | 0x3C => formatWP2 a b rest .kmacInit
  | 0x3D => formatWNP a b rest .kmacFinal
  | 0x3E => formatWNP3 a b rest .kmacCompute
  | 0x40 => formatV a b rest .lenc
  | 0x41 => formatV a b rest .renc
  | 0x50 => formatP a b rest .fftLd
  | 0x51 => formatZ a b rest .fftRadix
  | 0x52 => formatZ a b rest .fftBfly
  | 0x53 => formatZ a b rest .fft
  | 0x54 => formatI a b rest .fftSt
  | 0x55 => formatZ a b rest .fftStin
  | _ => .error .unknownOpcode

/-- Read a command packet. -/
def decode (packet : Bytes) : Decoded :=
  match packet with
  | b0 :: b1 :: b2 :: b3 :: rest =>
    let word := load32 [b0, b1, b2, b3]
    if fieldZ word = 0 then decodeFields (fieldOp word) (fieldA word) (fieldB word) rest else .error .reservedField
  | _ => .error .shortPacket

/-! ### The encoder (R81) -/

/-- `store32(word)`. -/
def encodeWord (op a b : Byte) : Bytes := store32 (commandWord op a b).toNat

/-- A length prefix and its payload. -/
def encodePayload (p : Bytes) : Bytes := store32 p.length ++ p

/-- The packet of a command (R81, R90). -/
def encode : Instr → Bytes
  | .zero => encodeWord 0x01 0 0
  | .ldstate s => encodeWord 0x02 0 0 ++ encodePayload s
  | .ststate => encodeWord 0x03 0 0
  | .permute => encodeWord 0x10 0 0
  | .round r => encodeWord 0x11 r 0
  | .theta => encodeWord 0x12 0 0
  | .rhopi => encodeWord 0x13 0 0
  | .chi => encodeWord 0x14 0 0
  | .iota r => encodeWord 0x15 r 0
  | .absorb rate dom input => encodeWord 0x20 rate dom ++ encodePayload input
  | .squeeze rate n => encodeWord 0x21 rate 0 ++ store32 n.toNat
  | .blockupdate rate blocks => encodeWord 0x22 rate 0 ++ encodePayload blocks
  | .sha3Compute w message => encodeWord 0x30 w 0 ++ encodePayload message
  | .sha3Final w tail => encodeWord 0x31 w 0 ++ encodePayload tail
  | .shakeInit w key => encodeWord 0x34 w 0 ++ encodePayload key
  | .shakeSqueeze w n => encodeWord 0x35 w 0 ++ store32 n.toNat
  | .shakeCompute w n key => encodeWord 0x36 w 0 ++ (store32 n.toNat ++ encodePayload key)
  | .cshakeInit w key name custom =>
    encodeWord 0x38 w 0 ++ (encodePayload key ++ (encodePayload name ++ encodePayload custom))
  | .cshakeCompute w n key name custom =>
    encodeWord 0x39 w 0 ++ (store32 n.toNat ++ (encodePayload key ++ (encodePayload name ++ encodePayload custom)))
  | .kmacInit w key custom => encodeWord 0x3C w 0 ++ (encodePayload key ++ encodePayload custom)
  | .kmacFinal w n tail => encodeWord 0x3D w 0 ++ (store32 n.toNat ++ encodePayload tail)
  | .kmacCompute w n message key custom =>
    encodeWord 0x3E w 0 ++ (store32 n.toNat ++ (encodePayload message ++ (encodePayload key ++ encodePayload custom)))
  | .lenc v => encodeWord 0x40 0 0 ++ store64 v
  | .renc v => encodeWord 0x41 0 0 ++ store64 v
  | .fftLd coefficients => encodeWord 0x50 0 0 ++ encodePayload coefficients
  | .fftRadix => encodeWord 0x51 0 0
  | .fftBfly => encodeWord 0x52 0 0
  | .fft => encodeWord 0x53 0 0
  | .fftSt j => encodeWord 0x54 j 0
  | .fftStin => encodeWord 0x55 0 0

/-! ### Table words -/

/-- The packet of a table word: the word's bytes as the wire carries them, then zero operand bytes up to the length
that the word's format gives a packet of zero arguments and empty payloads. -/
def tablePacket (nbits w : Nat) : Bytes :=
  let bytes := storeLE (nbits / 8) w
  let row := opcodeTable.find? fun row => row.op == byteAt bytes 3
  let length := 4 + (row.map fun row => row.format.operandBytes).getD 0
  bytes ++ zeros (length - bytes.length)

/-- The command the decoder reads from a table word. -/
def decodeTableWord (nbits w : Nat) : Option Instr := (decode (tablePacket nbits w)).toOption

end Sys2Proof
end

