-- ==== Sys2Proof/Machine/State.lean ====
section
/-! DEFINITION. The state of KCE (spec/10_state.md), the reasons a step can stop, and the state after reset. -/

namespace Sys2Proof.Machine

/-- The Keccak state `A`: "exactly 25 lanes of 64 bits (1600 bits total)" (R20). -/
abbrev Keccak := Vector Lane 25

/-- A bit-sliced FFT vector: `m` words of 64 bits (R250). -/
abbrev FftVector := List Lane

/-- What the host does to the engine, in the order it does it: it offers delimited command packets (R80, R81) and drives
the reset input (R340). -/
inductive Input where
  /-- A packet that the engine, if it accepts it, runs to its end (R60). -/
  | packet (bytes : Bytes)
  /-- The reset input is asserted between two commands. -/
  | assertReset
  /-- A packet during whose command the reset input is asserted. -/
  | packetCutByReset (bytes : Bytes)
  /-- The reset input is released. -/
  | releaseReset
  deriving DecidableEq, Repr

/-- A response: the status word and the output byte string (R84). Its bytes on the wire are `Response.packet`. -/
structure Response where
  status : Word32
  out : Bytes
  deriving DecidableEq, Repr

structure State where
  /-- `A[0..24]` (R20). -/
  a : Keccak
  /-- `ERR`, the fault latch (R25). -/
  err : Byte
  /-- `FIN[0..m-1]` (R27). -/
  fin : FftVector
  /-- `FOUT[0..63][0..m-1]` (R28). -/
  fout : List FftVector
  /-- The level of the reset input: whether it is asserted (R340). An input, not a register: the model's own field. -/
  inReset : Bool
  /-- The implementation's parameters (R10). The model's own field: no step writes it. -/
  cfg : Config
  /-- The host's list of inputs (R24). The model's own field: no step writes it. -/
  program : List Input
  /-- `cp`, the command pointer: an index into the host's list (R24). -/
  cp : Nat
  /-- The responses returned so far, oldest first (R80). The model's own field. -/
  responses : List Response
  deriving DecidableEq, Repr

/-- The fault kinds of R301. They are values that `raise` latches in `ERR`, not reasons to stop. -/
inductive ErrCode where
  | invalidRate | bufferTooSmall | encodingOverflow | illegalCommand | badLength
  deriving DecidableEq, Repr

/-- The reasons a step of the machine stops with a fault. There is none: KCE has no undefined behaviour (R209, R304,
U1), every fault of the spec is latched in `ERR` and answered (R306), and an engine with nothing to do is idle (R323).
No constructor, so nothing raises one; safe. -/
inductive Fault where
  deriving DecidableEq, Repr

/-- The reasons a step refuses. -/
inductive Refusal where
  /-- Raised by `exec` for a command without a meaning in the model; no arm of `exec` raises it. Safe. -/
  | notModelled (mnemonic : String)
  deriving DecidableEq, Repr

/-- `Z25`, the all-zero Keccak state (43_constructions.md). -/
def Keccak.zero : Keccak := Vector.replicate 25 0

/-- `m` zero words. -/
def FftVector.zero (m : Nat) : FftVector := List.replicate m 0

/-- The machine right after reset (R33, R340), the reset input released. `inReset`, `cfg`, `program`, `cp` and
`responses` are no registers of the engine: log entries 1, 2 and 3 name their values here. -/
def State.reset : State where
  a := Keccak.zero
  err := 0
  fin := FftVector.zero Config.implemented.fftM
  fout := List.replicate 64 (FftVector.zero Config.implemented.fftM)
  inReset := false
  cfg := Config.implemented
  program := []
  cp := 0
  responses := []

end Sys2Proof.Machine
end

