-- ==== Sys2Proof/Machine/Flags.lean ====
section
/-! DEFINITION. Status and fault conditions. KCE has no condition codes (spec/10_state.md R26); its only status is
`ERR`. Here are the codes `ERR` takes (spec/60_exceptions.md R301), each condition that raises one, and the priority
among them (spec/30_encoding.md R87, R309). -/

namespace Sys2Proof.Machine

/-- The value latched in `ERR` (R301). -/
def ErrCode.code : ErrCode → Byte
  | .invalidRate => 0x01
  | .bufferTooSmall => 0x02
  | .encodingOverflow => 0x03
  | .illegalCommand => 0x04
  | .badLength => 0x05

/-- A fault condition of a command and the fault it raises. -/
abbrev Check := Bool × ErrCode

/-- The fault a command raises: the first of its conditions that holds. Every command lists its conditions in the
order of R87 steps 3 to 7 (R309). -/
def firstFault : List Check → Option ErrCode
  | [] => none
  | (holds, fault) :: checks => if holds then some fault else firstFault checks

/-- A rate `r` in bytes is valid iff `r > 0` and `r mod 8 = 0` and `r <= 200` (R11). -/
def rateValid (r : Nat) : Bool := 0 < r && r % 8 == 0 && r ≤ 200

/-- R87 step 3: the round index is above 23. -/
def roundIllegal (r : Byte) : Check := (23 < r.toNat, .illegalCommand)

/-- R87 step 3: the vector index is above 63. -/
def vectorIllegal (j : Byte) : Check := (63 < j.toNat, .illegalCommand)

/-- R87 step 3: the width selector is not 0, 1 or 2 (R86). -/
def widthIllegal (w : Byte) : Check := (2 < w.toNat, .illegalCommand)

/-- R87 step 3: the width selector of a SHA-3 command is not 1 or 2 (R86). -/
def sha3WidthIllegal (w : Byte) : Check := (w.toNat == 0 || 2 < w.toNat, .illegalCommand)

/-- R87 step 4. -/
def rateInvalid (rate : Byte) : Check := (!rateValid rate.toNat, .invalidRate)

/-- R87 step 5: a payload whose length the opcode fixes has another length (R301). -/
def lengthNot (p : Bytes) (n : Nat) : Check := (p.length != n, .badLength)

/-- R87 step 5: a payload that is not a whole number of blocks (R174). -/
def notWholeBlocks (p : Bytes) (rate : Byte) : Check := (p.length % rate.toNat != 0, .badLength)

/-- R87 step 6: the bit length `8 * len`, formed without wrap-around, does not fit 64 bits (R243). -/
def bitLengthOverflow (len : Nat) : Check := (2 ^ 64 ≤ 8 * len, .encodingOverflow)

/-- R87 step 7: the payloads together exceed `IBUF_BYTES` (R52). -/
def payloadsExceed (s : State) (payloads : List Bytes) : Check :=
  (s.cfg.ibufBytes < (payloads.map List.length).sum, .bufferTooSmall)

/-- R87 step 7: the output length the rule declares exceeds `OBUF_BYTES` (R52, R303). -/
def outputExceeds (s : State) (len : Nat) : Check := (s.cfg.obufBytes < len, .bufferTooSmall)

end Sys2Proof.Machine
end

