-- ==== Sys2Proof/Machine/Ops.lean ====
section
/-! DEFINITION. The named operations on State: the host interface (responses, fetching a packet, the reset input),
raising a fault and refusing after one (spec/60_exceptions.md R306, R307), and the lane and byte views of the Keccak
state (spec/10_state.md R20 to R22). -/

namespace Sys2Proof.Machine

/-! ### Register updates -/

def State.setA (s : State) (a : Keccak) : State := { s with a := a }
def State.setErr (s : State) (e : Byte) : State := { s with err := e }
def State.setFin (s : State) (f : FftVector) : State := { s with fin := f }
def State.setFout (s : State) (f : List FftVector) : State := { s with fout := f }

/-! ### Responses, faults, refusal -/

/-- The bytes of a response on the wire: `store32(status) ‖ store32(|out|) ‖ out` (R84). -/
def Response.packet (r : Response) : Bytes := store32 r.status.toNat ++ store32 r.out.length ++ r.out

/-- End a command: answer with the status word that carries `ERR` as it stands now (R84, R91), and move the command
pointer on, whatever the status (R24). -/
def State.respond (s : State) (out : Bytes) : State :=
  { s with responses := s.responses ++ [⟨s.err.setWidth 32, out⟩], cp := s.cp + 1 }

/-- `raise F`: no write to `A`, `FIN` or `FOUT`; `ERR <- code(F)`; the response has no output (R306). -/
def raise (fault : ErrCode) (s : State) : State := (s.setErr fault.code).respond []

/-- Refusal while `ERR != 0`: the packet is consumed, no state changes, the response has no output (R307). -/
def refuse (s : State) : State := s.respond []

/-- Run one command on `s` (R87): refuse if a fault is latched; else raise the first fault among `checks`; else the
command's own effect `done` with the output `out`. All checks come before any write (R306). -/
def command (s : State) (checks : List Check) (done : State) (out : Bytes) : Host.Outcome State Fault Refusal :=
  if s.err ≠ 0 then .next (refuse s)
  else
    match firstFault checks with
    | some fault => .next (raise fault s)
    | none => .next (done.respond out)

/-- A packet that is no command (R87 steps 1 to 3, R304). -/
def illegalPacket (s : State) : Host.Outcome State Fault Refusal := command s [(true, .illegalCommand)] s []

/-! ### The host's list of inputs -/

/-- The input at the command pointer: the host's next one, or none if it has issued nothing more (R24). -/
def fetch (s : State) : Option Input := s.program[s.cp]?

/-- An input the engine takes nothing from: the host's pointer moves on, no register changes, no response (R340: while
the reset input is asserted "the engine accepts no packet"; log entry 3). -/
def passInput (s : State) : State := { s with cp := s.cp + 1 }

/-- The reset input is asserted: a command in progress is abandoned without a response (R340). The registers take their
reset values when it is released, and until then nothing shows what they hold (log entry 3). -/
def assertReset (s : State) : State := { s with inReset := true, cp := s.cp + 1 }

/-- The reset input is released: `A = 0`, `ERR = 0`, `FIN = 0`, `FOUT = 0` (R33, R340). The parameters, the host's list
and the responses already returned are not the engine's and stay (log entry 3). -/
def releaseReset (s : State) : State :=
  { s with
    a := Keccak.zero
    err := 0
    fin := FftVector.zero s.cfg.fftM
    fout := List.replicate 64 (FftVector.zero s.cfg.fftM)
    inReset := false
    cp := s.cp + 1 }

/-- Put a packet where the next step fetches and accepts it: at the command pointer of the host's list, with the reset
input released (log entry 10). -/
def State.placePacket (s : State) (packet : Bytes) : State :=
  { s with
    inReset := false
    program := s.program.take s.cp ++ List.replicate (s.cp - s.program.length) .releaseReset ++
      .packet packet :: s.program.drop (s.cp + 1) }

/-! ### Lanes and bytes of the Keccak state -/

/-- Lane `A[i]`, `0 <= i <= 24` (R16, R20). -/
def Keccak.lane (a : Keccak) (i : Nat) : Lane := a.toList.getD i 0

/-- The flat index of lane `(x,y)`: `x + 5*y`, `x` and `y` modulo 5 (R21). -/
def laneIndex (x y : Nat) : Nat := x % 5 + 5 * (y % 5)

/-- Lane `A[x,y]` (R21). -/
def Keccak.laneXY (a : Keccak) (x y : Nat) : Lane := a.lane (laneIndex x y)

/-- The Keccak state whose lane `i` is `f i`. -/
def Keccak.ofLanes (f : Nat → Lane) : Keccak :=
  #v[f 0, f 1, f 2, f 3, f 4, f 5, f 6, f 7, f 8, f 9, f 10, f 11, f 12, f 13, f 14, f 15, f 16, f 17, f 18, f 19,
     f 20, f 21, f 22, f 23, f 24]

/-- The byte view: `SB[k] = (A[k div 8] >> (8 * (k mod 8))) & 0xFF` (R22). -/
def Keccak.byteView (a : Keccak) (k : Nat) : Byte := byteOf (a.lane (k / 8)).toNat (k % 8)

/-- `XorBlock(A, s, r)` (R123). -/
def xorBlock (a : Keccak) (s : Bytes) (r : Nat) : Keccak :=
  Keccak.ofLanes fun i => if i < r / 8 then a.lane i ^^^ load64 (slice s (8 * i) (8 * i + 8)) else a.lane i

/-- `Extract(A, r)` (R124). -/
def extract (a : Keccak) (r : Nat) : Bytes := (List.range (r / 8)).flatMap fun i => store64 (a.lane i)

/-- All 25 lanes from 200 bytes (R121). -/
def loadState (s : Bytes) : Keccak := Keccak.ofLanes fun i => load64 (slice s (8 * i) (8 * i + 8))

/-- All 25 lanes as 200 bytes (R122). -/
def storeState (a : Keccak) : Bytes := (List.range 25).flatMap fun i => store64 (a.lane i)

end Sys2Proof.Machine
end

