-- ==== Sys2Proof/Machine/Operands.lean ====
section
/-! DEFINITION. Operand forms: every operand of the command word is one whole field read as an unsigned number
(spec/30_encoding.md R85), and the width selector picks a row of the construction table
(spec/30_encoding.md R86, spec/43_constructions.md R190). -/

namespace Sys2Proof.Machine

/-- `rate = zext(A)`, in bytes (R85). -/
def rateOperand (field : Byte) : Nat := field.toNat

/-- `r = zext(A)` or `j = zext(A)`: an index (R85). -/
def indexOperand (field : Byte) : Nat := field.toNat

/-- `N`, as it arrives (R85). -/
def countOperand (n : Word32) : Nat := n.toNat

/-- `V`, as it arrives (R85). -/
def valueOperand (v : Lane) : Nat := v.toNat

/-- `RATE(w)` in bytes: `RATE(0) = 168`, `RATE(1) = 136`, `RATE(2) = 72`; the last is the named constant `RATE512`
(R190). A selector above 2 has no row and the command has raised `IllegalCommand` before it reads one. -/
def rateOfWidth (w : Byte) : Nat :=
  match w.toNat with
  | 0 => 168
  | 1 => 136
  | _ => Config.rate512

/-- The fixed output of SHA-3 in bytes: 32 for `w = 1`, 64 for `w = 2` (R190, R192). -/
def sha3OutputBytes (w : Byte) : Nat := if w.toNat = 1 then 32 else 64

/-- The capacity in bits, `1600 - 8*rate`, implicit and never stored (R11, R190). -/
def capacityBits (rate : Nat) : Nat := 1600 - 8 * rate

/-- Domain byte of SHA-3 (R190). -/
def domSha3 : Byte := 0x06
/-- Domain byte of SHAKE, and of cSHAKE when name and customisation are both empty (R190). -/
def domShake : Byte := 0x1F
/-- Domain byte of cSHAKE with a non-empty name or customisation string (R190). -/
def domCshake : Byte := 0x04
/-- Domain byte of KMAC (R190). -/
def domKmac : Byte := 0x04

end Sys2Proof.Machine
end

