-- ==== Sys2Proof/Machine/Encoders.lean ====
section
/-! DEFINITION. The integer encoders (spec/44_encode.md): LENC, RENC. -/

namespace Sys2Proof.Machine

/-- `ByteLen(v)`, `v < 2^64`: the least `n >= 1` with `v < 2^(8n)` (R240). -/
def byteLen (v : Nat) : Nat := ((List.range' 1 8).find? fun n => v < 2 ^ (8 * n)).getD 8

/-- `byte_{n-1}, ..., byte_0` with `n = ByteLen(v)`: big-endian, the one datum that is (R54, R240). -/
def bigEndianBytes (v : Nat) : Bytes := (List.range (byteLen v)).reverse.map (byteOf v)

/-- `LeftEncode(v)`, `v < 2^64` (R240). -/
def leftEncode (v : Nat) : Bytes := BitVec.ofNat 8 (byteLen v) :: bigEndianBytes v

/-- `RightEncode(v)`, `v < 2^64` (R244). -/
def rightEncode (v : Nat) : Bytes := bigEndianBytes v ++ [BitVec.ofNat 8 (byteLen v)]

/-- The number a big-endian byte string stands for: the sum of R245. -/
def loadBE (s : Bytes) : Nat := loadLE s.reverse

/-- `DecodeLeft` (R245). KCE has no decode command: the decoders only state the law. -/
def decodeLeft (s : Bytes) : Nat := loadBE (slice s 1 (1 + (byteAt s 0).toNat))

/-- `DecodeRight` (R245). -/
def decodeRight (s : Bytes) : Nat := loadBE (slice s 0 (byteAt s (s.length - 1)).toNat)

/-- `LENC V` (R241): decode faults only. -/
def execLenc (v : Lane) (s : State) : Host.Outcome State Fault Refusal := command s [] s (leftEncode (valueOperand v))

/-- `RENC V` (R242): decode faults only. -/
def execRenc (v : Lane) (s : State) : Host.Outcome State Fault Refusal := command s [] s (rightEncode (valueOperand v))

end Sys2Proof.Machine
end

