-- ==== Sys2Proof/Machine/Permutation.lean ====
section
/-! DEFINITION. The Keccak-f[1600] permutation unit (spec/41_permutation.md): THETA, RHOPI, CHI, IOTA, ROUND, PERMUTE,
and the two permutation strategies of R152. -/

namespace Sys2Proof.Machine

/-! ### The step functions -/

/-- `C[x]`, the parity of column `x` (R140). -/
def columnParity (a : Keccak) (x : Nat) : Lane :=
  a.laneXY x 0 ^^^ a.laneXY x 1 ^^^ a.laneXY x 2 ^^^ a.laneXY x 3 ^^^ a.laneXY x 4

/-- `D[x] = C[(x+4) mod 5] ^ rotl64(C[(x+1) mod 5], 1)` (R140). -/
def thetaD (a : Keccak) (x : Nat) : Lane := columnParity a (x + 4) ^^^ rotl64 (columnParity a (x + 1)) 1

/-- `Theta` (R140). -/
def theta (a : Keccak) : Keccak := Keccak.ofLanes fun i => a.lane i ^^^ thetaD a (i % 5)

/-- The rotation table `RHO` (R141). -/
def rhoTable : List Nat :=
  [0, 1, 62, 28, 27, 36, 44, 6, 55, 20, 3, 10, 43, 25, 39, 41, 45, 15, 21, 8, 18, 2, 61, 56, 14]

/-- The relocation table `PIDST` (R142). -/
def piDst : List Nat :=
  [0, 10, 20, 5, 15, 16, 1, 11, 21, 6, 7, 17, 2, 12, 22, 23, 8, 18, 3, 13, 14, 24, 9, 19, 4]

/-- `RhoPi`: `A'[PIDST[i]] = rotl64(A[i], RHO[i])`, every read of the old state (R143). -/
def rhoPi (a : Keccak) : Keccak :=
  Keccak.ofLanes fun j => rotl64 (a.lane (piDst.idxOf j)) (rhoTable.getD (piDst.idxOf j) 0)

/-- `Chi`: `A'[x,y] = A[x,y] ^ ((~A[(x+1) mod 5, y]) & A[(x+2) mod 5, y])` (R144). -/
def chi (a : Keccak) : Keccak :=
  Keccak.ofLanes fun i => a.lane i ^^^ (~~~ a.laneXY (i % 5 + 1) (i / 5) &&& a.laneXY (i % 5 + 2) (i / 5))

/-- The round constants `RC` (R146). -/
def rcTable : List Lane :=
  [0x0000000000000001, 0x0000000000008082, 0x800000000000808A, 0x8000000080008000,
   0x000000000000808B, 0x0000000080000001, 0x8000000080008081, 0x8000000000008009,
   0x000000000000008A, 0x0000000000000088, 0x0000000080008009, 0x000000008000000A] ++
  [0x000000008000808B, 0x800000000000008B, 0x8000000000008089, 0x8000000000008003,
   0x8000000000008002, 0x8000000000000080, 0x000000000000800A, 0x800000008000000A,
   0x8000000080008081, 0x8000000000008080, 0x0000000080000001, 0x8000000080008008]

/-- `RC[r]` (R146). -/
def rc (r : Nat) : Lane := rcTable.getD r 0

/-- `Iota`: `A'[0] = A[0] ^ RC[r]`, every other lane unchanged (R145). -/
def iota (a : Keccak) (r : Nat) : Keccak := Keccak.ofLanes fun i => if i = 0 then a.lane 0 ^^^ rc r else a.lane i

/-- `Rnd(A, r) = Iota(Chi(RhoPi(Theta(A))), r)` (R147). -/
def rnd (a : Keccak) (r : Nat) : Keccak := iota (chi (rhoPi (theta a))) r

/-- `Permute(A)`: 24 rounds, `r = 0` first (R150). -/
def permute (a : Keccak) : Keccak := (List.range 24).foldl rnd a

/-! ### The two strategies (R148, R152, R153) -/

/-- `ROTC` (R148). -/
def rotcTable : List Nat := [1, 3, 6, 10, 15, 21, 28, 36, 45, 55, 2, 14, 27, 41, 56, 8, 25, 43, 62, 18, 39, 61, 20, 44]

/-- `PILN` (R148). -/
def pilnTable : List Nat := [10, 7, 11, 17, 18, 3, 5, 16, 8, 21, 24, 4, 15, 23, 19, 13, 12, 2, 20, 14, 22, 9, 6, 1]

/-- `A[i] <- v` (R16). -/
def Keccak.setLane (a : Keccak) (i : Nat) (v : Lane) : Keccak := a.setIfInBounds i v

/-- Theta in place (R148). -/
def thetaInPlace (a : Keccak) : Keccak :=
  let bc := (List.range 5).map fun x =>
    a.lane x ^^^ a.lane (x + 5) ^^^ a.lane (x + 10) ^^^ a.lane (x + 15) ^^^ a.lane (x + 20)
  (List.range 5).foldl (init := a) fun a x =>
    let t := bc.getD ((x + 4) % 5) 0 ^^^ rotl64 (bc.getD ((x + 1) % 5) 0) 1
    (List.range 5).foldl (init := a) fun a y => a.setLane (x + 5 * y) (a.lane (x + 5 * y) ^^^ t)

/-- Rho and pi in place: walk the 24-cycle carrying one lane (R148). -/
def rhoPiInPlace (a : Keccak) : Keccak :=
  ((List.range 24).foldl (init := (a, a.lane 1)) fun at_ k =>
    let j := pilnTable.getD k 0
    (at_.1.setLane j (rotl64 at_.2 (rotcTable.getD k 0)), at_.1.lane j)).1

/-- Chi in place: copy the row, then rewrite it (R148). -/
def chiInPlace (a : Keccak) : Keccak :=
  (List.range 5).foldl (init := a) fun a y =>
    let bc := (List.range 5).map fun x => a.lane (5 * y + x)
    (List.range 5).foldl (init := a) fun a x =>
      a.setLane (5 * y + x) (bc.getD x 0 ^^^ (~~~ bc.getD ((x + 1) % 5) 0 &&& bc.getD ((x + 2) % 5) 0))

/-- Iota in place (R148). -/
def iotaInPlace (a : Keccak) (r : Nat) : Keccak := a.setLane 0 (a.lane 0 ^^^ rc r)

/-- One round of the compact form (R148). -/
def rndInPlace (a : Keccak) (r : Nat) : Keccak := iotaInPlace (chiInPlace (rhoPiInPlace (thetaInPlace a))) r

/-- The `compact` strategy: R148 in a loop over `r` (R152). -/
def permuteCompact (a : Keccak) : Keccak := (List.range 24).foldl rndInPlace a

/-- The `unrolled2` strategy: 12 iterations of two rounds (R153). -/
def permuteUnrolled2 (a : Keccak) : Keccak :=
  (List.range 12).foldl (init := a) fun a q =>
    let e := rnd a (2 * q)
    rnd e (2 * q + 1)

/-- `PERM_IMPL` (R10). -/
inductive PermImpl where
  | compact | unrolled2
  deriving DecidableEq, Repr

/-- How the engine computes `Permute` under `PERM_IMPL` (R152). No command's result depends on it, so the commands are
defined by `permute` (R150). -/
def permuteWith : PermImpl → Keccak → Keccak
  | .compact => permuteCompact
  | .unrolled2 => permuteUnrolled2

/-! ### Commands -/

/-- `THETA` (R140). -/
def execTheta (s : State) : Host.Outcome State Fault Refusal := command s [] (s.setA (theta s.a)) []

/-- `RHOPI` (R143). -/
def execRhopi (s : State) : Host.Outcome State Fault Refusal := command s [] (s.setA (rhoPi s.a)) []

/-- `CHI` (R144). -/
def execChi (s : State) : Host.Outcome State Fault Refusal := command s [] (s.setA (chi s.a)) []

/-- `IOTA r` (R145). -/
def execIota (r : Byte) (s : State) : Host.Outcome State Fault Refusal :=
  command s [roundIllegal r] (s.setA (iota s.a (indexOperand r))) []

/-- `ROUND r` (R149). -/
def execRound (r : Byte) (s : State) : Host.Outcome State Fault Refusal :=
  command s [roundIllegal r] (s.setA (rnd s.a (indexOperand r))) []

/-- `PERMUTE` (R151). -/
def execPermute (s : State) : Host.Outcome State Fault Refusal := command s [] (s.setA (permute s.a)) []

end Sys2Proof.Machine
end

