-- ==== Sys2Proof/Machine/Sponge.lean ====
section
/-! DEFINITION. The sponge primitives (spec/42_sponge.md): ABSORB, SQUEEZE, BLOCKUPDATE. -/

namespace Sys2Proof.Machine

/-- `Pad(t, dom, rate)`, `|t| < rate`: the domain byte first, then `0x80` ORed into the last byte (R170). -/
def pad (t : Bytes) (dom : Byte) (rate : Nat) : Bytes :=
  let p := t ++ dom :: zeros (rate - t.length - 1)
  p.set (rate - 1) (byteAt p (rate - 1) ||| 0x80)

/-- `AbsorbBlocks(A, s, rate)`, `|s|` a multiple of `rate` (R171). -/
def absorbBlocks (a : Keccak) (s : Bytes) (rate : Nat) : Keccak :=
  (List.range (s.length / rate)).foldl (init := a) fun a b =>
    permute (xorBlock a (slice s (b * rate) ((b + 1) * rate)) rate)

/-- `Absorb(A, rate, s, dom)`: the whole blocks, then the padded rest with no permutation after it (R175). -/
def absorb (a : Keccak) (rate : Nat) (s : Bytes) (dom : Byte) : Keccak :=
  let whole := s.length / rate * rate
  xorBlock (absorbBlocks a (slice s 0 whole) rate) (pad (slice s whole s.length) dom rate) rate

/-- `Squeeze(A, n, rate)`: `n` times permute, then copy out the first `rate` bytes (R176). -/
def squeeze (a : Keccak) (n rate : Nat) : Keccak × Bytes :=
  match n with
  | 0 => (a, [])
  | n + 1 =>
    let a1 := permute a
    let rest := squeeze a1 n rate
    (rest.1, extract a1 rate ++ rest.2)

/-- `ABSORB rate, dom, input` (R172). -/
def execAbsorb (rate dom : Byte) (input : Bytes) (s : State) : Host.Outcome State Fault Refusal :=
  command s [rateInvalid rate, payloadsExceed s [input]] (s.setA (absorb s.a (rateOperand rate) input dom)) []

/-- `SQUEEZE rate, N` (R173). -/
def execSqueeze (rate : Byte) (nBlocks : Word32) (s : State) : Host.Outcome State Fault Refusal :=
  let q := squeeze s.a (countOperand nBlocks) (rateOperand rate)
  command s [rateInvalid rate, outputExceeds s (countOperand nBlocks * rateOperand rate)] (s.setA q.1) q.2

/-- `BLOCKUPDATE rate, blocks` (R174). -/
def execBlockupdate (rate : Byte) (blocks : Bytes) (s : State) : Host.Outcome State Fault Refusal :=
  command s [rateInvalid rate, notWholeBlocks blocks rate, payloadsExceed s [blocks]]
    (s.setA (absorbBlocks s.a blocks (rateOperand rate))) []

end Sys2Proof.Machine
end

