-- ==== Sys2Proof/Machine/Constructions.lean ====
section
/-! DEFINITION. The construction layer (spec/43_constructions.md): SHA-3, SHAKE, cSHAKE, KMAC. -/

namespace Sys2Proof.Machine

/-! ### Functions -/

/-- `ceil(a / b) = (a + b - 1) div b` (R125). -/
def ceilDiv (a b : Nat) : Nat := (a + b - 1) / b

/-- The SHA-3 stage from state `a`: absorb, squeeze one block (R192, R193). -/
def sha3Stage (a : Keccak) (w : Byte) (message : Bytes) : Keccak × Bytes :=
  let q := squeeze (absorb a (rateOfWidth w) message domSha3) 1 (rateOfWidth w)
  (q.1, q.2.take (sha3OutputBytes w))

/-- The state `SHAKE_INIT` leaves (R195). -/
def shakeState (w : Byte) (key : Bytes) : Keccak := absorb Keccak.zero (rateOfWidth w) key domShake

/-- `XofOut(A, rate, L)` (R198). -/
def xofOut (a : Keccak) (rate l : Nat) : Keccak × Bytes :=
  let q := squeeze a (l / rate) rate
  if l % rate ≠ 0 then
    let last := squeeze q.1 1 rate
    (last.1, q.2 ++ last.2.take (l % rate))
  else q

/-- `BytepadAbsorb(A, rate, E)` (R199). -/
def bytepadAbsorb (a : Keccak) (rate : Nat) (e : Bytes) : Keccak :=
  absorbBlocks a (e ++ zeros ((rate - e.length % rate) % rate)) rate

/-- `LeftEncode(8*|s|) ‖ s` (R200, R204). -/
def encodeString (s : Bytes) : Bytes := leftEncode (8 * s.length) ++ s

/-- `Customize(A, rate, name, custom)` (R200). -/
def customize (a : Keccak) (rate : Nat) (name custom : Bytes) : Keccak :=
  bytepadAbsorb a rate (leftEncode rate ++ encodeString name ++ encodeString custom)

/-- The state `CSHAKE_INIT` leaves (R201). -/
def cshakeState (w : Byte) (key name custom : Bytes) : Keccak :=
  if name.length = 0 ∧ custom.length = 0 then absorb Keccak.zero (rateOfWidth w) key domShake
  else absorb (customize Keccak.zero (rateOfWidth w) name custom) (rateOfWidth w) key domCshake

/-- `KeyBlock(A, rate, key)` (R204). -/
def keyBlock (a : Keccak) (rate : Nat) (key : Bytes) : Keccak :=
  bytepadAbsorb a rate (leftEncode rate ++ encodeString key)

/-- The four bytes `4B 4D 41 43` (R14, R205). -/
def kmacName : Bytes := [0x4B, 0x4D, 0x41, 0x43]

/-- The state `KMAC_INIT` leaves (R205). -/
def kmacState (w : Byte) (key custom : Bytes) : Keccak :=
  keyBlock (customize Keccak.zero (rateOfWidth w) kmacName custom) (rateOfWidth w) key

/-- KMAC finalisation from state `a` (R206). -/
def kmacStage (a : Keccak) (w : Byte) (outLen : Nat) (tail : Bytes) : Keccak × Bytes :=
  let rate := rateOfWidth w
  let q := squeeze (absorb a rate (tail ++ rightEncode (8 * outLen)) domKmac) (ceilDiv outLen rate) rate
  (q.1, q.2.take outLen)

/-! ### Commands -/

/-- `SHA3_COMPUTE.w message` (R192). -/
def execSha3Compute (w : Byte) (message : Bytes) (s : State) : Host.Outcome State Fault Refusal :=
  let q := sha3Stage Keccak.zero w message
  command s [sha3WidthIllegal w, payloadsExceed s [message]] (s.setA q.1) q.2

/-- `SHA3_FINAL.w tail` (R193). -/
def execSha3Final (w : Byte) (tail : Bytes) (s : State) : Host.Outcome State Fault Refusal :=
  let q := sha3Stage s.a w tail
  command s [sha3WidthIllegal w, payloadsExceed s [tail]] (s.setA q.1) q.2

/-- `SHAKE_INIT.w key` (R195). -/
def execShakeInit (w : Byte) (key : Bytes) (s : State) : Host.Outcome State Fault Refusal :=
  command s [widthIllegal w, payloadsExceed s [key]] (s.setA (shakeState w key)) []

/-- `SHAKE_SQUEEZE.w N` (R196). -/
def execShakeSqueeze (w : Byte) (nBlocks : Word32) (s : State) : Host.Outcome State Fault Refusal :=
  let q := squeeze s.a (countOperand nBlocks) (rateOfWidth w)
  command s [widthIllegal w, outputExceeds s (countOperand nBlocks * rateOfWidth w)] (s.setA q.1) q.2

/-- `SHAKE_COMPUTE.w N, key` (R197). -/
def execShakeCompute (w : Byte) (outLen : Word32) (key : Bytes) (s : State) : Host.Outcome State Fault Refusal :=
  let q := xofOut (shakeState w key) (rateOfWidth w) (countOperand outLen)
  command s [widthIllegal w, payloadsExceed s [key], outputExceeds s (countOperand outLen)] (s.setA q.1) q.2

/-- `CSHAKE_INIT.w key, name, custom` (R201). -/
def execCshakeInit (w : Byte) (key name custom : Bytes) (s : State) : Host.Outcome State Fault Refusal :=
  command s
    [widthIllegal w, bitLengthOverflow name.length, bitLengthOverflow custom.length,
     payloadsExceed s [key, name, custom]]
    (s.setA (cshakeState w key name custom)) []

/-- `CSHAKE_COMPUTE.w N, key, name, custom` (R202). -/
def execCshakeCompute (w : Byte) (outLen : Word32) (key name custom : Bytes) (s : State) :
    Host.Outcome State Fault Refusal :=
  let q := xofOut (cshakeState w key name custom) (rateOfWidth w) (countOperand outLen)
  command s
    [widthIllegal w, bitLengthOverflow name.length, bitLengthOverflow custom.length,
     payloadsExceed s [key, name, custom], outputExceeds s (countOperand outLen)]
    (s.setA q.1) q.2

/-- `KMAC_INIT.w key, custom` (R205). -/
def execKmacInit (w : Byte) (key custom : Bytes) (s : State) : Host.Outcome State Fault Refusal :=
  command s
    [widthIllegal w, bitLengthOverflow key.length, bitLengthOverflow custom.length, payloadsExceed s [key, custom]]
    (s.setA (kmacState w key custom)) []

/-- `KMAC_FINAL.w N, tail` (R206). -/
def execKmacFinal (w : Byte) (outLen : Word32) (tail : Bytes) (s : State) : Host.Outcome State Fault Refusal :=
  let q := kmacStage s.a w (countOperand outLen) tail
  command s
    [widthIllegal w, bitLengthOverflow (countOperand outLen), payloadsExceed s [tail],
     outputExceeds s (countOperand outLen)]
    (s.setA q.1) q.2

/-- `KMAC_COMPUTE.w N, message, key, custom` (R207): the checks are the union of those of R205 and R206. -/
def execKmacCompute (w : Byte) (outLen : Word32) (message key custom : Bytes) (s : State) :
    Host.Outcome State Fault Refusal :=
  let q := kmacStage (kmacState w key custom) w (countOperand outLen) message
  command s
    [widthIllegal w, bitLengthOverflow key.length, bitLengthOverflow custom.length,
     bitLengthOverflow (countOperand outLen), payloadsExceed s [message, key, custom],
     outputExceeds s (countOperand outLen)]
    (s.setA q.1) q.2

end Sys2Proof.Machine
end

