-- ==== Sys2Proof/Machine/Fft.lean ====
section
/-! DEFINITION. The binary-field FFT unit (spec/45_fft.md): FFT_LD, FFT_RADIX, FFT_BFLY, FFT, FFT_ST, FFT_STIN. Every
function takes the parameters `c` of R252 as an argument. -/

namespace Sys2Proof.Machine

/-! ### Vectors -/

/-- Word `i` of a vector. -/
def FftVector.word (f : FftVector) (i : Nat) : Lane := f.getD i 0

/-- Adding two vectors: XOR word by word (R250). -/
def FftVector.xor (f g : FftVector) : FftVector := List.zipWith (· ^^^ ·) f g

/-- `bcast(c)`: every one of the 64 elements is the field constant `c` (R250). -/
def FftVector.bcast (m c : Nat) : FftVector := (List.range m).map fun i => if c.testBit i then ones else 0

/-- `buf[k] = buf[k] ^ v`. -/
def xorAt (buf : List Lane) (k : Nat) (v : Lane) : List Lane := buf.modify k (· ^^^ v)

/-- The product loop of `VecMul` (R254). -/
def vecMulProduct (m : Nat) (f g : FftVector) : List Lane :=
  (List.range m).foldl (init := List.replicate (2 * m - 1) 0) fun buf i =>
    (List.range m).foldl (init := buf) fun buf j => xorAt buf (i + j) (f.word i &&& g.word j)

/-- The reduction loop of `VecMul`: `i` from `2m-2` down to `m` (R254). -/
def vecMulReduce (m : Nat) (poly : List Nat) (buf : List Lane) : List Lane :=
  (List.range (m - 1)).foldl (init := buf) fun buf t =>
    let i := 2 * m - 2 - t
    poly.foldl (init := buf) fun buf e => xorAt buf (i - m + e) (buf.getD i 0)

/-- `VecMul(f, g)` (R254). -/
def vecMul (c : Config) (f g : FftVector) : FftVector :=
  (vecMulReduce c.fftM c.fftPoly (vecMulProduct c.fftM f g)).take c.fftM

/-- `mask(b)`: a bit broadcast to 64 bits (R255). -/
def maskOfBit (b : Bool) : Lane := if b then ones else 0

/-! ### Radix conversion (R256) -/

/-- `v ^ ((v & mask) >> n)`. -/
def xorShift (v mask : Lane) (n : Nat) : Lane := v ^^^ ((v &&& mask) >>> n)

/-- The XOR-shift reductions of round `j` on one word: `k` from 4 down to `j`. -/
def radixWord (c : Config) (j : Nat) (v : Lane) : Lane :=
  (List.range (5 - j)).foldl (init := v) fun v t =>
    let k := 4 - t
    let masks := c.fftMask.getD k (0, 0)
    xorShift (xorShift v masks.1 (2 ^ k)) masks.2 (2 ^ k)

/-- Round `j`: the reductions on every word, then one `VecMul` by that round's constant vector. -/
def radixRound (c : Config) (f : FftVector) (j : Nat) : FftVector :=
  vecMul c (f.map (radixWord c j)) (c.fftScal.getD j [])

/-- `RadixConv(f)` (R256). -/
def radixConv (c : Config) (f : FftVector) : FftVector := (List.range 5).foldl (radixRound c) f

/-! ### Butterflies (R257) -/

/-- Vector `j` of the output file. -/
def vectorAt (out : List FftVector) (j : Nat) : FftVector := out.getD j []

/-- The broadcast: `out[j][i] = mask((f[i] >> FFT_REV[j]) & 1)`. -/
def broadcast (c : Config) (f : FftVector) : List FftVector :=
  (List.range 64).map fun j => (List.range c.fftM).map fun i => maskOfBit ((f.word i).getLsbD (c.fftRev.getD j 0))

/-- One pair `(k, k+s)` with the constant vector `g`: the upper element times `g` is added to the lower one, then the
new lower one to the upper one. -/
def butterflyPair (c : Config) (s k : Nat) (g : FftVector) (out : List FftVector) : List FftVector :=
  let tmp := vecMul c (vectorAt out (k + s)) g
  let lower := (vectorAt out k).xor tmp
  (out.set k lower).set (k + s) ((vectorAt out (k + s)).xor lower)

/-- The pairs of a stage with half-block size `s`, in order, each with its position `k - j` in its block. -/
def stagePairs (s : Nat) : List (Nat × Nat) :=
  (List.range (64 / (2 * s))).flatMap fun block => (List.range s).map fun t => (block * (2 * s) + t, t)

/-- Stage `i`, `s = 2^i`, with the constants from index `ptr` on. -/
def butterflyStage (c : Config) (s ptr : Nat) (out : List FftVector) : List FftVector :=
  (stagePairs s).foldl (init := out) fun out pair =>
    butterflyPair c s pair.1 (c.fftConsts.getD (ptr + pair.2) []) out

/-- `Butterflies(f)`: the broadcast, then 6 stages with a running constant index (R257); nothing after the sixth
(R259). -/
def butterflies (c : Config) (f : FftVector) : List FftVector :=
  ((List.range 6).foldl (init := (broadcast c f, 0)) fun st i =>
    (butterflyStage c (2 ^ i) st.2 st.1, st.2 + 2 ^ i)).1

/-! ### Loads and stores -/

/-- `m` words from `8m` bytes, word 0 first (R260). -/
def loadVector (m : Nat) (s : Bytes) : FftVector := (List.range m).map fun i => load64 (slice s (8 * i) (8 * i + 8))

/-- `m` words as `8m` bytes (R264, R265). -/
def storeVector (m : Nat) (f : FftVector) : Bytes := (List.range m).flatMap fun i => store64 (f.word i)

/-! ### Commands -/

/-- `FFT_LD coefficients` (R260). -/
def execFftLd (coefficients : Bytes) (s : State) : Host.Outcome State Fault Refusal :=
  command s [lengthNot coefficients (8 * s.cfg.fftM)] (s.setFin (loadVector s.cfg.fftM coefficients)) []

/-- `FFT_RADIX` (R261). -/
def execFftRadix (s : State) : Host.Outcome State Fault Refusal := command s [] (s.setFin (radixConv s.cfg s.fin)) []

/-- `FFT_BFLY` (R262). -/
def execFftBfly (s : State) : Host.Outcome State Fault Refusal :=
  command s [] (s.setFout (butterflies s.cfg s.fin)) []

/-- `FFT` (R263). -/
def execFft (s : State) : Host.Outcome State Fault Refusal :=
  let f := radixConv s.cfg s.fin
  command s [] ((s.setFin f).setFout (butterflies s.cfg f)) []

/-- `FFT_ST j` (R264). -/
def execFftSt (j : Byte) (s : State) : Host.Outcome State Fault Refusal :=
  command s [vectorIllegal j] s (storeVector s.cfg.fftM (vectorAt s.fout (indexOperand j)))

/-- `FFT_STIN` (R265). -/
def execFftStin (s : State) : Host.Outcome State Fault Refusal := command s [] s (storeVector s.cfg.fftM s.fin)

end Sys2Proof.Machine
end

