-- ==== Sys2Proof/Machine/Utility.lean ====
section
/-! DEFINITION. State load and store (spec/40_util_state.md): ZERO, LDSTATE, STSTATE. -/

namespace Sys2Proof.Machine

/-- `ZERO` (R120). -/
def execZero (s : State) : Host.Outcome State Fault Refusal := command s [] (s.setA Keccak.zero) []

/-- `LDSTATE state` (R121): `BufferTooSmall` cannot occur. -/
def execLdstate (state : Bytes) (s : State) : Host.Outcome State Fault Refusal :=
  command s [lengthNot state 200] (s.setA (loadState state)) []

/-- `STSTATE` (R122): decode faults only. -/
def execStstate (s : State) : Host.Outcome State Fault Refusal := command s [] s (storeState s.a)

end Sys2Proof.Machine
end

