-- ==== Sys2Proof/Machine/Dispatch.lean ====
section
/-! DEFINITION. One arm per command of the opcode map (spec/30_encoding.md R90). -/

namespace Sys2Proof.Machine

def exec (i : Instr) (s : State) : Host.Outcome State Fault Refusal :=
  match i with
  | .zero => Sys2Proof.Machine.execZero s
  | .ldstate state => Sys2Proof.Machine.execLdstate state s
  | .ststate => Sys2Proof.Machine.execStstate s
  | .permute => Sys2Proof.Machine.execPermute s
  | .round r => Sys2Proof.Machine.execRound r s
  | .theta => Sys2Proof.Machine.execTheta s
  | .rhopi => Sys2Proof.Machine.execRhopi s
  | .chi => Sys2Proof.Machine.execChi s
  | .iota r => Sys2Proof.Machine.execIota r s
  | .absorb rate dom input => Sys2Proof.Machine.execAbsorb rate dom input s
  | .squeeze rate nBlocks => Sys2Proof.Machine.execSqueeze rate nBlocks s
  | .blockupdate rate blocks => Sys2Proof.Machine.execBlockupdate rate blocks s
  | .sha3Compute w message => Sys2Proof.Machine.execSha3Compute w message s
  | .sha3Final w tail => Sys2Proof.Machine.execSha3Final w tail s
  | .shakeInit w key => Sys2Proof.Machine.execShakeInit w key s
  | .shakeSqueeze w nBlocks => Sys2Proof.Machine.execShakeSqueeze w nBlocks s
  | .shakeCompute w outLen key => Sys2Proof.Machine.execShakeCompute w outLen key s
  | .cshakeInit w key name custom => Sys2Proof.Machine.execCshakeInit w key name custom s
  | .cshakeCompute w outLen key name custom => Sys2Proof.Machine.execCshakeCompute w outLen key name custom s
  | .kmacInit w key custom => Sys2Proof.Machine.execKmacInit w key custom s
  | .kmacFinal w outLen tail => Sys2Proof.Machine.execKmacFinal w outLen tail s
  | .kmacCompute w outLen message key custom => Sys2Proof.Machine.execKmacCompute w outLen message key custom s
  | .lenc v => Sys2Proof.Machine.execLenc v s
  | .renc v => Sys2Proof.Machine.execRenc v s
  | .fftLd coefficients => Sys2Proof.Machine.execFftLd coefficients s
  | .fftRadix => Sys2Proof.Machine.execFftRadix s
  | .fftBfly => Sys2Proof.Machine.execFftBfly s
  | .fft => Sys2Proof.Machine.execFft s
  | .fftSt j => Sys2Proof.Machine.execFftSt j s
  | .fftStin => Sys2Proof.Machine.execFftStin s

end Sys2Proof.Machine
end

