-- ==== Sys2Proof/Machine/Inputs.lean ====
section
/-! DEFINITION. What the engine does with each input of the host: a packet (spec/30_encoding.md R87) and the reset input
(spec/70_reset_and_hazards.md R340). -/

namespace Sys2Proof.Machine

/-- Run one packet (R87): decode it and run the command, or answer a packet that is no command. -/
def runPacket (packet : Bytes) (s : State) : Host.Outcome State Fault Refusal :=
  match decode packet with
  | .ok i => exec i s
  | .error _ => illegalPacket s

/-- What an engine out of reset does with one input: it runs a packet; if the reset input is asserted, between two
commands or during one, it is in reset, and the command has no effect and no response (R340). -/
def acceptInput (input : Input) (s : State) : Host.Outcome State Fault Refusal :=
  match input with
  | .packet packet => runPacket packet s
  | .assertReset => .next (assertReset s)
  | .packetCutByReset _ => .next (assertReset s)
  | .releaseReset => .next (passInput s)

/-- What an engine in reset does with one input: only the release of the reset input does anything, and no packet is
accepted (R340). -/
def inputDuringReset (input : Input) (s : State) : Host.Outcome State Fault Refusal :=
  match input with
  | .packet _ => .next (passInput s)
  | .assertReset => .next (passInput s)
  | .packetCutByReset _ => .next (passInput s)
  | .releaseReset => .next (releaseReset s)

end Sys2Proof.Machine
end

