-- ==== Sys2Proof/Machine/Step.lean ====
section
/-! DEFINITION. One step of KCE: the host's next input, completely (spec/20_memory.md R60, spec/10_state.md R24). -/

namespace Sys2Proof.Machine

/-- One step: the host's next input; with no input the engine is idle and keeps all state (R323). -/
def step (s : State) : Host.Outcome State Fault Refusal :=
  match fetch s with
  | none => .next s
  | some input => if s.inReset then inputDuringReset input s else acceptInput input s

/-- `s` with the table word's packet where the next step fetches. -/
def State.withFetchWord (s : State) (nbits w : Nat) : State := s.placePacket (tablePacket nbits w)

end Sys2Proof.Machine
end

