-- ==== Sys2Proof/Laws/Bytes.lean ====
section
/-! SUPPORT. Laws of the byte-order helpers. -/

namespace Sys2Proof

@[simp] theorem storeLE_zero (v : Nat) : storeLE 0 v = [] := rfl

theorem byteOf_succ (v k : Nat) : byteOf v (k + 1) = byteOf (v / 2 ^ 8) k := by
  simp only [byteOf, Nat.shiftRight_eq_div_pow, Nat.div_div_eq_div_mul, ← Nat.pow_add]
  congr 3; omega

theorem storeLE_succ (n v : Nat) : storeLE (n + 1) v = BitVec.ofNat 8 v :: storeLE n (v / 2 ^ 8) := by
  have h : byteOf v 0 = BitVec.ofNat 8 v := by simp [byteOf]
  simp [storeLE, List.range_succ_eq_map, byteOf_succ, h]

@[simp] theorem storeLE_length (n v : Nat) : (storeLE n v).length = n := by simp [storeLE]

@[simp] theorem store32_length (v : Nat) : (store32 v).length = 4 := storeLE_length 4 v

@[simp] theorem store64_length (v : Lane) : (store64 v).length = 8 := storeLE_length 8 v.toNat

theorem loadLE_lt (s : Bytes) : loadLE s < 2 ^ (8 * s.length) := by
  induction s with
  | nil => simp [loadLE]
  | cons b s ih =>
    have hb := b.isLt
    rw [List.length_cons, Nat.mul_add, Nat.pow_add, loadLE]
    omega

theorem loadLE_storeLE (n v : Nat) : loadLE (storeLE n v) = v % 2 ^ (8 * n) := by
  induction n generalizing v with
  | zero => simp [loadLE, Nat.mod_one]
  | succ n ih =>
    rw [storeLE_succ, loadLE, ih, BitVec.toNat_ofNat, Nat.mul_add, Nat.mul_one, Nat.add_comm (8 * n), Nat.pow_add,
      Nat.mod_mul]

theorem storeLE_loadLE (s : Bytes) : storeLE s.length (loadLE s) = s := by
  induction s with
  | nil => rfl
  | cons b s ih =>
    have hb := b.isLt
    rw [List.length_cons, storeLE_succ, loadLE]
    congr 1
    · apply BitVec.eq_of_toNat_eq; rw [BitVec.toNat_ofNat]; omega
    · rw [show (b.toNat + 2 ^ 8 * loadLE s) / 2 ^ 8 = loadLE s by omega, ih]

theorem load32_store32 (v : Nat) : load32 (store32 v) = BitVec.ofNat 32 v := by
  apply BitVec.eq_of_toNat_eq
  simp [load32, store32, loadLE_storeLE]

@[simp] theorem load32_store32_toNat (w : Word32) : load32 (store32 w.toNat) = w := by simp [load32_store32]

@[simp] theorem load64_store64 (v : Lane) : load64 (store64 v) = v := by
  apply BitVec.eq_of_toNat_eq
  have := v.isLt
  simp only [load64, store64, loadLE_storeLE, BitVec.toNat_ofNat]
  omega

theorem store64_load64 (s : Bytes) (h : s.length = 8) : store64 (load64 s) = s := by
  have hlt := loadLE_lt s
  rw [h] at hlt
  rw [store64, load64, BitVec.toNat_ofNat, Nat.mod_eq_of_lt hlt, ← h, storeLE_loadLE]

theorem store32_load32 (s : Bytes) (h : s.length = 4) : store32 (load32 s).toNat = s := by
  have hlt := loadLE_lt s
  rw [h] at hlt
  rw [store32, load32, BitVec.toNat_ofNat, Nat.mod_eq_of_lt hlt, ← h, storeLE_loadLE]

theorem slice_length (s : Bytes) (a b : Nat) : (slice s a b).length = min (b - a) (s.length - a) := by
  simp [slice]

@[simp] theorem zeros_length (k : Nat) : (zeros k).length = k := by simp [zeros]

@[simp] theorem rotl64_zero (v : Lane) : rotl64 v 0 = v := rfl

end Sys2Proof
end

