-- ==== Sys2Proof/Laws/Decode.lean ====
section
/-! SUPPORT. Laws of the command word, of the packet readers and of the decoder. -/

namespace Sys2Proof

/-! ### The fields of a command word -/

/-- Bit `i` of a command word. -/
theorem commandWord_getLsbD (op a b : Byte) (i : Nat) :
    (commandWord op a b).getLsbD i =
      if i < 8 then false else if i < 16 then b.getLsbD (i - 8)
      else if i < 24 then a.getLsbD (i - 16) else op.getLsbD (i - 24) := by
  have h1 : (op ++ a ++ b ++ (0 : Byte)).getLsbD i =
      if i < 8 then (0 : Byte).getLsbD i else (op ++ a ++ b).getLsbD (i - 8) := BitVec.getLsbD_append
  have h2 : (op ++ a ++ b).getLsbD (i - 8) =
      if i - 8 < 8 then b.getLsbD (i - 8) else (op ++ a).getLsbD (i - 8 - 8) := BitVec.getLsbD_append
  have h3 : (op ++ a).getLsbD (i - 8 - 8) =
      if i - 8 - 8 < 8 then a.getLsbD (i - 8 - 8) else op.getLsbD (i - 8 - 8 - 8) := BitVec.getLsbD_append
  rw [commandWord]
  refine h1.trans ?_
  rw [h2, h3, show i - 8 - 8 - 8 = i - 24 by omega, show i - 8 - 8 = i - 16 by omega]
  by_cases c1 : i < 8
  · simp [c1]
  · by_cases c2 : i < 16
    · simp [c1, c2, show i - 8 < 8 by omega]
    · by_cases c3 : i < 24
      · simp [c1, c2, c3, show ¬ i - 8 < 8 by omega, show i - 16 < 8 by omega]
      · simp [c1, c2, c3, show ¬ i - 8 < 8 by omega, show ¬ i - 16 < 8 by omega]

theorem toNat_append_byte {n : Nat} (x : BitVec n) (y : Byte) : (x ++ y).toNat = x.toNat * 2 ^ 8 + y.toNat := by
  rw [BitVec.toNat_append, ← Nat.shiftLeft_add_eq_or_of_lt y.isLt, Nat.shiftLeft_eq]

/-- A command word as a number: `OP << 24 | A << 16 | B << 8`. -/
theorem commandWord_toNat (op a b : Byte) :
    (commandWord op a b).toNat = op.toNat * 2 ^ 24 + a.toNat * 2 ^ 16 + b.toNat * 2 ^ 8 := by
  have h : (commandWord op a b).toNat = (op ++ a ++ b ++ (0 : Byte)).toNat := rfl
  rw [h, toNat_append_byte, toNat_append_byte, toNat_append_byte]
  simp only [BitVec.ofNat_eq_ofNat, BitVec.toNat_ofNat]
  omega

theorem byte_ext {x y : Byte} (h : ∀ i < 8, x.getLsbD i = y.getLsbD i) : x = y := BitVec.eq_of_getLsbD_eq h

theorem word32_ext {x y : Word32} (h : ∀ i < 32, x.getLsbD i = y.getLsbD i) : x = y := BitVec.eq_of_getLsbD_eq h

@[simp] theorem fieldOp_commandWord (op a b : Byte) : fieldOp (commandWord op a b) = op := by
  apply byte_ext
  intro i hi
  interval_cases i <;> simp only [fieldOp, BitVec.getLsbD_extractLsb', commandWord_getLsbD] <;> rfl

@[simp] theorem fieldA_commandWord (op a b : Byte) : fieldA (commandWord op a b) = a := by
  apply byte_ext
  intro i hi
  interval_cases i <;> simp only [fieldA, BitVec.getLsbD_extractLsb', commandWord_getLsbD] <;> rfl

@[simp] theorem fieldB_commandWord (op a b : Byte) : fieldB (commandWord op a b) = b := by
  apply byte_ext
  intro i hi
  interval_cases i <;> simp only [fieldB, BitVec.getLsbD_extractLsb', commandWord_getLsbD] <;> rfl

@[simp] theorem fieldZ_commandWord (op a b : Byte) : fieldZ (commandWord op a b) = 0 := by
  apply byte_ext
  intro i hi
  interval_cases i <;> simp only [fieldZ, BitVec.getLsbD_extractLsb', commandWord_getLsbD] <;> rfl

/-- A word with `Z = 0` is the command word of its fields. -/
theorem commandWord_fields (w : Word32) (h : fieldZ w = 0) : commandWord (fieldOp w) (fieldA w) (fieldB w) = w := by
  have hz : ∀ i < 8, w.getLsbD i = false := by
    intro i hi
    have := congrArg (fun v : Byte => v.getLsbD i) h
    simpa [fieldZ, BitVec.getLsbD_extractLsb', hi] using this
  apply word32_ext
  intro i hi
  rw [commandWord_getLsbD]
  split
  · next h8 => rw [hz i h8]
  · split
    · next h8 h16 =>
      simp only [fieldB, BitVec.getLsbD_extractLsb', show i - 8 < 8 by omega, decide_true, Bool.true_and]
      congr 1; omega
    · split
      · next h8 h16 h24 =>
        simp only [fieldA, BitVec.getLsbD_extractLsb', show i - 16 < 8 by omega, decide_true, Bool.true_and]
        congr 1; omega
      · next h8 h16 h24 =>
        simp only [fieldOp, BitVec.getLsbD_extractLsb', show i - 24 < 8 by omega, decide_true, Bool.true_and]
        congr 1; omega

/-! ### Reading a packet -/

theorem list_of_length_four {s : Bytes} (h : s.length = 4) : ∃ b0 b1 b2 b3, s = [b0, b1, b2, b3] := by
  match s, h with
  | [b0, b1, b2, b3], _ => exact ⟨b0, b1, b2, b3, rfl⟩

theorem list_of_length_eight {s : Bytes} (h : s.length = 8) :
    ∃ b0 b1 b2 b3 b4 b5 b6 b7, s = [b0, b1, b2, b3, b4, b5, b6, b7] := by
  match s, h with
  | [b0, b1, b2, b3, b4, b5, b6, b7], _ => exact ⟨b0, b1, b2, b3, b4, b5, b6, b7, rfl⟩

/-- The decoder reads the word that the encoder wrote. -/
@[simp] theorem decode_encodeWord (op a b : Byte) (rest : Bytes) :
    decode (encodeWord op a b ++ rest) = decodeFields op a b rest := by
  obtain ⟨b0, b1, b2, b3, h⟩ := list_of_length_four (store32_length (commandWord op a b).toNat)
  have hw : load32 [b0, b1, b2, b3] = commandWord op a b := by rw [← h, load32_store32_toNat]
  simp [encodeWord, h, decode, hw]

@[simp] theorem takeWord32_store32 (n : Word32) (rest : Bytes) (k : Word32 → Bytes → Decoded) :
    takeWord32 (store32 n.toNat ++ rest) k = k n rest := by
  obtain ⟨b0, b1, b2, b3, h⟩ := list_of_length_four (store32_length n.toNat)
  have hw : load32 [b0, b1, b2, b3] = n := by rw [← h, load32_store32_toNat]
  simp [h, takeWord32, hw]

@[simp] theorem takeWord64_store64 (v : Lane) (rest : Bytes) (k : Lane → Bytes → Decoded) :
    takeWord64 (store64 v ++ rest) k = k v rest := by
  obtain ⟨b0, b1, b2, b3, b4, b5, b6, b7, h⟩ := list_of_length_eight (store64_length v)
  have hw : load64 [b0, b1, b2, b3, b4, b5, b6, b7] = v := by rw [← h, load64_store64]
  simp [h, takeWord64, hw]

theorem takePayload_encodePayload (p rest : Bytes) (k : Bytes → Bytes → Decoded) (h : p.length < 2 ^ 32) :
    takePayload (encodePayload p ++ rest) k = k p rest := by
  have hn : (BitVec.ofNat 32 p.length).toNat = p.length := by rw [BitVec.toNat_ofNat, Nat.mod_eq_of_lt h]
  have hs : encodePayload p ++ rest = store32 (BitVec.ofNat 32 p.length).toNat ++ (p ++ rest) := by
    rw [hn, encodePayload, List.append_assoc]
  rw [hs, takePayload, takeWord32_store32, hn]
  simp

@[simp] theorem endPacket_nil (i : Instr) : endPacket [] i = .ok i := rfl

/-! ### What a successful read says of the bytes -/

theorem takeWord32_ok {rest : Bytes} {k : Word32 → Bytes → Decoded} {i : Instr} (h : takeWord32 rest k = .ok i) :
    ∃ n tl, rest = store32 n.toNat ++ tl ∧ k n tl = .ok i := by
  unfold takeWord32 at h
  split at h
  · next b0 b1 b2 b3 tl =>
    exact ⟨_, tl, by rw [store32_load32 [b0, b1, b2, b3] rfl]; rfl, h⟩
  · cases h

theorem takeWord64_ok {rest : Bytes} {k : Lane → Bytes → Decoded} {i : Instr} (h : takeWord64 rest k = .ok i) :
    ∃ v tl, rest = store64 v ++ tl ∧ k v tl = .ok i := by
  unfold takeWord64 at h
  split at h
  · next b0 b1 b2 b3 b4 b5 b6 b7 tl =>
    exact ⟨_, tl, by rw [store64_load64 [b0, b1, b2, b3, b4, b5, b6, b7] rfl]; rfl, h⟩
  · cases h

theorem takePayload_ok {rest : Bytes} {k : Bytes → Bytes → Decoded} {i : Instr} (h : takePayload rest k = .ok i) :
    ∃ p tl, rest = encodePayload p ++ tl ∧ p.length < 2 ^ 32 ∧ k p tl = .ok i := by
  obtain ⟨n, tl, rfl, hk⟩ := takeWord32_ok h
  split at hk
  · next hn =>
    have hl : (tl.take n.toNat).length = n.toNat := by rw [List.length_take, Nat.min_eq_left hn]
    refine ⟨tl.take n.toNat, tl.drop n.toNat, ?_, by rw [hl]; exact n.isLt, hk⟩
    rw [encodePayload, hl, List.append_assoc, List.take_append_drop]
  · cases hk

theorem endPacket_ok {rest : Bytes} {i j : Instr} (h : endPacket rest i = .ok j) : rest = [] ∧ i = j := by
  unfold endPacket at h
  split at h
  · exact ⟨rfl, by simpa using h⟩
  · cases h

theorem noFields_ok {a b : Byte} {k : Decoded} {i : Instr} (h : noFields a b k = .ok i) :
    a = 0 ∧ b = 0 ∧ k = .ok i := by
  unfold noFields at h
  split at h
  · next hab => exact ⟨hab.1, hab.2, h⟩
  · cases h

theorem fieldAOnly_ok {b : Byte} {k : Decoded} {i : Instr} (h : fieldAOnly b k = .ok i) : b = 0 ∧ k = .ok i := by
  unfold fieldAOnly at h
  split at h
  · next hb => exact ⟨hb, h⟩
  · cases h

/-- A packet that decodes is a command word and the rest its opcode's format reads. -/
theorem decode_ok {packet : Bytes} {i : Instr} (h : decode packet = .ok i) :
    ∃ op a b rest, packet = encodeWord op a b ++ rest ∧ decodeFields op a b rest = .ok i := by
  unfold decode at h
  split at h
  · next b0 b1 b2 b3 rest =>
    dsimp only at h
    split at h
    · next hz =>
      refine ⟨_, _, _, rest, ?_, h⟩
      rw [encodeWord, commandWord_fields _ hz, store32_load32 [b0, b1, b2, b3] rfl]
      rfl
    · cases h
  · cases h

end Sys2Proof
end

