-- ==== Sys2Proof/Laws/PerInstr.lean ====
section
/-! SUPPORT. Facts about each command as syntax, one lemma per constructor. -/

namespace Sys2Proof.Laws

open Sys2Proof

/-- The command's row is in the opcode map and the command word of its packet fits that row (R83, R90). -/
def Encoding.Statement (i : Instr) : Prop :=
  i.row ∈ opcodeTable ∧ i.row.fits (load32 ((encode i).take 4)) = true

theorem take_encodeWord (op a b : Byte) (rest : Bytes) : load32 ((encodeWord op a b ++ rest).take 4) = commandWord op a b := by
  rw [List.take_append_of_le_length (by simp [encodeWord]), List.take_of_length_le (by simp [encodeWord]), encodeWord,
    load32_store32_toNat]

theorem take_encodeWord_nil (op a b : Byte) : load32 ((encodeWord op a b).take 4) = commandWord op a b := by
  simpa using take_encodeWord op a b []

/-- A command word with no operand field fits every row of its opcode whose mask fixes all bits. -/
theorem fits_fixed (op : Byte) (row : OpcodeRow) (hop : row.op = op) (hm : row.format.mask = 0xFFFFFFFF) :
    row.fits (commandWord op 0 0) = true := by
  subst hop
  simp only [OpcodeRow.fits, OpcodeRow.matchWord, hm, beq_iff_eq]
  apply word32_ext
  intro i hi
  interval_cases i <;> simp only [BitVec.getLsbD_and, commandWord_getLsbD] <;> simp

/-- A command word with only the field `A` fits every row of its opcode whose mask leaves `A` free. -/
theorem fits_fieldA (op a : Byte) (row : OpcodeRow) (hop : row.op = op) (hm : row.format.mask = 0xFF00FFFF) :
    row.fits (commandWord op a 0) = true := by
  subst hop
  simp only [OpcodeRow.fits, OpcodeRow.matchWord, hm, beq_iff_eq]
  apply word32_ext
  intro i hi
  interval_cases i <;> simp only [BitVec.getLsbD_and, commandWord_getLsbD] <;> simp

/-- A command word with the fields `A` and `B` fits every row of its opcode whose mask leaves both free. -/
theorem fits_fieldAB (op a b : Byte) (row : OpcodeRow) (hop : row.op = op) (hm : row.format.mask = 0xFF0000FF) :
    row.fits (commandWord op a b) = true := by
  subst hop
  simp only [OpcodeRow.fits, OpcodeRow.matchWord, hm, beq_iff_eq]
  apply word32_ext
  intro i hi
  interval_cases i <;> simp only [BitVec.getLsbD_and, commandWord_getLsbD] <;> simp

theorem Encoding.zero : Encoding.Statement .zero :=
  ⟨by simp [opcodeTable, Instr.row], by rw [encode, take_encodeWord_nil]; exact fits_fixed _ _ rfl rfl⟩

theorem Encoding.ldstate (state : Bytes) : Encoding.Statement (.ldstate state) :=
  ⟨by simp [opcodeTable, Instr.row], by rw [encode, take_encodeWord]; exact fits_fixed _ _ rfl rfl⟩

theorem Encoding.ststate : Encoding.Statement .ststate :=
  ⟨by simp [opcodeTable, Instr.row], by rw [encode, take_encodeWord_nil]; exact fits_fixed _ _ rfl rfl⟩

theorem Encoding.permute : Encoding.Statement .permute :=
  ⟨by simp [opcodeTable, Instr.row], by rw [encode, take_encodeWord_nil]; exact fits_fixed _ _ rfl rfl⟩

theorem Encoding.round (r : Byte) : Encoding.Statement (.round r) :=
  ⟨by simp [opcodeTable, Instr.row], by rw [encode, take_encodeWord_nil]; exact fits_fieldA _ _ _ rfl rfl⟩

theorem Encoding.theta : Encoding.Statement .theta :=
  ⟨by simp [opcodeTable, Instr.row], by rw [encode, take_encodeWord_nil]; exact fits_fixed _ _ rfl rfl⟩

theorem Encoding.rhopi : Encoding.Statement .rhopi :=
  ⟨by simp [opcodeTable, Instr.row], by rw [encode, take_encodeWord_nil]; exact fits_fixed _ _ rfl rfl⟩

theorem Encoding.chi : Encoding.Statement .chi :=
  ⟨by simp [opcodeTable, Instr.row], by rw [encode, take_encodeWord_nil]; exact fits_fixed _ _ rfl rfl⟩

theorem Encoding.iota (r : Byte) : Encoding.Statement (.iota r) :=
  ⟨by simp [opcodeTable, Instr.row], by rw [encode, take_encodeWord_nil]; exact fits_fieldA _ _ _ rfl rfl⟩

theorem Encoding.absorb (rate : Byte) (dom : Byte) (input : Bytes) : Encoding.Statement (.absorb rate dom input) :=
  ⟨by simp [opcodeTable, Instr.row], by rw [encode, take_encodeWord]; exact fits_fieldAB _ _ _ _ rfl rfl⟩

theorem Encoding.squeeze (rate : Byte) (nBlocks : Word32) : Encoding.Statement (.squeeze rate nBlocks) :=
  ⟨by simp [opcodeTable, Instr.row], by rw [encode, take_encodeWord]; exact fits_fieldA _ _ _ rfl rfl⟩

theorem Encoding.blockupdate (rate : Byte) (blocks : Bytes) : Encoding.Statement (.blockupdate rate blocks) :=
  ⟨by simp [opcodeTable, Instr.row], by rw [encode, take_encodeWord]; exact fits_fieldA _ _ _ rfl rfl⟩

theorem Encoding.sha3Compute (w : Byte) (message : Bytes) : Encoding.Statement (.sha3Compute w message) :=
  ⟨by simp [opcodeTable, Instr.row], by rw [encode, take_encodeWord]; exact fits_fieldA _ _ _ rfl rfl⟩

theorem Encoding.sha3Final (w : Byte) (tail : Bytes) : Encoding.Statement (.sha3Final w tail) :=
  ⟨by simp [opcodeTable, Instr.row], by rw [encode, take_encodeWord]; exact fits_fieldA _ _ _ rfl rfl⟩

theorem Encoding.shakeInit (w : Byte) (key : Bytes) : Encoding.Statement (.shakeInit w key) :=
  ⟨by simp [opcodeTable, Instr.row], by rw [encode, take_encodeWord]; exact fits_fieldA _ _ _ rfl rfl⟩

theorem Encoding.shakeSqueeze (w : Byte) (nBlocks : Word32) : Encoding.Statement (.shakeSqueeze w nBlocks) :=
  ⟨by simp [opcodeTable, Instr.row], by rw [encode, take_encodeWord]; exact fits_fieldA _ _ _ rfl rfl⟩

theorem Encoding.shakeCompute (w : Byte) (outLen : Word32) (key : Bytes) : Encoding.Statement (.shakeCompute w outLen key) :=
  ⟨by simp [opcodeTable, Instr.row], by rw [encode, take_encodeWord]; exact fits_fieldA _ _ _ rfl rfl⟩

theorem Encoding.cshakeInit (w : Byte) (key : Bytes) (name : Bytes) (custom : Bytes) : Encoding.Statement (.cshakeInit w key name custom) :=
  ⟨by simp [opcodeTable, Instr.row], by rw [encode, take_encodeWord]; exact fits_fieldA _ _ _ rfl rfl⟩

theorem Encoding.cshakeCompute (w : Byte) (outLen : Word32) (key : Bytes) (name : Bytes) (custom : Bytes) : Encoding.Statement (.cshakeCompute w outLen key name custom) :=
  ⟨by simp [opcodeTable, Instr.row], by rw [encode, take_encodeWord]; exact fits_fieldA _ _ _ rfl rfl⟩

theorem Encoding.kmacInit (w : Byte) (key : Bytes) (custom : Bytes) : Encoding.Statement (.kmacInit w key custom) :=
  ⟨by simp [opcodeTable, Instr.row], by rw [encode, take_encodeWord]; exact fits_fieldA _ _ _ rfl rfl⟩

theorem Encoding.kmacFinal (w : Byte) (outLen : Word32) (tail : Bytes) : Encoding.Statement (.kmacFinal w outLen tail) :=
  ⟨by simp [opcodeTable, Instr.row], by rw [encode, take_encodeWord]; exact fits_fieldA _ _ _ rfl rfl⟩

theorem Encoding.kmacCompute (w : Byte) (outLen : Word32) (message : Bytes) (key : Bytes) (custom : Bytes) : Encoding.Statement (.kmacCompute w outLen message key custom) :=
  ⟨by simp [opcodeTable, Instr.row], by rw [encode, take_encodeWord]; exact fits_fieldA _ _ _ rfl rfl⟩

theorem Encoding.lenc (v : Lane) : Encoding.Statement (.lenc v) :=
  ⟨by simp [opcodeTable, Instr.row], by rw [encode, take_encodeWord]; exact fits_fixed _ _ rfl rfl⟩

theorem Encoding.renc (v : Lane) : Encoding.Statement (.renc v) :=
  ⟨by simp [opcodeTable, Instr.row], by rw [encode, take_encodeWord]; exact fits_fixed _ _ rfl rfl⟩

theorem Encoding.fftLd (coefficients : Bytes) : Encoding.Statement (.fftLd coefficients) :=
  ⟨by simp [opcodeTable, Instr.row], by rw [encode, take_encodeWord]; exact fits_fixed _ _ rfl rfl⟩

theorem Encoding.fftRadix : Encoding.Statement .fftRadix :=
  ⟨by simp [opcodeTable, Instr.row], by rw [encode, take_encodeWord_nil]; exact fits_fixed _ _ rfl rfl⟩

theorem Encoding.fftBfly : Encoding.Statement .fftBfly :=
  ⟨by simp [opcodeTable, Instr.row], by rw [encode, take_encodeWord_nil]; exact fits_fixed _ _ rfl rfl⟩

theorem Encoding.fft : Encoding.Statement .fft :=
  ⟨by simp [opcodeTable, Instr.row], by rw [encode, take_encodeWord_nil]; exact fits_fixed _ _ rfl rfl⟩

theorem Encoding.fftSt (j : Byte) : Encoding.Statement (.fftSt j) :=
  ⟨by simp [opcodeTable, Instr.row], by rw [encode, take_encodeWord_nil]; exact fits_fieldA _ _ _ rfl rfl⟩

theorem Encoding.fftStin : Encoding.Statement .fftStin :=
  ⟨by simp [opcodeTable, Instr.row], by rw [encode, take_encodeWord_nil]; exact fits_fixed _ _ rfl rfl⟩

end Sys2Proof.Laws
end

