-- ==== Sys2Proof/Safety.lean ====
section
/-! DEFINITION. What counts as a safe run (spec/60_exceptions.md R307): "A model should treat the faulted engine as a
final bad state that is never successful". -/

namespace Sys2Proof.Machine

/-- The engine has latched a fault (R25). -/
abbrev State.Faulted (s : State) : Prop := s.err ≠ 0

/-- No fault since reset: the premise `ERR = 0` of R307. -/
abbrev State.Healthy (s : State) : Prop := s.err = 0

/-- The register files have the shape of R27 and R28: `m` words, and 64 vectors of `m` words. -/
abbrev State.Shaped (s : State) : Prop :=
  s.fin.length = s.cfg.fftM ∧ s.fout.length = 64 ∧ ∀ v ∈ s.fout, v.length = s.cfg.fftM

/-- `ERR` holds 0 or a code of R301. -/
abbrev State.LegalErr (s : State) : Prop := s.err.toNat ≤ 5

/-- What every step keeps. -/
abbrev State.Inv (s : State) : Prop := s.cfg.Valid ∧ s.Shaped ∧ s.LegalErr

/-- What a command that executed on `s` and answered `out` leaves in `t` besides the registers it writes: status 0
(R91), one response more (R80), the pointer one further (R24), the reset input's level, parameters and host's list as
they were. -/
def State.Completed (s t : State) (out : Bytes) : Prop :=
  t.err = 0 ∧ t.inReset = s.inReset ∧ t.cfg = s.cfg ∧ t.program = s.program ∧ t.cp = s.cp + 1 ∧ t.responses = s.responses ++ [⟨0, out⟩]

/-- The FFT unit's registers are as they were. -/
def State.KeepsFft (s t : State) : Prop := t.fin = s.fin ∧ t.fout = s.fout

/-- Every register is as it was. -/
def State.KeepsRegisters (s t : State) : Prop := t.a = s.a ∧ t.fin = s.fin ∧ t.fout = s.fout

/-- `exec` on each command of a list in turn: `none` if a command stops the machine. -/
def execAll : List Instr → State → Option State
  | [], s => some s
  | i :: is, s =>
    match exec i s with
    | .next t => execAll is t
    | .fault _ => none
    | .refused _ => none

end Sys2Proof.Machine
end

