-- ==== Sys2Proof/Certificates/Slice0/Obligations.lean ====
section
/-! DEFINITION. The statements for the provers, in the order of the spec's files. "Completes" statements conclude that
`exec` answers a next state under hypotheses on the state and the operands alone. -/

open Sys2Proof Sys2Proof.Machine

/-! ### Notation and state (00_scope.md, 10_state.md) -/

/-- R13: `rotl64`, its two cases and where every bit goes. -/
def Obligations.RotateLeftMovesEveryBit : Prop :=
  ∀ v : Lane, rotl64 v 0 = v ∧
    ∀ n, n ≤ 63 → (0 < n → rotl64 v n = (v <<< n) ||| (v >>> (64 - n))) ∧
      ∀ i, i < 64 → (rotl64 v n).getLsbD ((i + n) % 64) = v.getLsbD i

/-- R22: byte `k` of the byte view is byte `k mod 8` of lane `k div 8`, and bytes `8i .. 8i+7` are `store64(A[i])`. -/
def Obligations.ByteViewIsTheLanesLittleEndian : Prop :=
  ∀ (a : Keccak), (∀ k, k < 200 → a.byteView k = ((a.lane (k / 8)) >>> (8 * (k % 8))).setWidth 8) ∧
    ∀ i, i < 25 → (List.range 8).map (fun j => a.byteView (8 * i + j)) = store64 (a.lane i)

/-- R33: the values after reset, and the wait for the first command: whatever list the host brings, a step of the engine
just reset changes nothing while the list has no input at the pointer. That an engine which waits takes a step that
answers the same state is the model's form of waiting (log entry 6, DEDUCED from R323 and R24). -/
def Obligations.ResetLeavesEveryRegisterZero : Prop :=
  (∀ i, i < 25 → State.reset.a.lane i = 0) ∧ State.reset.err = 0 ∧
  State.reset.fin = List.replicate State.reset.cfg.fftM 0 ∧
  State.reset.fout = List.replicate 64 (List.replicate State.reset.cfg.fftM 0) ∧
  ∀ p : List Input, fetch { State.reset with program := p } = none →
    step { State.reset with program := p } = .next { State.reset with program := p }

/-- R29, R23: no command of the FFT unit, no encoder and not STSTATE changes `A`; no command but FFT_LD, FFT_RADIX and FFT
changes `FIN`, and no command but FFT_BFLY and FFT changes `FOUT`. -/
def Obligations.UnitsShareNoRegister : Prop :=
  ∀ (i : Instr) (s t : State), exec i s = .next t →
    (i.row.mnemonic ∈ ["STSTATE", "LENC", "RENC", "FFT_LD", "FFT_RADIX", "FFT_BFLY", "FFT", "FFT_ST", "FFT_STIN"] →
      t.a = s.a) ∧
    (i.row.mnemonic ∉ ["FFT_LD", "FFT_RADIX", "FFT"] → t.fin = s.fin) ∧
    (i.row.mnemonic ∉ ["FFT_BFLY", "FFT"] → t.fout = s.fout)

/-- R32, R29: what a command does to the sponge unit and answers does not depend on the FFT files when it is no FFT
command, and what an FFT command does does not depend on `A`. -/
def Obligations.UnitsLearnNothingOfEachOther : Prop :=
  ∀ (i : Instr) (s : State) (a : Keccak) (fin : FftVector) (fout : List FftVector) (t : State),
    exec i s = .next t →
    (i.row.op.toNat < 0x50 → ∃ u, exec i ((s.setFin fin).setFout fout) = .next u ∧
      u.a = t.a ∧ u.err = t.err ∧ u.responses = t.responses) ∧
    (0x50 ≤ i.row.op.toNat → ∃ u, exec i (s.setA a) = .next u ∧
      u.fin = t.fin ∧ u.fout = t.fout ∧ u.err = t.err ∧ u.responses = t.responses)

/-! ### Packets and decoding (30_encoding.md) -/

/-- R81, R82, R90: every command whose payload lengths fit their prefixes is read back from its packet, with every
operand at every value. -/
def Obligations.DecodeReadsBackEveryEncoding : Prop :=
  ∀ i : Instr, i.lengthsFit = true → decode (encode i) = .ok i

/-- R81, R88: a packet that decodes is exactly the packet of the command read: no other bytes mean that command. -/
def Obligations.DecodedPacketIsItsEncoding : Prop :=
  ∀ (packet : Bytes) (i : Instr), decode packet = .ok i → encode i = packet ∧ i.lengthsFit = true

/-- R81: a packet that continues past the last item its format lists, or stops before it, is no command. -/
def Obligations.ShorterOrLongerPacketIsMalformed : Prop :=
  ∀ (packet extra : Bytes) (i : Instr), extra ≠ [] →
    (decode packet = .ok i → ∃ e, decode (packet ++ extra) = .error e) ∧
    (decode (packet ++ extra) = .ok i → ∃ e, decode packet = .error e)

/-- R83: among the packets that decode, a word belongs to an opcode row iff `word & mask = match`. -/
def Obligations.WordBelongsToRowIffMaskMatches : Prop :=
  ∀ (packet : Bytes) (i : Instr) (row : OpcodeRow), row ∈ opcodeTable → decode packet = .ok i →
    (load32 (packet.take 4) &&& row.format.mask = row.matchWord ↔ i.row = row)

/-- R88: an unlisted `OP`, `Z != 0`, and a word whose unused `A` or `B` is not 0 (it fits no row) are never a command. -/
def Obligations.ReservedEncodingIsNeverACommand : Prop :=
  ∀ (word : Word32) (rest : Bytes),
    ((∀ row ∈ opcodeTable, fieldOp word ≠ row.op) ∨ fieldZ word ≠ 0 ∨
      (∀ row ∈ opcodeTable, word &&& row.format.mask ≠ row.matchWord)) →
    ∃ e, decode (store32 word.toNat ++ rest) = .error e

/-- R97: the worked encodings. -/
def Obligations.WorkedEncodings : Prop :=
  encode .permute = [0x00, 0x00, 0x00, 0x10] ∧ decode [0x00, 0x00, 0x00, 0x10] = .ok .permute ∧
  encode (.round 23) = [0x00, 0x00, 0x17, 0x11] ∧ decode [0x00, 0x00, 0x17, 0x11] = .ok (.round 23) ∧
  encode (.absorb 136 0x06 []) = [0x00, 0x06, 0x88, 0x20, 0x00, 0x00, 0x00, 0x00] ∧
  decode [0x00, 0x06, 0x88, 0x20, 0x00, 0x00, 0x00, 0x00] = .ok (.absorb 136 0x06 []) ∧
  encode (.squeeze 136 1) = [0x00, 0x00, 0x88, 0x21, 0x01, 0x00, 0x00, 0x00] ∧
  decode [0x00, 0x00, 0x88, 0x21, 0x01, 0x00, 0x00, 0x00] = .ok (.squeeze 136 1) ∧
  encode (.sha3Compute 1 [0x61, 0x62, 0x63]) =
    [0x00, 0x00, 0x01, 0x30, 0x03, 0x00, 0x00, 0x00, 0x61, 0x62, 0x63] ∧
  decode [0x00, 0x00, 0x01, 0x30, 0x03, 0x00, 0x00, 0x00, 0x61, 0x62, 0x63] =
    .ok (.sha3Compute 1 [0x61, 0x62, 0x63]) ∧
  encode (.lenc 136) = [0x00, 0x00, 0x00, 0x40, 0x88, 0x00, 0x00, 0x00, 0x00, 0x00, 0x00, 0x00] ∧
  decode [0x00, 0x00, 0x00, 0x40, 0x88, 0x00, 0x00, 0x00, 0x00, 0x00, 0x00, 0x00] = .ok (.lenc 136) ∧
  commandWord 0x10 0 0 = 0x10000000 ∧ commandWord 0x11 23 0 = 0x11170000 ∧ commandWord 0x20 136 6 = 0x20880600 ∧
  commandWord 0x21 136 0 = 0x21880000 ∧ commandWord 0x30 1 0 = 0x30010000 ∧ commandWord 0x40 0 0 = 0x40000000 ∧
  Response.packet ⟨0, []⟩ = [0x00, 0x00, 0x00, 0x00, 0x00, 0x00, 0x00, 0x00] ∧
  Response.packet ⟨0, leftEncode 136⟩ = [0x00, 0x00, 0x00, 0x00, 0x02, 0x00, 0x00, 0x00, 0x01, 0x88]

/-- R60, R87: out of reset, when the host's next packet decodes to `i`, a step is `exec i`; when it is no command, a
healthy engine raises `IllegalCommand`; with no input the engine is idle (R323; that an idle engine takes a step which
changes nothing is the model's form of it, log entry 6). What a step does while the reset input is asserted, and when
it is asserted or released, is `Obligations.ResetInputRestoresEveryRegister`. -/
def Obligations.StepRunsTheDecodedCommand : Prop :=
  ∀ s : State,
    (∀ packet i, s.inReset = false → fetch s = some (.packet packet) → decode packet = .ok i → step s = exec i s) ∧
    (∀ packet e, s.inReset = false → fetch s = some (.packet packet) → decode packet = .error e → s.err = 0 →
      step s = .next (raise .illegalCommand s)) ∧
    (fetch s = none → step s = .next s)

/-- R91: every packet the engine accepts (it accepts none while the reset input is asserted, R340) gets exactly one
response, whose status word carries `ERR` as it stands after the command, and moves the command pointer on; a response
with a fault code has no output (R84). -/
def Obligations.EveryPacketGetsOneResponse : Prop :=
  ∀ (s : State) (packet : Bytes), s.inReset = false → fetch s = some (.packet packet) →
    ∃ t out, step s = .next t ∧ t.responses = s.responses ++ [⟨t.err.setWidth 32, out⟩] ∧ t.cp = s.cp + 1 ∧
      (t.err ≠ 0 → out = [])

/-! ### State load and store (40_util_state.md) -/

/-- R120. -/
def Obligations.ZeroClearsTheState : Prop :=
  encode .zero = store32 0x01000000 ∧
  ∀ s : State, s.err = 0 → ∃ t, exec .zero s = .next t ∧ s.Completed t [] ∧ s.KeepsFft t ∧
    ∀ i, i < 25 → t.a.lane i = 0

/-- R121. -/
def Obligations.LdstateLoadsEveryLane : Prop :=
  ∀ p : Bytes, encode (.ldstate p) = store32 0x02000000 ++ (store32 p.length ++ p) ∧
  ∀ s : State, s.err = 0 →
    (p.length = 200 → ∃ t, exec (.ldstate p) s = .next t ∧ s.Completed t [] ∧ s.KeepsFft t ∧
      ∀ i, i < 25 → t.a.lane i = load64 (slice p (8 * i) (8 * i + 8))) ∧
    (p.length ≠ 200 → exec (.ldstate p) s = .next (raise .badLength s))

/-- R122: the output is the byte view, and `STSTATE` then `LDSTATE` of its output is the identity on `A`. -/
def Obligations.StstateEmitsTheByteView : Prop :=
  encode .ststate = store32 0x03000000 ∧
  ∀ s : State, s.err = 0 → ∃ t out, exec .ststate s = .next t ∧ s.Completed t out ∧ s.KeepsRegisters t ∧
    out = (List.range 25).flatMap (fun i => store64 (s.a.lane i)) ∧ out.length = 200 ∧
    (∀ k, k < 200 → byteAt out k = s.a.byteView k) ∧
    ∃ u, exec (.ldstate out) t = .next u ∧ u.err = 0 ∧ u.a = s.a

/-- R123, R124: `XorBlock` and `Extract`, each in lanes and in bytes. -/
def Obligations.XorBlockAndExtractTouchOnlyTheRate : Prop :=
  ∀ (a : Keccak) (r : Nat), rateValid r = true →
    (extract a r = (List.range (r / 8)).flatMap (fun i => store64 (a.lane i)) ∧ (extract a r).length = r ∧
      ∀ k, k < r → byteAt (extract a r) k = a.byteView k) ∧
    ∀ s : Bytes, s.length = r →
    (∀ i, i < 25 → (xorBlock a s r).lane i =
      if i < r / 8 then a.lane i ^^^ load64 (slice s (8 * i) (8 * i + 8)) else a.lane i) ∧
    (∀ k, k < 200 → (xorBlock a s r).byteView k = if k < r then a.byteView k ^^^ byteAt s k else a.byteView k)

/-! ### The permutation unit (41_permutation.md) -/

/-- R140. -/
def Obligations.ThetaMixesColumnParities : Prop :=
  encode .theta = store32 0x12000000 ∧
  ∀ s : State, s.err = 0 → ∃ t, exec .theta s = .next t ∧ s.Completed t [] ∧ s.KeepsFft t ∧
    ∀ C D : Nat → Lane,
      (∀ x, C x = s.a.laneXY x 0 ^^^ s.a.laneXY x 1 ^^^ s.a.laneXY x 2 ^^^ s.a.laneXY x 3 ^^^ s.a.laneXY x 4) →
      (∀ x, D x = C ((x + 4) % 5) ^^^ rotl64 (C ((x + 1) % 5)) 1) →
      ∀ x y, x < 5 → y < 5 → t.a.laneXY x y = s.a.laneXY x y ^^^ D x

/-- R141, R142, R146: the rotation table and its generating rule; the relocation table, its formula and its single
24-cycle; the 24 round constants, `r` beside `r + 12` as R146 sets them out, and the linear feedback register that
generates them. -/
def Obligations.PermutationTablesFollowTheirRules : Prop :=
  (rhoTable = [0, 1, 62, 28, 27, 36, 44, 6, 55, 20, 3, 10, 43, 25, 39, 41, 45, 15, 21, 8, 18, 2, 61, 56, 14] ∧
  ∀ walk : Nat → Nat × Nat, walk 0 = (1, 0) →
    (∀ t, walk (t + 1) = ((walk t).2, (2 * (walk t).1 + 3 * (walk t).2) % 5)) →
    ∀ t, t < 24 → rhoTable.getD ((walk t).1 + 5 * (walk t).2) 0 = ((t + 1) * (t + 2) / 2) % 64) ∧
  (piDst = [0, 10, 20, 5, 15, 16, 1, 11, 21, 6, 7, 17, 2, 12, 22, 23, 8, 18, 3, 13, 14, 24, 9, 19, 4] ∧
    (∀ x y, x < 5 → y < 5 → piDst.getD (x + 5 * y) 0 = y + 5 * ((2 * x + 3 * y) % 5)) ∧
    piDst.Perm (List.range 25) ∧ piDst.getD 0 99 = 0 ∧
    ∀ c : Nat → Nat, c 0 = 1 → (∀ k, c (k + 1) = piDst.getD (c k) 0) →
      (List.range 25).map c =
        [1, 10, 7, 11, 17, 18, 3, 5, 16, 8, 21, 24, 4, 15, 23, 19, 13, 12, 2, 20, 14, 22, 9, 6, 1]) ∧
  (∀ row ∈
      ([(0, 0x0000000000000001, 0x000000008000808B), (1, 0x0000000000008082, 0x800000000000008B),
       (2, 0x800000000000808A, 0x8000000000008089), (3, 0x8000000080008000, 0x8000000000008003),
       (4, 0x000000000000808B, 0x8000000000008002), (5, 0x0000000080000001, 0x8000000000000080),
       (6, 0x8000000080008081, 0x000000000000800A), (7, 0x8000000000008009, 0x800000008000000A),
       (8, 0x000000000000008A, 0x8000000080008081), (9, 0x0000000000000088, 0x8000000000008080),
       (10, 0x0000000080008009, 0x0000000080000001), (11, 0x000000008000000A, 0x8000000080008008)] :
        List (Nat × Lane × Lane)),
    rc row.1 = row.2.1 ∧ rc (row.1 + 12) = row.2.2) ∧
  ∀ reg : Nat → Nat, reg 0 = 1 →
    (∀ n, reg (n + 1) = if (reg n * 2).testBit 8 then (reg n * 2) ^^^ 0x171 else reg n * 2) →
    rcTable.length = 24 ∧
    ∀ r, r < 24 → ∀ b, b < 64 → (rc r).getLsbD b =
      (List.range 7).any fun j => b == 2 ^ j - 1 && (reg (7 * r + j)).testBit 0

/-- R143. -/
def Obligations.RhopiRotatesAndRelocates : Prop :=
  encode .rhopi = store32 0x13000000 ∧
  ∀ s : State, s.err = 0 → ∃ t, exec .rhopi s = .next t ∧ s.Completed t [] ∧ s.KeepsFft t ∧
    (∀ i, i < 25 → t.a.lane (piDst.getD i 0) = rotl64 (s.a.lane i) (rhoTable.getD i 0)) ∧
    ∀ x y, x < 5 → y < 5 → t.a.laneXY y (2 * x + 3 * y) = rotl64 (s.a.laneXY x y) (rhoTable.getD (x + 5 * y) 0)

/-- R144. -/
def Obligations.ChiMixesEachRow : Prop :=
  encode .chi = store32 0x14000000 ∧
  ∀ s : State, s.err = 0 → ∃ t, exec .chi s = .next t ∧ s.Completed t [] ∧ s.KeepsFft t ∧
    ∀ x y, x < 5 → y < 5 →
      t.a.laneXY x y = s.a.laneXY x y ^^^ (~~~ s.a.laneXY (x + 1) y &&& s.a.laneXY (x + 2) y)

/-- R145: the effect, the fault, that `IOTA r` twice is the identity, and that of the four steps IOTA alone moves the
all-zero state. -/
def Obligations.IotaChangesLaneZeroOnly : Prop :=
  (theta Keccak.zero = Keccak.zero ∧ rhoPi Keccak.zero = Keccak.zero ∧ chi Keccak.zero = Keccak.zero ∧
    ∀ r, r ≤ 23 → iota Keccak.zero r ≠ Keccak.zero) ∧
  ∀ r : Byte, encode (.iota r) = store32 (0x15000000 + r.toNat * 2 ^ 16) ∧
  ∀ s : State, s.err = 0 →
    (r.toNat ≤ 23 →
      (∃ t, exec (.iota r) s = .next t ∧ s.Completed t [] ∧ s.KeepsFft t ∧
        t.a.lane 0 = s.a.lane 0 ^^^ rc r.toNat ∧ ∀ i, 1 ≤ i → i < 25 → t.a.lane i = s.a.lane i) ∧
      ∃ u, execAll [.iota r, .iota r] s = some u ∧ u.a = s.a) ∧
    (23 < r.toNat → exec (.iota r) s = .next (raise .illegalCommand s))

/-- R149: one round is the command sequence THETA, RHOPI, CHI, IOTA r. -/
def Obligations.RoundIsItsFourSteps : Prop :=
  ∀ r : Byte, encode (.round r) = store32 (0x11000000 + r.toNat * 2 ^ 16) ∧
  ∀ s : State, s.err = 0 →
    (r.toNat ≤ 23 → ∃ t u, exec (.round r) s = .next t ∧ s.Completed t [] ∧ s.KeepsFft t ∧
      execAll [.theta, .rhopi, .chi, .iota r] s = some u ∧ t.a = u.a) ∧
    (23 < r.toNat → exec (.round r) s = .next (raise .illegalCommand s))

/-- R151: PERMUTE is the command sequence ROUND 0 to ROUND 23, and the all-zero state is not a fixed point. -/
def Obligations.PermuteIsTwentyFourRounds : Prop :=
  encode .permute = store32 0x10000000 ∧ permute Keccak.zero ≠ Keccak.zero ∧
  ∀ s : State, s.err = 0 → ∃ t u, exec .permute s = .next t ∧ s.Completed t [] ∧ s.KeepsFft t ∧
    t.a = permute s.a ∧
    execAll ((List.range 24).map fun r => .round (BitVec.ofNat 8 r)) s = some u ∧ t.a = u.a

/-- R152: both permutation strategies compute `Permute` on every state. -/
def Obligations.PermutationStrategiesAgree : Prop :=
  ∀ (strategy : PermImpl) (a : Keccak), permuteWith strategy a = permute a

/-- R154 (a): `Theta` and `RhoPi` are injective on states (so bijections of a finite set), and so is `Iota r`. -/
def Obligations.LinearStepsAreBijections : Prop :=
  Function.Bijective theta ∧ Function.Bijective rhoPi ∧ ∀ r, r ≤ 23 → Function.Bijective fun a => iota a r

/-! ### The sponge primitives (42_sponge.md) -/

/-- R170: every byte of the padded block. -/
def Obligations.PadWritesDomainByteThenTopBit : Prop :=
  ∀ (t : Bytes) (dom : Byte) (rate : Nat), rateValid rate = true → t.length < rate →
    (pad t dom rate).length = rate ∧
    (∀ k, k < t.length → byteAt (pad t dom rate) k = byteAt t k) ∧
    (t.length + 1 < rate → byteAt (pad t dom rate) t.length = dom ∧
      (∀ k, t.length < k → k + 1 < rate → byteAt (pad t dom rate) k = 0) ∧
      byteAt (pad t dom rate) (rate - 1) = 0x80) ∧
    (t.length + 1 = rate → byteAt (pad t dom rate) (rate - 1) = dom ||| 0x80)

/-- R171: no block leaves the state, and each block in turn is XORed in and followed by one permutation. -/
def Obligations.AbsorbBlocksTakesBlocksInOrder : Prop :=
  ∀ (a : Keccak) (rate : Nat), rateValid rate = true → absorbBlocks a [] rate = a ∧
    ∀ (s block : Bytes), s.length % rate = 0 → block.length = rate →
      absorbBlocks a (block ++ s) rate = absorbBlocks (permute (xorBlock a block rate)) s rate ∧
      absorbBlocks a (s ++ block) rate = permute (xorBlock (absorbBlocks a s rate) block rate)

/-- R172. -/
def Obligations.AbsorbPadsWithoutPermuting : Prop :=
  ∀ (rate dom : Byte) (input : Bytes),
  encode (.absorb rate dom input) =
    store32 (0x20000000 + rate.toNat * 2 ^ 16 + dom.toNat * 2 ^ 8) ++ (store32 input.length ++ input) ∧
  ∀ s : State, s.err = 0 →
    (0 < rate.toNat ∧ rate.toNat % 8 = 0 ∧ rate.toNat ≤ 200 → input.length ≤ s.cfg.ibufBytes →
      ∃ t, exec (.absorb rate dom input) s = .next t ∧ s.Completed t [] ∧ s.KeepsFft t ∧
        ∀ whole rest, input = whole ++ rest → whole.length % rate.toNat = 0 → rest.length < rate.toNat →
          t.a = xorBlock (absorbBlocks s.a whole rate.toNat) (pad rest dom rate.toNat) rate.toNat) ∧
    (¬ (0 < rate.toNat ∧ rate.toNat % 8 = 0 ∧ rate.toNat ≤ 200) →
      exec (.absorb rate dom input) s = .next (raise .invalidRate s)) ∧
    (0 < rate.toNat ∧ rate.toNat % 8 = 0 ∧ rate.toNat ≤ 200 → s.cfg.ibufBytes < input.length →
      exec (.absorb rate dom input) s = .next (raise .bufferTooSmall s))

/-- R173: the output and the state, the faults, and that two squeezes emit what one of both counts does. -/
def Obligations.SqueezePermutesBeforeEveryBlock : Prop :=
  (∀ (a : Keccak) (rate : Nat), squeeze a 0 rate = (a, []) ∧
    (∀ n, squeeze a (n + 1) rate =
      (permute (squeeze a n rate).1, (squeeze a n rate).2 ++ extract (permute (squeeze a n rate).1) rate)) ∧
    ∀ m n, squeeze a (m + n) rate =
      ((squeeze (squeeze a m rate).1 n rate).1, (squeeze a m rate).2 ++ (squeeze (squeeze a m rate).1 n rate).2)) ∧
  ∀ (rate : Byte) (n : Word32),
  encode (.squeeze rate n) = store32 (0x21000000 + rate.toNat * 2 ^ 16) ++ store32 n.toNat ∧
  ∀ s : State, s.err = 0 →
    (0 < rate.toNat ∧ rate.toNat % 8 = 0 ∧ rate.toNat ≤ 200 → n.toNat * rate.toNat ≤ s.cfg.obufBytes →
      ∃ t out, exec (.squeeze rate n) s = .next t ∧ s.Completed t out ∧ s.KeepsFft t ∧
        (t.a, out) = squeeze s.a n.toNat rate.toNat ∧ out.length = n.toNat * rate.toNat) ∧
    (¬ (0 < rate.toNat ∧ rate.toNat % 8 = 0 ∧ rate.toNat ≤ 200) →
      exec (.squeeze rate n) s = .next (raise .invalidRate s)) ∧
    (0 < rate.toNat ∧ rate.toNat % 8 = 0 ∧ rate.toNat ≤ 200 → s.cfg.obufBytes < n.toNat * rate.toNat →
      exec (.squeeze rate n) s = .next (raise .bufferTooSmall s))

/-- R174. -/
def Obligations.BlockupdateAbsorbsWholeBlocks : Prop :=
  ∀ (rate : Byte) (blocks : Bytes),
  encode (.blockupdate rate blocks) =
    store32 (0x22000000 + rate.toNat * 2 ^ 16) ++ (store32 blocks.length ++ blocks) ∧
  ∀ s : State, s.err = 0 →
    (0 < rate.toNat ∧ rate.toNat % 8 = 0 ∧ rate.toNat ≤ 200 → blocks.length % rate.toNat = 0 →
      blocks.length ≤ s.cfg.ibufBytes →
      ∃ t, exec (.blockupdate rate blocks) s = .next t ∧ s.Completed t [] ∧ s.KeepsFft t ∧
        t.a = absorbBlocks s.a blocks rate.toNat) ∧
    (¬ (0 < rate.toNat ∧ rate.toNat % 8 = 0 ∧ rate.toNat ≤ 200) →
      exec (.blockupdate rate blocks) s = .next (raise .invalidRate s)) ∧
    (0 < rate.toNat ∧ rate.toNat % 8 = 0 ∧ rate.toNat ≤ 200 → blocks.length % rate.toNat ≠ 0 →
      exec (.blockupdate rate blocks) s = .next (raise .badLength s)) ∧
    (0 < rate.toNat ∧ rate.toNat % 8 = 0 ∧ rate.toNat ≤ 200 → blocks.length % rate.toNat = 0 →
      s.cfg.ibufBytes < blocks.length →
      exec (.blockupdate rate blocks) s = .next (raise .bufferTooSmall s))

/-- R177: streaming equals one-shot, for every state, rate, domain byte and cut at block boundaries. -/
def Obligations.StreamingEqualsOneShot : Prop :=
  ∀ (a : Keccak) (rate : Nat) (dom : Byte) (s1 s2 : Bytes), rateValid rate = true → s1.length % rate = 0 →
    absorb (absorbBlocks a s1 rate) rate s2 dom = absorb a rate (s1 ++ s2) dom ∧
    (s2.length % rate = 0 → absorbBlocks (absorbBlocks a s1 rate) s2 rate = absorbBlocks a (s1 ++ s2) rate)

/-! ### The construction layer (43_constructions.md) -/

/-- R192. -/
def Obligations.Sha3ComputeHashesFromTheZeroState : Prop :=
  ∀ (w : Byte) (message : Bytes),
  encode (.sha3Compute w message) =
    store32 (0x30000000 + w.toNat * 2 ^ 16) ++ (store32 message.length ++ message) ∧
  ∀ s : State, s.err = 0 →
    (∀ rate h, (w, rate, h) ∈ [((1 : Byte), 136, 32), (2, 72, 64)] → message.length ≤ s.cfg.ibufBytes →
      ∃ t out, exec (.sha3Compute w message) s = .next t ∧ s.Completed t out ∧ s.KeepsFft t ∧
        t.a = (squeeze (absorb Keccak.zero rate message 0x06) 1 rate).1 ∧
        out = (squeeze (absorb Keccak.zero rate message 0x06) 1 rate).2.take h ∧ out.length = h) ∧
    (w = 0 ∨ 2 < w.toNat → exec (.sha3Compute w message) s = .next (raise .illegalCommand s)) ∧
    (w = 1 ∨ w = 2 → s.cfg.ibufBytes < message.length →
      exec (.sha3Compute w message) s = .next (raise .bufferTooSmall s))

/-- R193: as SHA3_COMPUTE from the state as it is, and a message streamed in whole blocks and finished with any tail
gives the digest and the state of the one-shot command. -/
def Obligations.Sha3FinalFinishesAStream : Prop :=
  ∀ (w : Byte) (tail : Bytes),
  encode (.sha3Final w tail) = store32 (0x31000000 + w.toNat * 2 ^ 16) ++ (store32 tail.length ++ tail) ∧
  ∀ s : State, s.err = 0 →
    (∀ rate h, (w, rate, h) ∈ [((1 : Byte), 136, 32), (2, 72, 64)] → tail.length ≤ s.cfg.ibufBytes →
      (∃ t out, exec (.sha3Final w tail) s = .next t ∧ s.Completed t out ∧ s.KeepsFft t ∧
        t.a = (squeeze (absorb s.a rate tail 0x06) 1 rate).1 ∧
        out = (squeeze (absorb s.a rate tail 0x06) 1 rate).2.take h ∧ out.length = h) ∧
      ∀ chunks : List Bytes, (∀ c ∈ chunks, c.length % rate = 0) →
        (chunks.flatten ++ tail).length ≤ s.cfg.ibufBytes →
        ∃ t u out before, exec (.sha3Compute w (chunks.flatten ++ tail)) s = .next t ∧
          t.responses = s.responses ++ [⟨0, out⟩] ∧
          execAll (.zero :: chunks.map (.blockupdate (BitVec.ofNat 8 rate)) ++ [.sha3Final w tail]) s = some u ∧
          u.a = t.a ∧ u.responses = before ++ [⟨0, out⟩]) ∧
    (w = 0 ∨ 2 < w.toNat → exec (.sha3Final w tail) s = .next (raise .illegalCommand s)) ∧
    (w = 1 ∨ w = 2 → s.cfg.ibufBytes < tail.length →
      exec (.sha3Final w tail) s = .next (raise .bufferTooSmall s))

/-- R195. -/
def Obligations.ShakeInitAbsorbsTheKey : Prop :=
  ∀ (w : Byte) (key : Bytes),
  encode (.shakeInit w key) = store32 (0x34000000 + w.toNat * 2 ^ 16) ++ (store32 key.length ++ key) ∧
  ∀ s : State, s.err = 0 →
    (∀ rate, (w, rate) ∈ [((0 : Byte), 168), (1, 136), (2, 72)] → key.length ≤ s.cfg.ibufBytes →
      ∃ t, exec (.shakeInit w key) s = .next t ∧ s.Completed t [] ∧ s.KeepsFft t ∧
        t.a = absorb Keccak.zero rate key 0x1F) ∧
    (2 < w.toNat → exec (.shakeInit w key) s = .next (raise .illegalCommand s)) ∧
    (w.toNat ≤ 2 → s.cfg.ibufBytes < key.length → exec (.shakeInit w key) s = .next (raise .bufferTooSmall s))

/-- R196: the effect, the faults, and that it is SQUEEZE of the same rate. -/
def Obligations.ShakeSqueezeIsSqueezeAtTheTableRate : Prop :=
  ∀ (w : Byte) (n : Word32),
  encode (.shakeSqueeze w n) = store32 (0x35000000 + w.toNat * 2 ^ 16) ++ store32 n.toNat ∧
  ∀ s : State, s.err = 0 →
    (∀ rate, (w, rate) ∈ [((0 : Byte), 168), (1, 136), (2, 72)] →
      exec (.shakeSqueeze w n) s = exec (.squeeze (BitVec.ofNat 8 rate) n) s ∧
      (n.toNat * rate ≤ s.cfg.obufBytes →
        ∃ t out, exec (.shakeSqueeze w n) s = .next t ∧ s.Completed t out ∧ s.KeepsFft t ∧
          (t.a, out) = squeeze s.a n.toNat rate) ∧
      (s.cfg.obufBytes < n.toNat * rate → exec (.shakeSqueeze w n) s = .next (raise .bufferTooSmall s))) ∧
    (2 < w.toNat → exec (.shakeSqueeze w n) s = .next (raise .illegalCommand s))

/-- R198: the output is the first `L` bytes of the squeeze stream, the state is `ceil(L / rate)` permutations on. -/
def Obligations.XofOutIsAPrefixOfTheStream : Prop :=
  ∀ (a : Keccak) (rate l : Nat), rateValid rate = true →
    (xofOut a rate l).1 = (squeeze a ((l + rate - 1) / rate) rate).1 ∧
    (xofOut a rate l).2 = (squeeze a ((l + rate - 1) / rate) rate).2.take l ∧
    (xofOut a rate l).2.length = l ∧ xofOut a rate 0 = (a, [])

/-- R197. -/
def Obligations.ShakeComputeEmitsTheRequestedLength : Prop :=
  ∀ (w : Byte) (n : Word32) (key : Bytes),
  encode (.shakeCompute w n key) =
    store32 (0x36000000 + w.toNat * 2 ^ 16) ++ (store32 n.toNat ++ (store32 key.length ++ key)) ∧
  ∀ s : State, s.err = 0 →
    (∀ rate, (w, rate) ∈ [((0 : Byte), 168), (1, 136), (2, 72)] →
      key.length ≤ s.cfg.ibufBytes → n.toNat ≤ s.cfg.obufBytes →
      ∃ t out, exec (.shakeCompute w n key) s = .next t ∧ s.Completed t out ∧ s.KeepsFft t ∧
        (t.a, out) = xofOut (absorb Keccak.zero rate key 0x1F) rate n.toNat ∧ out.length = n.toNat) ∧
    (2 < w.toNat → exec (.shakeCompute w n key) s = .next (raise .illegalCommand s)) ∧
    (w.toNat ≤ 2 → s.cfg.ibufBytes < key.length ∨ s.cfg.obufBytes < n.toNat →
      exec (.shakeCompute w n key) s = .next (raise .bufferTooSmall s))

/-- R201: both paths, the encoded prefix written out, and the faults. -/
def Obligations.CshakeInitCustomizesThenAbsorbs : Prop :=
  ∀ (w : Byte) (key name custom : Bytes),
  encode (.cshakeInit w key name custom) = store32 (0x38000000 + w.toNat * 2 ^ 16) ++
    ((store32 key.length ++ key) ++ ((store32 name.length ++ name) ++ (store32 custom.length ++ custom))) ∧
  ∀ s : State, s.err = 0 →
    (∀ rate, (w, rate) ∈ [((0 : Byte), 168), (1, 136), (2, 72)] →
      8 * name.length < 2 ^ 64 → 8 * custom.length < 2 ^ 64 →
      key.length + name.length + custom.length ≤ s.cfg.ibufBytes →
      ∃ t, exec (.cshakeInit w key name custom) s = .next t ∧ s.Completed t [] ∧ s.KeepsFft t ∧
        (name = [] ∧ custom = [] → t.a = absorb Keccak.zero rate key 0x1F) ∧
        (¬ (name = [] ∧ custom = []) → ∀ e, e = leftEncode rate ++ (leftEncode (8 * name.length) ++ name) ++
            (leftEncode (8 * custom.length) ++ custom) →
          t.a = absorb (absorbBlocks Keccak.zero (e ++ zeros ((rate - e.length % rate) % rate)) rate) rate key 0x04)) ∧
    (2 < w.toNat → exec (.cshakeInit w key name custom) s = .next (raise .illegalCommand s)) ∧
    (w.toNat ≤ 2 → 2 ^ 64 ≤ 8 * name.length ∨ 2 ^ 64 ≤ 8 * custom.length →
      exec (.cshakeInit w key name custom) s = .next (raise .encodingOverflow s)) ∧
    (w.toNat ≤ 2 → 8 * name.length < 2 ^ 64 → 8 * custom.length < 2 ^ 64 →
      s.cfg.ibufBytes < key.length + name.length + custom.length →
      exec (.cshakeInit w key name custom) s = .next (raise .bufferTooSmall s))

/-- R202: the state of CSHAKE_INIT, then the output stage. -/
def Obligations.CshakeComputeIsInitThenOutput : Prop :=
  ∀ (w : Byte) (n : Word32) (key name custom : Bytes),
  encode (.cshakeCompute w n key name custom) = store32 (0x39000000 + w.toNat * 2 ^ 16) ++ (store32 n.toNat ++
    ((store32 key.length ++ key) ++ ((store32 name.length ++ name) ++ (store32 custom.length ++ custom)))) ∧
  ∀ s : State, s.err = 0 →
    (∀ rate, (w, rate) ∈ [((0 : Byte), 168), (1, 136), (2, 72)] →
      8 * name.length < 2 ^ 64 → 8 * custom.length < 2 ^ 64 →
      key.length + name.length + custom.length ≤ s.cfg.ibufBytes → n.toNat ≤ s.cfg.obufBytes →
      ∃ t u out, exec (.cshakeCompute w n key name custom) s = .next t ∧ s.Completed t out ∧ s.KeepsFft t ∧
        exec (.cshakeInit w key name custom) s = .next u ∧ u.err = 0 ∧
        (t.a, out) = xofOut u.a rate n.toNat ∧ out.length = n.toNat) ∧
    (2 < w.toNat → exec (.cshakeCompute w n key name custom) s = .next (raise .illegalCommand s)) ∧
    (w.toNat ≤ 2 → 2 ^ 64 ≤ 8 * name.length ∨ 2 ^ 64 ≤ 8 * custom.length →
      exec (.cshakeCompute w n key name custom) s = .next (raise .encodingOverflow s)) ∧
    (w.toNat ≤ 2 → 8 * name.length < 2 ^ 64 → 8 * custom.length < 2 ^ 64 →
      s.cfg.ibufBytes < key.length + name.length + custom.length ∨ s.cfg.obufBytes < n.toNat →
      exec (.cshakeCompute w n key name custom) s = .next (raise .bufferTooSmall s))

/-- R203: cSHAKE with an empty name and customisation string is SHAKE, in every state and for every selector. -/
def Obligations.CshakeWithEmptyStringsIsShake : Prop :=
  ∀ (w : Byte) (n : Word32) (key : Bytes) (s : State),
    exec (.cshakeInit w key [] []) s = exec (.shakeInit w key) s ∧
    exec (.cshakeCompute w n key [] []) s = exec (.shakeCompute w n key) s

/-- R205: both stages, the encoded strings written out, and the faults. -/
def Obligations.KmacInitAbsorbsNameAndKey : Prop :=
  ∀ (w : Byte) (key custom : Bytes),
  encode (.kmacInit w key custom) = store32 (0x3C000000 + w.toNat * 2 ^ 16) ++
    ((store32 key.length ++ key) ++ (store32 custom.length ++ custom)) ∧
  ∀ s : State, s.err = 0 →
    (∀ rate, (w, rate) ∈ [((0 : Byte), 168), (1, 136), (2, 72)] →
      8 * key.length < 2 ^ 64 → 8 * custom.length < 2 ^ 64 → key.length + custom.length ≤ s.cfg.ibufBytes →
      ∃ t, exec (.kmacInit w key custom) s = .next t ∧ s.Completed t [] ∧ s.KeepsFft t ∧
        ∀ e1 e2, e1 = leftEncode rate ++ (leftEncode 32 ++ [0x4B, 0x4D, 0x41, 0x43]) ++
            (leftEncode (8 * custom.length) ++ custom) →
          e2 = leftEncode rate ++ (leftEncode (8 * key.length) ++ key) →
          t.a = absorbBlocks
            (absorbBlocks Keccak.zero (e1 ++ zeros ((rate - e1.length % rate) % rate)) rate)
            (e2 ++ zeros ((rate - e2.length % rate) % rate)) rate) ∧
    (2 < w.toNat → exec (.kmacInit w key custom) s = .next (raise .illegalCommand s)) ∧
    (w.toNat ≤ 2 → 2 ^ 64 ≤ 8 * key.length ∨ 2 ^ 64 ≤ 8 * custom.length →
      exec (.kmacInit w key custom) s = .next (raise .encodingOverflow s)) ∧
    (w.toNat ≤ 2 → 8 * key.length < 2 ^ 64 → 8 * custom.length < 2 ^ 64 →
      s.cfg.ibufBytes < key.length + custom.length →
      exec (.kmacInit w key custom) s = .next (raise .bufferTooSmall s))

/-- R206. -/
def Obligations.KmacFinalAppendsTheOutputLength : Prop :=
  ∀ (w : Byte) (n : Word32) (tail : Bytes),
  encode (.kmacFinal w n tail) =
    store32 (0x3D000000 + w.toNat * 2 ^ 16) ++ (store32 n.toNat ++ (store32 tail.length ++ tail)) ∧
  ∀ s : State, s.err = 0 →
    (∀ rate, (w, rate) ∈ [((0 : Byte), 168), (1, 136), (2, 72)] →
      tail.length ≤ s.cfg.ibufBytes → n.toNat ≤ s.cfg.obufBytes →
      ∃ t out q, exec (.kmacFinal w n tail) s = .next t ∧ s.Completed t out ∧ s.KeepsFft t ∧
        q = squeeze (absorb s.a rate (tail ++ rightEncode (8 * n.toNat)) 0x04) ((n.toNat + rate - 1) / rate) rate ∧
        t.a = q.1 ∧ out = q.2.take n.toNat ∧ out.length = n.toNat) ∧
    (2 < w.toNat → exec (.kmacFinal w n tail) s = .next (raise .illegalCommand s)) ∧
    (w.toNat ≤ 2 → s.cfg.ibufBytes < tail.length ∨ s.cfg.obufBytes < n.toNat →
      exec (.kmacFinal w n tail) s = .next (raise .bufferTooSmall s))

/-- R207: KMAC_COMPUTE gives the tag and the state of KMAC_INIT, any number of whole-block updates, and KMAC_FINAL on
the rest of the message, for every cut at block boundaries; and its faults. -/
def Obligations.KmacComputeEqualsStreamedKmac : Prop :=
  ∀ (w : Byte) (n : Word32) (message key custom : Bytes),
  encode (.kmacCompute w n message key custom) = store32 (0x3E000000 + w.toNat * 2 ^ 16) ++ (store32 n.toNat ++
    ((store32 message.length ++ message) ++ ((store32 key.length ++ key) ++ (store32 custom.length ++ custom)))) ∧
  ∀ s : State, s.err = 0 →
    (∀ rate, (w, rate) ∈ [((0 : Byte), 168), (1, 136), (2, 72)] →
      8 * key.length < 2 ^ 64 → 8 * custom.length < 2 ^ 64 →
      message.length + key.length + custom.length ≤ s.cfg.ibufBytes → n.toNat ≤ s.cfg.obufBytes →
      ∃ t out, exec (.kmacCompute w n message key custom) s = .next t ∧ s.Completed t out ∧ s.KeepsFft t ∧
        out.length = n.toNat ∧
        ∀ (chunks : List Bytes) (tail : Bytes), (∀ c ∈ chunks, c.length % rate = 0) →
          message = chunks.flatten ++ tail →
          ∃ u before, execAll (.kmacInit w key custom :: chunks.map (.blockupdate (BitVec.ofNat 8 rate)) ++
              [.kmacFinal w n tail]) s = some u ∧
            u.a = t.a ∧ u.responses = before ++ [⟨0, out⟩]) ∧
    (2 < w.toNat → exec (.kmacCompute w n message key custom) s = .next (raise .illegalCommand s)) ∧
    (w.toNat ≤ 2 → 2 ^ 64 ≤ 8 * key.length ∨ 2 ^ 64 ≤ 8 * custom.length →
      exec (.kmacCompute w n message key custom) s = .next (raise .encodingOverflow s)) ∧
    (w.toNat ≤ 2 → 8 * key.length < 2 ^ 64 → 8 * custom.length < 2 ^ 64 →
      s.cfg.ibufBytes < message.length + key.length + custom.length ∨ s.cfg.obufBytes < n.toNat →
      exec (.kmacCompute w n message key custom) s = .next (raise .bufferTooSmall s))

/-- R191, R64: a command that begins a session leaves the same `A` and gives the same response whatever `A` held. -/
def Obligations.SessionStartersIgnoreTheOldState : Prop :=
  ∀ (i : Instr) (s : State) (a : Keccak) (t : State),
    i.row.mnemonic ∈ ["SHA3_COMPUTE", "SHAKE_INIT", "SHAKE_COMPUTE", "CSHAKE_INIT", "CSHAKE_COMPUTE", "KMAC_INIT",
      "KMAC_COMPUTE"] →
    exec i s = .next t → t.err = 0 →
    exec i (s.setA a) = .next t

/-! ### The integer encoders (44_encode.md) -/

/-- R240: `ByteLen` is the least `n >= 1` with `v < 2^(8n)`, and the shape of `LeftEncode`. -/
def Obligations.LeftEncodeIsMinimalBigEndian : Prop :=
  ∀ v, v < 2 ^ 64 →
    (1 ≤ byteLen v ∧ v < 2 ^ (8 * byteLen v) ∧ ∀ n, 1 ≤ n → v < 2 ^ (8 * n) → byteLen v ≤ n) ∧
    byteLen v ≤ 8 ∧ (leftEncode v).length = byteLen v + 1 ∧
    byteAt (leftEncode v) 0 = BitVec.ofNat 8 (byteLen v) ∧
    ∀ k, k < byteLen v → byteAt (leftEncode v) (byteLen v - k) = BitVec.ofNat 8 (v / 2 ^ (8 * k))

/-- R245: the round trips, the lengths, and that RightEncode is LeftEncode with its first byte moved to the end. -/
def Obligations.EncodersRoundTrip : Prop :=
  ∀ v, v < 2 ^ 64 →
    decodeLeft (leftEncode v) = v ∧ decodeRight (rightEncode v) = v ∧
    (leftEncode v).length = byteLen v + 1 ∧ (rightEncode v).length = byteLen v + 1 ∧
    rightEncode v = (leftEncode v).tail ++ (leftEncode v).take 1

/-- R241, R242. -/
def Obligations.EncoderCommandsEmitTheEncoding : Prop :=
  ∀ v : Lane, encode (.lenc v) = store32 0x40000000 ++ store64 v ∧ encode (.renc v) = store32 0x41000000 ++ store64 v ∧
  ∀ s : State, s.err = 0 →
    (∃ t, exec (.lenc v) s = .next t ∧ s.Completed t (leftEncode v.toNat) ∧ s.KeepsRegisters t) ∧
    ∃ t, exec (.renc v) s = .next t ∧ s.Completed t (rightEncode v.toNat) ∧ s.KeepsRegisters t

/-! ### The FFT unit (45_fft.md) -/

/-- The polynomial over GF(2) whose coefficients are bit `e` of the words of a vector: element `e` of R250. -/
noncomputable def Sys2Proof.elementOf (f : FftVector) (e : Nat) : Polynomial (ZMod 2) :=
  ((List.range f.length).map fun i =>
    if (f.word i).getLsbD e then (Polynomial.X : Polynomial (ZMod 2)) ^ i else 0).sum

/-- R254: `VecMul` is multiplication in GF(2)[x] modulo `x^m + sum over e in E of x^e`, in each of the 64 slots apart. -/
def Obligations.VecMulIsFieldMultiplication : Prop :=
  ∀ (c : Config) (f g : FftVector), 1 ≤ c.fftM → (∀ e ∈ c.fftPoly, e < c.fftM) → f.length = c.fftM →
    g.length = c.fftM →
    (vecMul c f g).length = c.fftM ∧
    ∀ slot, slot < 64 →
      ((Polynomial.X : Polynomial (ZMod 2)) ^ c.fftM + (c.fftPoly.map fun e => Polynomial.X ^ e).sum) ∣
        Sys2Proof.elementOf f slot * Sys2Proof.elementOf g slot - Sys2Proof.elementOf (vecMul c f g) slot

/-- R260, R265: FFT_LD writes the input file, FFT_STIN reads it, and FFT_LD p then FFT_STIN emits p. -/
def Obligations.FftLdAndStinMoveTheInputFile : Prop :=
  ∀ p : Bytes, encode (.fftLd p) = store32 0x50000000 ++ (store32 p.length ++ p) ∧ encode .fftStin = store32 0x55000000 ∧
  ∀ s : State, s.err = 0 →
    (p.length = 8 * s.cfg.fftM → ∃ t, exec (.fftLd p) s = .next t ∧ s.Completed t [] ∧ t.a = s.a ∧ t.fout = s.fout ∧
      t.fin.length = s.cfg.fftM ∧ ∀ i, i < s.cfg.fftM → t.fin.word i = load64 (slice p (8 * i) (8 * i + 8))) ∧
    (p.length ≠ 8 * s.cfg.fftM → exec (.fftLd p) s = .next (raise .badLength s)) ∧
    (∃ t, exec .fftStin s = .next t ∧
      s.Completed t ((List.range s.cfg.fftM).flatMap fun i => store64 (s.fin.word i)) ∧ s.KeepsRegisters t) ∧
    (p.length = 8 * s.cfg.fftM →
      ∃ t, execAll [.fftLd p, .fftStin] s = some t ∧ t.responses = s.responses ++ [⟨0, []⟩, ⟨0, p⟩])

/-- R264. -/
def Obligations.FftStReadsOneOutputVector : Prop :=
  ∀ j : Byte, encode (.fftSt j) = store32 (0x54000000 + j.toNat * 2 ^ 16) ∧
  ∀ s : State, s.err = 0 →
    (j.toNat ≤ 63 → ∃ t out, exec (.fftSt j) s = .next t ∧ s.Completed t out ∧ s.KeepsRegisters t ∧
      out = (List.range s.cfg.fftM).flatMap (fun i => store64 ((s.fout.getD j.toNat []).word i)) ∧
      out.length = 8 * s.cfg.fftM) ∧
    (63 < j.toNat → exec (.fftSt j) s = .next (raise .illegalCommand s))

/-- R263, with R261 and R262: FFT_RADIX writes `FIN` by `RadixConv`, FFT_BFLY writes `FOUT` by `Butterflies`, and FFT is
exactly FFT_RADIX then FFT_BFLY. -/
def Obligations.FftIsRadixThenButterflies : Prop :=
  encode .fftRadix = store32 0x51000000 ∧ encode .fftBfly = store32 0x52000000 ∧ encode .fft = store32 0x53000000 ∧
  ∀ s : State, s.err = 0 →
    (∃ t, exec .fftRadix s = .next t ∧ s.Completed t [] ∧ t.a = s.a ∧ t.fout = s.fout ∧
      t.fin = radixConv s.cfg s.fin) ∧
    (∃ t, exec .fftBfly s = .next t ∧ s.Completed t [] ∧ t.a = s.a ∧ t.fin = s.fin ∧
      t.fout = butterflies s.cfg s.fin) ∧
    ∃ t u, exec .fft s = .next t ∧ s.Completed t [] ∧ t.a = s.a ∧
      execAll [.fftRadix, .fftBfly] s = some u ∧ t.fin = u.fin ∧ t.fout = u.fout

/-- R256, R257, R258, for every value of the parameters. `RadixConv`: `red k` is the XOR-shift reductions of the mask
pairs 4 down to `k` (the two masks of a pair in turn, shifted by `2^k`); round `j` applies `red j` to every word and then
one `VecMul` by `FFT_SCAL[j]`; the reductions are linear over XOR, and the two words that R256 works out with the
default masks come out as it says. `Butterflies`: slot `j` is the broadcast of bit `FFT_REV[j]` of each word; stage `i` takes
the pairs `(k, k + 2^i)` with `k mod 2^(i+1) < 2^i` and the constant `FFT_CONSTS[2^i - 1 + (k mod 2^i)]`, the lower half
first and the upper half from the new lower one; nothing follows the sixth stage (R259). And `FFT_REV` and the default
masks as listed. R256 and R257 mark the order of these details as the spec's own general knowledge, R258 as its
decision. -/
def Obligations.RadixConvAndButterfliesFollowTheirRules : Prop :=
  (∀ (c : Config) (pair red : Nat → Lane → Lane),
    (∀ k v u, u = v ^^^ ((v &&& (c.fftMask.getD k (0, 0)).1) >>> (2 ^ k)) →
      pair k v = u ^^^ ((u &&& (c.fftMask.getD k (0, 0)).2) >>> (2 ^ k))) →
    (∀ v, red 5 v = v) → (∀ k v, k < 5 → red k v = pair k (red (k + 1) v)) →
    (∀ (f : FftVector) (round : Nat → FftVector), round 0 = f →
      (∀ j, j < 5 → round (j + 1) = vecMul c ((round j).map (red j)) (c.fftScal.getD j [])) →
      radixConv c f = round 5) ∧
    (∀ k v v', k < 5 → red k (v ^^^ v') = red k v ^^^ red k v') ∧
    (c.fftMask = Config.defaultMask →
      red 4 (red 3 (red 2 (red 1 (red 0 0x0000000000000010)))) = 0x0000000000000012 ∧
      red 4 (red 3 (red 2 (red 1 (red 0 0x8000000000000000)))) = 0xFFFFFFFFFFFF000E)) ∧
  (∀ (c : Config) (f : FftVector) (out : Nat → Nat → FftVector),
    (∀ j, j < 64 → out 0 j = (List.range c.fftM).map fun i =>
      if (f.word i).getLsbD (c.fftRev.getD j 0) then 0xFFFFFFFFFFFFFFFF else 0) →
    (∀ i k, i < 6 → k < 64 → k % 2 ^ (i + 1) < 2 ^ i →
      out (i + 1) k = (out i k).xor (vecMul c (out i (k + 2 ^ i)) (c.fftConsts.getD (2 ^ i - 1 + k % 2 ^ i) [])) ∧
      out (i + 1) (k + 2 ^ i) = (out i (k + 2 ^ i)).xor (out (i + 1) k)) →
    (butterflies c f).length = 64 ∧ ∀ j, j < 64 → vectorAt (butterflies c f) j = out 6 j) ∧
  (State.reset.cfg.fftRev =
      [0, 32, 16, 48, 8, 40, 24, 56, 4, 36, 20, 52, 12, 44, 28, 60, 2, 34, 18, 50, 10, 42, 26, 58, 6, 38, 22, 54, 14, 46,
       30, 62, 1, 33, 17, 49, 9, 41, 25, 57, 5, 37, 21, 53, 13, 45, 29, 61, 3, 35, 19, 51, 11, 43, 27, 59, 7, 39, 23, 55,
       15, 47, 31, 63] ∧
    ∀ j, j < 64 → State.reset.cfg.fftRev.getD j 64 =
      ((List.range 6).map fun b => ((j / 2 ^ b) % 2) * 2 ^ (5 - b)).sum) ∧
  Config.defaultMask =
    [(0x8888888888888888, 0x4444444444444444), (0xC0C0C0C0C0C0C0C0, 0x3030303030303030),
     (0xF000F000F000F000, 0x0F000F000F000F00), (0xFF000000FF000000, 0x00FF000000FF0000),
     (0xFFFF000000000000, 0x0000FFFF00000000)]

/-- R270: the transform is linear over XOR and maps zero to zero, for every value of the parameters. -/
def Obligations.TransformIsLinear : Prop :=
  ∀ (c : Config) (a b : FftVector), a.length = c.fftM → b.length = c.fftM →
    (∀ j i, (vectorAt (butterflies c (radixConv c (a.xor b))) j).word i =
      (vectorAt (butterflies c (radixConv c a)) j).word i ^^^ (vectorAt (butterflies c (radixConv c b)) j).word i) ∧
    ∀ j i, (vectorAt (butterflies c (radixConv c (FftVector.zero c.fftM))) j).word i = 0

/-! ### Faults and reset (60_exceptions.md, 70_reset_and_hazards.md) -/

/-- R306: a fault writes `ERR` and nothing else of the engine, and its response has the code and no output. -/
def Obligations.FaultIsPrecise : Prop :=
  ∀ (s t : State) (packet : Bytes), s.inReset = false → fetch s = some (.packet packet) → s.err = 0 → step s = .next t → t.err ≠ 0 →
    (∃ fault : ErrCode, t.err = fault.code) ∧
    t = { s with err := t.err, cp := s.cp + 1, responses := s.responses ++ [⟨t.err.setWidth 32, []⟩] }

/-- R307: while `ERR != 0` every packet the engine accepts is consumed and answered with `ERR` and no output, and nothing
else changes; and only reset clears `ERR` (R25, R340). That it is the release that clears it, so that `ERR` stays
latched from the assertion to the release, is the model's choice (log entry 3, DESIGN CHOICE): R340 gives the values
only for the release. -/
def Obligations.FaultedEngineRefusesEveryPacket : Prop :=
  ∀ s : State, s.err ≠ 0 →
    (∀ packet, s.inReset = false → fetch s = some (.packet packet) →
      step s = .next { s with cp := s.cp + 1, responses := s.responses ++ [⟨s.err.setWidth 32, []⟩] }) ∧
    ∀ t, step s = .next t → (t.err = 0 ↔ s.inReset = true ∧ fetch s = some .releaseReset)

/-- R301, R302, R303: which faults each command can raise from a healthy engine. The two clauses over `Instr.inRange` rest
on the model's reading (log entry 5, DEDUCED) that a packet whose index or selector is out of range decodes to its row's
command, which raises `IllegalCommand`. -/
def Obligations.EachCommandRaisesOnlyItsFaults : Prop :=
  ∀ (i : Instr) (s t : State), s.err = 0 → exec i s = .next t →
    (t.err = 1 → i.row.mnemonic ∈ ["ABSORB", "SQUEEZE", "BLOCKUPDATE"]) ∧
    (t.err = 2 → i.payloads ≠ [] ∨ i.row.mnemonic ∈ ["SQUEEZE", "SHAKE_SQUEEZE"]) ∧
    (t.err = 3 → i.row.mnemonic ∈ ["CSHAKE_INIT", "CSHAKE_COMPUTE", "KMAC_INIT", "KMAC_FINAL", "KMAC_COMPUTE"]) ∧
    (t.err = 4 ↔ i.inRange = false) ∧
    (t.err = 5 → i.row.mnemonic ∈ ["LDSTATE", "FFT_LD", "BLOCKUPDATE"]) ∧
    (i.inRange = true → i.row.mnemonic ∈ ["ZERO", "STSTATE", "PERMUTE", "ROUND", "THETA", "RHOPI", "CHI", "IOTA",
      "LENC", "RENC", "FFT_RADIX", "FFT_BFLY", "FFT", "FFT_ST", "FFT_STIN"] → t.err = 0)

/-- R27, R28, R253, R301: every step keeps the parameters' constraints, the shape of the FFT files and a legal `ERR`,
and writes neither the parameters nor the host's list. -/
def Obligations.EveryStepKeepsTheInvariant : Prop :=
  ∀ s t : State, s.Inv → step s = .next t → t.Inv ∧ t.cfg = s.cfg ∧ t.program = s.program

/-- The state after reset satisfies the invariant that every step keeps. -/
def Obligations.ResetSatisfiesTheInvariant : Prop := State.reset.Inv

/-- R340, R33: when the reset input is asserted, a command in progress is abandoned, with no effect and no response; while
it is asserted no packet is accepted, so none changes a register or gets a response; when it is released every register
has its reset value; and it stays released until it is asserted again. That the edges of the reset input are entries of
the host's list, that the pointer moves past them and past a packet that is not accepted, and that the registers take
their values at the release are the model's choices (log entry 3). -/
def Obligations.ResetInputRestoresEveryRegister : Prop :=
  ∀ s : State,
    (s.inReset = false → (fetch s = some .assertReset ∨ ∃ packet, fetch s = some (.packetCutByReset packet)) →
      step s = .next { s with inReset := true, cp := s.cp + 1 }) ∧
    (s.inReset = true → ∀ packet, fetch s = some (.packet packet) → step s = .next { s with cp := s.cp + 1 }) ∧
    (s.inReset = true → fetch s = some .releaseReset → ∃ t, step s = .next t ∧
      (∀ i, i < 25 → t.a.lane i = 0) ∧ t.err = 0 ∧ t.fin = List.replicate s.cfg.fftM 0 ∧
      t.fout = List.replicate 64 (List.replicate s.cfg.fftM 0) ∧ t.inReset = false ∧
      t.responses = s.responses ∧ t.cfg = s.cfg ∧ t.program = s.program ∧ t.cp = s.cp + 1) ∧
    ∀ t, step s = .next t →
      (t.inReset ≠ s.inReset ↔
        if s.inReset then fetch s = some .releaseReset
        else fetch s = some .assertReset ∨ ∃ packet, fetch s = some (.packetCutByReset packet))
end

