-- ==== Sys2Proof/Laws/Config.lean ====
section
/-! SUPPORT. The implementation's parameters meet the constraints of R10 and R253 whatever the free values are. -/

namespace Sys2Proof

/-- A capacity of the least allowed value or more meets both minimums of R10. -/
theorem minCapacity_le {m free : Nat} :
    200 ≤ Config.minCapacity m + free ∧ 8 * m ≤ Config.minCapacity m + free := by
  unfold Config.minCapacity; omega

/-- Every capacity that meets both minimums of R10 is the least allowed value and some free excess: the free values of
`Config.implemented` leave no legal capacity out. -/
theorem capacity_is_reached {m capacity : Nat} (h : 200 ≤ capacity ∧ 8 * m ≤ capacity) :
    ∃ free, capacity = Config.minCapacity m + free :=
  ⟨capacity - Config.minCapacity m, by unfold Config.minCapacity; omega⟩

theorem implemented_valid : Config.implemented.Valid := by
  refine ⟨⟨?_, ?_, ?_, ?_⟩, ?_, ⟨?_, ?_, ?_⟩, ?_, ⟨?_, ?_⟩, ⟨?_, ?_⟩, ?_⟩
  · exact minCapacity_le.1
  · exact minCapacity_le.2
  · exact minCapacity_le.1
  · exact minCapacity_le.2
  · simp [Config.implemented, Config.implementedM]
  · simp [Config.implemented, Config.implementedM]
  · intro e he; simp [Config.implemented] at he ⊢; exact he.1
  · exact List.Nodup.filter _ List.nodup_range
  · simp [Config.implemented]
  · simp [Config.implemented]
  · intro v hv; simp [Config.implemented] at hv ⊢; obtain ⟨a, _, rfl⟩ := hv; simp
  · simp [Config.implemented]
  · intro v hv; simp [Config.implemented] at hv ⊢; obtain ⟨a, _, rfl⟩ := hv; simp
  · exact show Config.bitReversal.length = 64 ∧ Config.bitReversal.Nodup ∧ ∀ r ∈ Config.bitReversal, r < 64 by decide

end Sys2Proof
end

