-- ==== Sys2Proof/Laws/Exec.lean ====
section
/-! SUPPORT. The equation of each command: its meaning is `command` on its checks, its effect and its output. Later
proofs rewrite with these and do not unfold `exec`. -/

namespace Sys2Proof.Machine

theorem exec_zero (s : State) :
    exec .zero s =
      command s [] (s.setA Keccak.zero) [] := rfl

theorem exec_ldstate (state : Bytes) (s : State) :
    exec (.ldstate state) s =
      command s [lengthNot state 200] (s.setA (loadState state)) [] := rfl

theorem exec_ststate (s : State) :
    exec .ststate s =
      command s [] s (storeState s.a) := rfl

theorem exec_permute (s : State) :
    exec .permute s =
      command s [] (s.setA (permute s.a)) [] := rfl

theorem exec_round (r : Byte) (s : State) :
    exec (.round r) s =
      command s [roundIllegal r] (s.setA (rnd s.a (indexOperand r))) [] := rfl

theorem exec_theta (s : State) :
    exec .theta s =
      command s [] (s.setA (theta s.a)) [] := rfl

theorem exec_rhopi (s : State) :
    exec .rhopi s =
      command s [] (s.setA (rhoPi s.a)) [] := rfl

theorem exec_chi (s : State) :
    exec .chi s =
      command s [] (s.setA (chi s.a)) [] := rfl

theorem exec_iota (r : Byte) (s : State) :
    exec (.iota r) s =
      command s [roundIllegal r] (s.setA (iota s.a (indexOperand r))) [] := rfl

theorem exec_absorb (rate : Byte) (dom : Byte) (input : Bytes) (s : State) :
    exec (.absorb rate dom input) s =
      command s [rateInvalid rate, payloadsExceed s [input]] (s.setA (absorb s.a (rateOperand rate) input dom)) [] := rfl

theorem exec_squeeze (rate : Byte) (nBlocks : Word32) (s : State) :
    exec (.squeeze rate nBlocks) s =
      command s [rateInvalid rate, outputExceeds s (countOperand nBlocks * rateOperand rate)] (s.setA (squeeze s.a (countOperand nBlocks) (rateOperand rate)).1) (squeeze s.a (countOperand nBlocks) (rateOperand rate)).2 := rfl

theorem exec_blockupdate (rate : Byte) (blocks : Bytes) (s : State) :
    exec (.blockupdate rate blocks) s =
      command s [rateInvalid rate, notWholeBlocks blocks rate, payloadsExceed s [blocks]] (s.setA (absorbBlocks s.a blocks (rateOperand rate))) [] := rfl

theorem exec_sha3Compute (w : Byte) (message : Bytes) (s : State) :
    exec (.sha3Compute w message) s =
      command s [sha3WidthIllegal w, payloadsExceed s [message]] (s.setA (sha3Stage Keccak.zero w message).1) (sha3Stage Keccak.zero w message).2 := rfl

theorem exec_sha3Final (w : Byte) (tail : Bytes) (s : State) :
    exec (.sha3Final w tail) s =
      command s [sha3WidthIllegal w, payloadsExceed s [tail]] (s.setA (sha3Stage s.a w tail).1) (sha3Stage s.a w tail).2 := rfl

theorem exec_shakeInit (w : Byte) (key : Bytes) (s : State) :
    exec (.shakeInit w key) s =
      command s [widthIllegal w, payloadsExceed s [key]] (s.setA (shakeState w key)) [] := rfl

theorem exec_shakeSqueeze (w : Byte) (nBlocks : Word32) (s : State) :
    exec (.shakeSqueeze w nBlocks) s =
      command s [widthIllegal w, outputExceeds s (countOperand nBlocks * rateOfWidth w)] (s.setA (squeeze s.a (countOperand nBlocks) (rateOfWidth w)).1) (squeeze s.a (countOperand nBlocks) (rateOfWidth w)).2 := rfl

theorem exec_shakeCompute (w : Byte) (outLen : Word32) (key : Bytes) (s : State) :
    exec (.shakeCompute w outLen key) s =
      command s [widthIllegal w, payloadsExceed s [key], outputExceeds s (countOperand outLen)] (s.setA (xofOut (shakeState w key) (rateOfWidth w) (countOperand outLen)).1) (xofOut (shakeState w key) (rateOfWidth w) (countOperand outLen)).2 := rfl

theorem exec_cshakeInit (w : Byte) (key : Bytes) (name : Bytes) (custom : Bytes) (s : State) :
    exec (.cshakeInit w key name custom) s =
      command s [widthIllegal w, bitLengthOverflow name.length, bitLengthOverflow custom.length, payloadsExceed s [key, name, custom]] (s.setA (cshakeState w key name custom)) [] := rfl

theorem exec_cshakeCompute (w : Byte) (outLen : Word32) (key : Bytes) (name : Bytes) (custom : Bytes) (s : State) :
    exec (.cshakeCompute w outLen key name custom) s =
      command s [widthIllegal w, bitLengthOverflow name.length, bitLengthOverflow custom.length, payloadsExceed s [key, name, custom], outputExceeds s (countOperand outLen)] (s.setA (xofOut (cshakeState w key name custom) (rateOfWidth w) (countOperand outLen)).1) (xofOut (cshakeState w key name custom) (rateOfWidth w) (countOperand outLen)).2 := rfl

theorem exec_kmacInit (w : Byte) (key : Bytes) (custom : Bytes) (s : State) :
    exec (.kmacInit w key custom) s =
      command s [widthIllegal w, bitLengthOverflow key.length, bitLengthOverflow custom.length, payloadsExceed s [key, custom]] (s.setA (kmacState w key custom)) [] := rfl

theorem exec_kmacFinal (w : Byte) (outLen : Word32) (tail : Bytes) (s : State) :
    exec (.kmacFinal w outLen tail) s =
      command s [widthIllegal w, bitLengthOverflow (countOperand outLen), payloadsExceed s [tail], outputExceeds s (countOperand outLen)] (s.setA (kmacStage s.a w (countOperand outLen) tail).1) (kmacStage s.a w (countOperand outLen) tail).2 := rfl

theorem exec_kmacCompute (w : Byte) (outLen : Word32) (message : Bytes) (key : Bytes) (custom : Bytes) (s : State) :
    exec (.kmacCompute w outLen message key custom) s =
      command s [widthIllegal w, bitLengthOverflow key.length, bitLengthOverflow custom.length, bitLengthOverflow (countOperand outLen), payloadsExceed s [message, key, custom], outputExceeds s (countOperand outLen)] (s.setA (kmacStage (kmacState w key custom) w (countOperand outLen) message).1) (kmacStage (kmacState w key custom) w (countOperand outLen) message).2 := rfl

theorem exec_lenc (v : Lane) (s : State) :
    exec (.lenc v) s =
      command s [] s (leftEncode (valueOperand v)) := rfl

theorem exec_renc (v : Lane) (s : State) :
    exec (.renc v) s =
      command s [] s (rightEncode (valueOperand v)) := rfl

theorem exec_fftLd (coefficients : Bytes) (s : State) :
    exec (.fftLd coefficients) s =
      command s [lengthNot coefficients (8 * s.cfg.fftM)] (s.setFin (loadVector s.cfg.fftM coefficients)) [] := rfl

theorem exec_fftRadix (s : State) :
    exec .fftRadix s =
      command s [] (s.setFin (radixConv s.cfg s.fin)) [] := rfl

theorem exec_fftBfly (s : State) :
    exec .fftBfly s =
      command s [] (s.setFout (butterflies s.cfg s.fin)) [] := rfl

theorem exec_fft (s : State) :
    exec .fft s =
      command s [] ((s.setFin (radixConv s.cfg s.fin)).setFout (butterflies s.cfg (radixConv s.cfg s.fin))) [] := rfl

theorem exec_fftSt (j : Byte) (s : State) :
    exec (.fftSt j) s =
      command s [vectorIllegal j] s (storeVector s.cfg.fftM (vectorAt s.fout (indexOperand j))) := rfl

theorem exec_fftStin (s : State) :
    exec .fftStin s =
      command s [] s (storeVector s.cfg.fftM s.fin) := rfl

end Sys2Proof.Machine
end

