-- ==== Sys2Proof/Laws/State.lean ====
section
/-! SUPPORT. One lemma per field per update of State. -/

namespace Sys2Proof.Machine

variable (s : State) (a : Keccak) (e : Byte) (f : FftVector) (g : List FftVector) (out packet : Bytes) (c : ErrCode)

@[simp] theorem setA_a : (s.setA a).a = a := rfl
@[simp] theorem setA_err : (s.setA a).err = s.err := rfl
@[simp] theorem setA_fin : (s.setA a).fin = s.fin := rfl
@[simp] theorem setA_fout : (s.setA a).fout = s.fout := rfl
@[simp] theorem setA_inReset : (s.setA a).inReset = s.inReset := rfl
@[simp] theorem setA_cfg : (s.setA a).cfg = s.cfg := rfl
@[simp] theorem setA_program : (s.setA a).program = s.program := rfl
@[simp] theorem setA_cp : (s.setA a).cp = s.cp := rfl
@[simp] theorem setA_responses : (s.setA a).responses = s.responses := rfl

@[simp] theorem setErr_a : (s.setErr e).a = s.a := rfl
@[simp] theorem setErr_err : (s.setErr e).err = e := rfl
@[simp] theorem setErr_fin : (s.setErr e).fin = s.fin := rfl
@[simp] theorem setErr_fout : (s.setErr e).fout = s.fout := rfl
@[simp] theorem setErr_inReset : (s.setErr e).inReset = s.inReset := rfl
@[simp] theorem setErr_cfg : (s.setErr e).cfg = s.cfg := rfl
@[simp] theorem setErr_program : (s.setErr e).program = s.program := rfl
@[simp] theorem setErr_cp : (s.setErr e).cp = s.cp := rfl
@[simp] theorem setErr_responses : (s.setErr e).responses = s.responses := rfl

@[simp] theorem setFin_a : (s.setFin f).a = s.a := rfl
@[simp] theorem setFin_err : (s.setFin f).err = s.err := rfl
@[simp] theorem setFin_fin : (s.setFin f).fin = f := rfl
@[simp] theorem setFin_fout : (s.setFin f).fout = s.fout := rfl
@[simp] theorem setFin_inReset : (s.setFin f).inReset = s.inReset := rfl
@[simp] theorem setFin_cfg : (s.setFin f).cfg = s.cfg := rfl
@[simp] theorem setFin_program : (s.setFin f).program = s.program := rfl
@[simp] theorem setFin_cp : (s.setFin f).cp = s.cp := rfl
@[simp] theorem setFin_responses : (s.setFin f).responses = s.responses := rfl

@[simp] theorem setFout_a : (s.setFout g).a = s.a := rfl
@[simp] theorem setFout_err : (s.setFout g).err = s.err := rfl
@[simp] theorem setFout_fin : (s.setFout g).fin = s.fin := rfl
@[simp] theorem setFout_fout : (s.setFout g).fout = g := rfl
@[simp] theorem setFout_inReset : (s.setFout g).inReset = s.inReset := rfl
@[simp] theorem setFout_cfg : (s.setFout g).cfg = s.cfg := rfl
@[simp] theorem setFout_program : (s.setFout g).program = s.program := rfl
@[simp] theorem setFout_cp : (s.setFout g).cp = s.cp := rfl
@[simp] theorem setFout_responses : (s.setFout g).responses = s.responses := rfl

@[simp] theorem respond_a : (s.respond out).a = s.a := rfl
@[simp] theorem respond_err : (s.respond out).err = s.err := rfl
@[simp] theorem respond_fin : (s.respond out).fin = s.fin := rfl
@[simp] theorem respond_fout : (s.respond out).fout = s.fout := rfl
@[simp] theorem respond_inReset : (s.respond out).inReset = s.inReset := rfl
@[simp] theorem respond_cfg : (s.respond out).cfg = s.cfg := rfl
@[simp] theorem respond_program : (s.respond out).program = s.program := rfl
@[simp] theorem respond_cp : (s.respond out).cp = s.cp + 1 := rfl
@[simp] theorem respond_responses :
    (s.respond out).responses = s.responses ++ [⟨s.err.setWidth 32, out⟩] := rfl

@[simp] theorem raise_a : (raise c s).a = s.a := rfl
@[simp] theorem raise_err : (raise c s).err = c.code := rfl
@[simp] theorem raise_fin : (raise c s).fin = s.fin := rfl
@[simp] theorem raise_fout : (raise c s).fout = s.fout := rfl
@[simp] theorem raise_inReset : (raise c s).inReset = s.inReset := rfl
@[simp] theorem raise_cfg : (raise c s).cfg = s.cfg := rfl
@[simp] theorem raise_program : (raise c s).program = s.program := rfl
@[simp] theorem raise_cp : (raise c s).cp = s.cp + 1 := rfl
@[simp] theorem raise_responses :
    (raise c s).responses = s.responses ++ [⟨c.code.setWidth 32, []⟩] := rfl

@[simp] theorem refuse_a : (refuse s).a = s.a := rfl
@[simp] theorem refuse_err : (refuse s).err = s.err := rfl
@[simp] theorem refuse_fin : (refuse s).fin = s.fin := rfl
@[simp] theorem refuse_fout : (refuse s).fout = s.fout := rfl
@[simp] theorem refuse_inReset : (refuse s).inReset = s.inReset := rfl
@[simp] theorem refuse_cfg : (refuse s).cfg = s.cfg := rfl
@[simp] theorem refuse_program : (refuse s).program = s.program := rfl
@[simp] theorem refuse_cp : (refuse s).cp = s.cp + 1 := rfl
@[simp] theorem refuse_responses : (refuse s).responses = s.responses ++ [⟨s.err.setWidth 32, []⟩] := rfl

@[simp] theorem passInput_a : (passInput s).a = s.a := rfl
@[simp] theorem passInput_err : (passInput s).err = s.err := rfl
@[simp] theorem passInput_fin : (passInput s).fin = s.fin := rfl
@[simp] theorem passInput_fout : (passInput s).fout = s.fout := rfl
@[simp] theorem passInput_inReset : (passInput s).inReset = s.inReset := rfl
@[simp] theorem passInput_cfg : (passInput s).cfg = s.cfg := rfl
@[simp] theorem passInput_program : (passInput s).program = s.program := rfl
@[simp] theorem passInput_cp : (passInput s).cp = s.cp + 1 := rfl
@[simp] theorem passInput_responses : (passInput s).responses = s.responses := rfl

@[simp] theorem assertReset_a : (assertReset s).a = s.a := rfl
@[simp] theorem assertReset_err : (assertReset s).err = s.err := rfl
@[simp] theorem assertReset_fin : (assertReset s).fin = s.fin := rfl
@[simp] theorem assertReset_fout : (assertReset s).fout = s.fout := rfl
@[simp] theorem assertReset_inReset : (assertReset s).inReset = true := rfl
@[simp] theorem assertReset_cfg : (assertReset s).cfg = s.cfg := rfl
@[simp] theorem assertReset_program : (assertReset s).program = s.program := rfl
@[simp] theorem assertReset_cp : (assertReset s).cp = s.cp + 1 := rfl
@[simp] theorem assertReset_responses : (assertReset s).responses = s.responses := rfl

@[simp] theorem releaseReset_a : (releaseReset s).a = Keccak.zero := rfl
@[simp] theorem releaseReset_err : (releaseReset s).err = 0 := rfl
@[simp] theorem releaseReset_fin : (releaseReset s).fin = FftVector.zero s.cfg.fftM := rfl
@[simp] theorem releaseReset_fout :
    (releaseReset s).fout = List.replicate 64 (FftVector.zero s.cfg.fftM) := rfl
@[simp] theorem releaseReset_inReset : (releaseReset s).inReset = false := rfl
@[simp] theorem releaseReset_cfg : (releaseReset s).cfg = s.cfg := rfl
@[simp] theorem releaseReset_program : (releaseReset s).program = s.program := rfl
@[simp] theorem releaseReset_cp : (releaseReset s).cp = s.cp + 1 := rfl
@[simp] theorem releaseReset_responses : (releaseReset s).responses = s.responses := rfl

@[simp] theorem placePacket_a : (s.placePacket packet).a = s.a := rfl
@[simp] theorem placePacket_err : (s.placePacket packet).err = s.err := rfl
@[simp] theorem placePacket_fin : (s.placePacket packet).fin = s.fin := rfl
@[simp] theorem placePacket_fout : (s.placePacket packet).fout = s.fout := rfl
@[simp] theorem placePacket_inReset : (s.placePacket packet).inReset = false := rfl
@[simp] theorem placePacket_cfg : (s.placePacket packet).cfg = s.cfg := rfl
@[simp] theorem placePacket_cp : (s.placePacket packet).cp = s.cp := rfl
@[simp] theorem placePacket_responses : (s.placePacket packet).responses = s.responses := rfl

/-- A placed packet is the one the next step fetches. -/
@[simp] theorem fetch_placePacket : fetch (s.placePacket packet) = some (.packet packet) := by
  have h : (s.program.take s.cp ++ List.replicate (s.cp - s.program.length) Input.releaseReset).length = s.cp := by
    simp only [List.length_append, List.length_take, List.length_replicate]; omega
  rw [fetch, State.placePacket, List.getElem?_append_right (by simp only [h]; exact Nat.le_refl _), h]
  simp

end Sys2Proof.Machine
end

