-- ==== Sys2Proof/Laws/Ops.lean ====
section
/-! SUPPORT. What the shared operations can do, each said once: later proofs cite these and do not unfold them. -/

namespace Sys2Proof.Machine

/-! ### Running a command -/

theorem firstFault_eq_none {checks : List Check} :
    firstFault checks = none ↔ ∀ check ∈ checks, check.1 = false := by
  induction checks with
  | nil => simp [firstFault]
  | cons check checks ih =>
    obtain ⟨holds, fault⟩ := check
    cases holds <;> simp [firstFault, ih]

theorem firstFault_mem {checks : List Check} {fault : ErrCode} (h : firstFault checks = some fault) :
    (true, fault) ∈ checks := by
  induction checks with
  | nil => simp [firstFault] at h
  | cons check checks ih =>
    obtain ⟨holds, fault'⟩ := check
    cases holds
    · exact List.mem_cons_of_mem _ (ih (by simpa [firstFault] using h))
    · simp [firstFault] at h; simp [h]

/-- Everything `command` can answer. -/
theorem command_cases (s : State) (checks : List Check) (done : State) (out : Bytes) :
    (s.err ≠ 0 ∧ command s checks done out = .next (refuse s)) ∨
    (s.err = 0 ∧ ∃ fault, firstFault checks = some fault ∧ command s checks done out = .next (raise fault s)) ∨
    (s.err = 0 ∧ firstFault checks = none ∧ command s checks done out = .next (done.respond out)) := by
  by_cases he : s.err = 0
  · cases hf : firstFault checks with
    | none => exact .inr (.inr ⟨he, rfl, by simp [command, he, hf]⟩)
    | some fault => exact .inr (.inl ⟨he, fault, rfl, by simp [command, he, hf]⟩)
  · exact .inl ⟨he, if_pos he⟩

/-- A healthy engine whose command meets no fault condition runs it. -/
theorem command_runs {s : State} {checks : List Check} (done : State) (out : Bytes) (he : s.err = 0)
    (hf : ∀ check ∈ checks, check.1 = false) : command s checks done out = .next (done.respond out) := by
  simp [command, he, firstFault_eq_none.mpr hf]

/-- A healthy engine whose command meets a fault condition raises the first one. -/
theorem command_raises {s : State} {checks : List Check} {fault : ErrCode} (done : State) (out : Bytes)
    (he : s.err = 0) (hf : firstFault checks = some fault) :
    command s checks done out = .next (raise fault s) := by
  simp [command, he, hf]

/-- A faulted engine refuses. -/
theorem command_refuses {s : State} (checks : List Check) (done : State) (out : Bytes) (he : s.err ≠ 0) :
    command s checks done out = .next (refuse s) := if_pos he

/-- `exec` is `command` on some checks, some effect and some output; the effect leaves `ERR`, the reset input's
level, the parameters, the host's list, the pointer and the responses alone. -/
theorem exec_is_command (i : Instr) (s : State) :
    ∃ checks done out, exec i s = command s checks done out ∧ done.err = s.err ∧ done.inReset = s.inReset ∧
      done.cfg = s.cfg ∧ done.program = s.program ∧ done.cp = s.cp ∧ done.responses = s.responses := by
  cases i <;>
    simp only [
      exec_zero, exec_ldstate, exec_ststate, exec_permute, exec_round, exec_theta, exec_rhopi, exec_chi, exec_iota,
      exec_absorb, exec_squeeze, exec_blockupdate, exec_sha3Compute, exec_sha3Final, exec_shakeInit,
      exec_shakeSqueeze, exec_shakeCompute, exec_cshakeInit, exec_cshakeCompute, exec_kmacInit, exec_kmacFinal,
      exec_kmacCompute, exec_lenc, exec_renc, exec_fftLd, exec_fftRadix, exec_fftBfly, exec_fft, exec_fftSt,
      exec_fftStin] <;>
    refine ⟨_, _, _, rfl, ?_⟩ <;> simp

/-- A packet is run as `command` on some checks, some effect and some output. -/
theorem runPacket_is_command (packet : Bytes) (s : State) :
    ∃ checks done out, runPacket packet s = command s checks done out ∧ done.err = s.err ∧ done.inReset = s.inReset ∧
      done.cfg = s.cfg ∧ done.program = s.program ∧ done.cp = s.cp ∧ done.responses = s.responses := by
  unfold runPacket
  split
  · exact exec_is_command _ _
  · refine ⟨_, _, _, rfl, ?_⟩; exact ⟨rfl, rfl, rfl, rfl, rfl, rfl⟩

/-- Everything a step can do. -/
theorem step_cases (s : State) :
    (fetch s = none ∧ step s = .next s) ∨
    (s.inReset = false ∧ ∃ packet, fetch s = some (.packet packet) ∧ step s = runPacket packet s) ∨
    (s.inReset = false ∧ (fetch s = some .assertReset ∨ ∃ packet, fetch s = some (.packetCutByReset packet)) ∧
      step s = .next (assertReset s)) ∨
    (s.inReset = true ∧ fetch s = some .releaseReset ∧ step s = .next (releaseReset s)) ∨
    ((fetch s).isSome ∧ (s.inReset = true ↔ fetch s ≠ some .releaseReset) ∧ step s = .next (passInput s)) := by
  cases h : fetch s with
  | none => simp [step, h]
  | some input => cases input <;> cases hr : s.inReset <;> simp [step, h, hr, acceptInput, inputDuringReset]

/-! ### Lanes -/

theorem lane_eq_getElem (a : Keccak) (i : Nat) (h : i < 25) : a.lane i = a[i] := by
  simp [Keccak.lane, h]

theorem lane_ofLanes (f : Nat → Lane) (i : Nat) (h : i < 25) : (Keccak.ofLanes f).lane i = f i := by
  interval_cases i <;> rfl

theorem keccak_ext {a b : Keccak} (h : ∀ i < 25, a.lane i = b.lane i) : a = b := by
  apply Vector.ext
  intro i hi
  simpa [lane_eq_getElem _ _ hi] using h i hi

@[simp] theorem ofLanes_lane (a : Keccak) : Keccak.ofLanes a.lane = a :=
  keccak_ext fun i hi => lane_ofLanes _ i hi

@[simp] theorem lane_zero (i : Nat) : Keccak.zero.lane i = 0 := by
  simp only [Keccak.lane, Keccak.zero, Vector.toList_replicate, List.getD_eq_getElem?_getD, List.getElem?_replicate]
  split <;> rfl

theorem laneIndex_lt (x y : Nat) : laneIndex x y < 25 := by
  unfold laneIndex; omega

theorem xorBlock_lane (a : Keccak) (s : Bytes) (r i : Nat) (h : i < 25) :
    (xorBlock a s r).lane i =
      if i < r / 8 then a.lane i ^^^ load64 (slice s (8 * i) (8 * i + 8)) else a.lane i :=
  lane_ofLanes _ i h

theorem flatMap_store64_length (f : Nat → Lane) (n : Nat) :
    ((List.range n).flatMap fun i => store64 (f i)).length = 8 * n := by
  simp [List.length_flatMap, Nat.mul_comm]

theorem extract_length (a : Keccak) (r : Nat) : (extract a r).length = 8 * (r / 8) := flatMap_store64_length _ _

theorem storeState_length (a : Keccak) : (storeState a).length = 200 := flatMap_store64_length _ _

/-- The `i`-th eight bytes of stored lanes are lane `i`. -/
theorem slice_flatMap_store64 (f : Nat → Lane) (n i : Nat) (h : i < n) :
    slice ((List.range n).flatMap fun i => store64 (f i)) (8 * i) (8 * i + 8) = store64 (f i) := by
  obtain ⟨k, rfl⟩ : ∃ k, n = i + (k + 1) := ⟨n - i - 1, by omega⟩
  rw [List.range_add, List.flatMap_append, slice, List.drop_append_of_le_length (flatMap_store64_length f i).ge,
    ← flatMap_store64_length f i, List.drop_length, List.nil_append, List.range_succ_eq_map, Nat.add_sub_cancel_left]
  simp

/-- Bytes cut into groups of eight, loaded and stored, are the same bytes. -/
theorem flatMap_store64_load64 (s : Bytes) (n : Nat) (h : s.length = 8 * n) :
    ((List.range n).flatMap fun i => store64 (load64 (slice s (8 * i) (8 * i + 8)))) = s := by
  induction n generalizing s with
  | zero => simpa using (List.length_eq_zero_iff.mp (by omega : s.length = 0)).symm
  | succ n ih =>
    have hd : (s.drop 8).length = 8 * n := by rw [List.length_drop]; omega
    have h0 : (slice s 0 8).length = 8 := by rw [slice_length]; omega
    have hs : ∀ i, slice s (8 * (i + 1)) (8 * (i + 1) + 8) = slice (s.drop 8) (8 * i) (8 * i + 8) := by
      intro i
      rw [slice, slice, List.drop_drop, Nat.add_sub_cancel_left, Nat.add_sub_cancel_left, Nat.mul_add, Nat.add_comm]
    rw [List.range_succ_eq_map, List.flatMap_cons, List.flatMap_map]
    simp only [Nat.succ_eq_add_one, hs, ih _ hd]
    simp only [Nat.mul_zero, Nat.zero_add, store64_load64 _ h0]
    simp [slice, List.take_append_drop]

end Sys2Proof.Machine
end

