-- ==== Sys2Proof/Laws/Sponge.lean ====
section
/-! SUPPORT. Laws of the sponge primitives and of the lengths they give. -/

namespace Sys2Proof.Machine

theorem rateValid_iff (r : Nat) : rateValid r = true ↔ 0 < r ∧ r % 8 = 0 ∧ r ≤ 200 := by
  simp [rateValid, and_assoc]

@[simp] theorem absorbBlocks_nil (a : Keccak) (rate : Nat) : absorbBlocks a [] rate = a := by simp [absorbBlocks]

@[simp] theorem squeeze_zero (a : Keccak) (rate : Nat) : squeeze a 0 rate = (a, []) := rfl

theorem squeeze_succ (a : Keccak) (n rate : Nat) :
    squeeze a (n + 1) rate =
      ((squeeze (permute a) n rate).1, extract (permute a) rate ++ (squeeze (permute a) n rate).2) := rfl

theorem squeeze_length (rate n : Nat) (h : rate % 8 = 0) (a : Keccak) : (squeeze a n rate).2.length = n * rate := by
  induction n generalizing a with
  | zero => simp
  | succ n ih =>
    rw [squeeze_succ, List.length_append, ih, extract_length, Nat.add_mul, Nat.one_mul]
    omega

/-- A byte string is whole blocks and a shorter rest. -/
theorem split_blocks (rate : Nat) (hr : 0 < rate) (s : Bytes) :
    ∃ whole rest, s = whole ++ rest ∧ whole.length % rate = 0 ∧ rest.length < rate := by
  refine ⟨s.take (s.length / rate * rate), s.drop (s.length / rate * rate), (List.take_append_drop _ _).symm, ?_, ?_⟩
  · rw [List.length_take, Nat.min_eq_left (Nat.div_mul_le_self _ _)]; simp
  · have := Nat.div_add_mod s.length rate
    have := Nat.mod_lt s.length hr
    rw [List.length_drop, Nat.mul_comm (s.length / rate)]; omega

/-- Induction over byte strings that are whole blocks. -/
theorem blocks_induction (rate : Nat) {P : Bytes → Prop} (nil : P [])
    (block : ∀ b s, b.length = rate → s.length % rate = 0 → P s → P (b ++ s)) (s : Bytes)
    (hs : s.length % rate = 0) : P s := by
  obtain ⟨n, hn⟩ : ∃ n, s.length = rate * n :=
    ⟨s.length / rate, by rw [Nat.mul_div_cancel' (Nat.dvd_of_mod_eq_zero hs)]⟩
  induction n generalizing s with
  | zero => exact (List.length_eq_zero_iff.mp (by simpa using hn) : s = []) ▸ nil
  | succ n ih =>
    have hl : (s.drop rate).length = rate * n := by rw [List.length_drop, hn, Nat.mul_succ]; omega
    have := block (s.take rate) (s.drop rate) (by rw [List.length_take, hn, Nat.mul_succ]; omega) (by rw [hl]; simp)
      (ih _ (by rw [hl]; simp) hl)
    simpa using this

theorem pad_length (t : Bytes) (dom : Byte) (rate : Nat) (h : t.length < rate) : (pad t dom rate).length = rate := by
  simp [pad]; omega

end Sys2Proof.Machine
end

