-- ==== Sys2Proof/Laws/Constructions.lean ====
section
/-! SUPPORT. Laws of the construction table and of the output lengths of the construction layer. -/

namespace Sys2Proof.Machine

/-- The three rates are valid and fit a byte. -/
theorem rateOfWidth_valid (w : Byte) : rateValid (rateOfWidth w) = true ∧ rateOfWidth w ≤ 168 := by
  unfold rateOfWidth
  split <;> decide

theorem rateOfWidth_mod (w : Byte) : rateOfWidth w % 8 = 0 := ((rateValid_iff _).mp (rateOfWidth_valid w).1).2.1

theorem le_ceilDiv_mul (l rate : Nat) (hr : 0 < rate) : l ≤ ceilDiv l rate * rate := by
  have := Nat.div_add_mod (l + rate - 1) rate
  have := Nat.mod_lt (l + rate - 1) hr
  rw [ceilDiv, Nat.mul_comm ((l + rate - 1) / rate)]; omega

theorem sha3Stage_length (a : Keccak) (w : Byte) (message : Bytes) :
    (sha3Stage a w message).2.length = min (sha3OutputBytes w) (rateOfWidth w) := by
  simp only [sha3Stage, List.length_take, squeeze_length _ _ (rateOfWidth_mod w), Nat.one_mul]

theorem kmacStage_length (a : Keccak) (w : Byte) (outLen : Nat) (tail : Bytes) :
    (kmacStage a w outLen tail).2.length = outLen := by
  have hr := ((rateValid_iff _).mp (rateOfWidth_valid w).1).1
  simp only [kmacStage, List.length_take, squeeze_length _ _ (rateOfWidth_mod w)]
  exact Nat.min_eq_left (le_ceilDiv_mul _ _ hr)

end Sys2Proof.Machine
end

