-- ==== Sys2Proof/Laws/Encoders.lean ====
section
/-! SUPPORT. Laws of the integer encoders. -/

namespace Sys2Proof.Machine

@[simp] theorem bigEndianBytes_length (v : Nat) : (bigEndianBytes v).length = byteLen v := by simp [bigEndianBytes]

theorem bigEndianBytes_reverse (v : Nat) : (bigEndianBytes v).reverse = storeLE (byteLen v) v := by
  simp [bigEndianBytes, storeLE, List.map_reverse]

theorem leftEncode_length (v : Nat) : (leftEncode v).length = byteLen v + 1 := by simp [leftEncode]

theorem rightEncode_length (v : Nat) : (rightEncode v).length = byteLen v + 1 := by simp [rightEncode]

theorem byteLen_pos (v : Nat) : 1 ≤ byteLen v := by
  unfold byteLen
  simp only [List.range', List.find?]
  (repeat' split) <;> simp

end Sys2Proof.Machine
end

