-- ==== Sys2Proof/Laws/Fft.lean ====
section
/-! SUPPORT. Laws of the FFT unit's buffers: what one update, one pair and one stage do, and that every function gives
the shape of R27 and R28. -/

namespace Sys2Proof.Machine

@[simp] theorem xorAt_length (buf : List Lane) (k : Nat) (v : Lane) : (xorAt buf k v).length = buf.length := by
  simp [xorAt]

theorem xorAt_word (buf : List Lane) (k : Nat) (v : Lane) (i : Nat) (hk : k < buf.length) :
    (xorAt buf k v).getD i 0 = if i = k then buf.getD i 0 ^^^ v else buf.getD i 0 := by
  simp only [xorAt, List.getD_eq_getElem?_getD, List.getElem?_modify]
  by_cases h : i = k
  · subst h; simp [hk]
  · simp [h, Ne.symm h]

/-- A property of the start that every step keeps holds at the end of a fold. -/
theorem foldl_keeps {α β : Type} (P : β → Prop) (f : β → α → β) (l : List α) (b : β) (start : P b)
    (step : ∀ b, ∀ a ∈ l, P b → P (f b a)) : P (l.foldl f b) := by
  induction l generalizing b with
  | nil => exact start
  | cons a l ih => exact ih _ (step _ _ (by simp) start) fun b a ha => step b a (by simp [ha])

theorem vecMulProduct_length (m : Nat) (f g : FftVector) : (vecMulProduct m f g).length = 2 * m - 1 :=
  foldl_keeps (fun b : List Lane => b.length = 2 * m - 1) _ _ _ (by simp) fun _ _ _ hb =>
    foldl_keeps (fun b : List Lane => b.length = 2 * m - 1) _ _ _ hb fun _ _ _ hb => by simpa using hb

theorem vecMulReduce_length (m : Nat) (poly : List Nat) (buf : List Lane) :
    (vecMulReduce m poly buf).length = buf.length :=
  foldl_keeps (fun b : List Lane => b.length = buf.length) _ _ _ rfl fun _ _ _ hb =>
    foldl_keeps (fun b : List Lane => b.length = buf.length) _ _ _ hb fun _ _ _ hb => by simpa using hb

theorem vecMul_length (c : Config) (f g : FftVector) : (vecMul c f g).length = c.fftM := by
  rw [vecMul, List.length_take, vecMulReduce_length, vecMulProduct_length]; omega

theorem radixConv_length (c : Config) (f : FftVector) : (radixConv c f).length = c.fftM := by
  rw [radixConv, show List.range 5 = [0, 1, 2, 3] ++ [4] from rfl, List.foldl_append]
  exact vecMul_length _ _ _

theorem vectorAt_set (out : List FftVector) (k : Nat) (v : FftVector) (j : Nat) (hk : k < out.length) :
    vectorAt (out.set k v) j = if j = k then v else vectorAt out j := by
  simp only [vectorAt, List.getD_eq_getElem?_getD]
  by_cases h : j = k
  · subst h; simp [hk]
  · simp [h, List.getElem?_set_ne (Ne.symm h)]

/-- Every pair of a stage lies in the output file. -/
theorem stagePairs_lt (i : Nat) (hi : i < 6) (pair : Nat × Nat) (h : pair ∈ stagePairs (2 ^ i)) :
    pair.1 + 2 ^ i < 64 :=
  (show ∀ i < 6, ∀ pair ∈ stagePairs (2 ^ i), pair.1 + 2 ^ i < 64 by decide) i hi pair h

/-- The reductions down to `k` are those down to `k + 1`, then the two masks of pair `k`. -/
theorem radixWord_succ (c : Config) (k : Nat) (v : Lane) (h : k < 5) :
    radixWord c k v =
      xorShift (xorShift (radixWord c (k + 1) v) (c.fftMask.getD k (0, 0)).1 (2 ^ k))
        (c.fftMask.getD k (0, 0)).2 (2 ^ k) := by
  interval_cases k <;> rfl

@[simp] theorem butterflyPair_length (c : Config) (s k : Nat) (g : FftVector) (out : List FftVector) :
    (butterflyPair c s k g out).length = out.length := by simp [butterflyPair]

/-- Every vector after one pair. -/
theorem butterflyPair_at (c : Config) (s k : Nat) (g : FftVector) (out : List FftVector) (j : Nat)
    (h : k + s < out.length) :
    vectorAt (butterflyPair c s k g out) j =
      if j = k + s then (vectorAt out (k + s)).xor ((vectorAt out k).xor (vecMul c (vectorAt out (k + s)) g))
      else if j = k then (vectorAt out k).xor (vecMul c (vectorAt out (k + s)) g)
      else vectorAt out j := by
  rw [butterflyPair, vectorAt_set _ _ _ _ (by simpa using h), vectorAt_set _ _ _ _ (by omega)]

/-- Two pairs of a stage with half-block size `s` share no vector. -/
abbrev pairsApart (s : Nat) (p q : Nat × Nat) : Prop := p.1 ≠ q.1 ∧ p.1 + s ≠ q.1 ∧ p.1 ≠ q.1 + s

/-- Pairs that share no vector each give their two vectors from the vectors before all of them. -/
theorem foldl_butterflyPair (c : Config) (s : Nat) (g : Nat × Nat → FftVector) (ps : List (Nat × Nat)) (hs : 0 < s)
    (apart : ps.Pairwise (pairsApart s)) (out : List FftVector) (lt : ∀ p ∈ ps, p.1 + s < out.length) :
    let out' := ps.foldl (fun o p => butterflyPair c s p.1 (g p) o) out
    out'.length = out.length ∧
    (∀ j, (∀ p ∈ ps, j ≠ p.1 ∧ j ≠ p.1 + s) → vectorAt out' j = vectorAt out j) ∧
    ∀ p ∈ ps,
      vectorAt out' p.1 = (vectorAt out p.1).xor (vecMul c (vectorAt out (p.1 + s)) (g p)) ∧
      vectorAt out' (p.1 + s) = (vectorAt out (p.1 + s)).xor (vectorAt out' p.1) := by
  induction ps generalizing out with
  | nil => simp
  | cons q ps ih =>
    obtain ⟨hq, apart⟩ := List.pairwise_cons.mp apart
    have hat := fun j => butterflyPair_at c s q.1 (g q) out j (lt q (by simp))
    obtain ⟨len, others, pairs⟩ := ih apart (butterflyPair c s q.1 (g q) out) fun p hp => by
      rw [butterflyPair_length]; exact lt p (by simp [hp])
    refine ⟨by rw [List.foldl_cons, len, butterflyPair_length], fun j hj => ?_, fun p hp => ?_⟩
    · have := hj q (by simp)
      rw [List.foldl_cons, others j fun p hp => hj p (by simp [hp]), hat, if_neg this.2, if_neg this.1]
    · rw [List.foldl_cons]
      rcases List.mem_cons.mp hp with rfl | hp
      · have e1 := others p.1 fun r hr => ⟨(hq r hr).1, (hq r hr).2.2⟩
        have e2 := others (p.1 + s) fun r hr => ⟨(hq r hr).2.1, by have := (hq r hr).1; omega⟩
        rw [e1, e2, hat, hat, if_neg (by omega), if_pos rfl, if_pos rfl]; exact ⟨rfl, rfl⟩
      · have := hq p hp
        obtain ⟨lower, upper⟩ := pairs p hp
        have e1 := hat p.1
        have e2 := hat (p.1 + s)
        rw [if_neg (by omega), if_neg (by omega)] at e1 e2
        rw [e1, e2] at lower
        rw [e2] at upper
        exact ⟨lower, upper⟩

/-- The pairs of stage `i` share no vector. -/
theorem stagePairs_apart (i : Nat) (hi : i < 6) : (stagePairs (2 ^ i)).Pairwise (pairsApart (2 ^ i)) := by
  let _ : ∀ s, DecidableRel (pairsApart s) := fun s p q => inferInstanceAs (Decidable (_ ∧ _ ∧ _))
  revert i; decide

/-- Every lower half of a block is in a pair of the stage, with its position in the block. -/
theorem mem_stagePairs (i k : Nat) (hi : i < 6) (hk : k < 64) (lower : k % 2 ^ (i + 1) < 2 ^ i) :
    (k, k % 2 ^ i) ∈ stagePairs (2 ^ i) := by
  simp only [stagePairs, List.mem_flatMap, List.mem_map, List.mem_range, Prod.mk.injEq]
  refine ⟨k / (2 * 2 ^ i), ?_, k % 2 ^ i, Nat.mod_lt _ (by positivity), ?_, rfl⟩ <;>
    interval_cases i <;> simp at * <;> omega

/-- Everything stage `i` does to the output file: every vector of it is the lower or the upper one of one pair. -/
theorem butterflyStage_at (c : Config) (i ptr : Nat) (hi : i < 6) (out : List FftVector) (len : out.length = 64) :
    (butterflyStage c (2 ^ i) ptr out).length = 64 ∧
    ∀ k < 64, k % 2 ^ (i + 1) < 2 ^ i →
      vectorAt (butterflyStage c (2 ^ i) ptr out) k =
        (vectorAt out k).xor (vecMul c (vectorAt out (k + 2 ^ i)) (c.fftConsts.getD (ptr + k % 2 ^ i) [])) ∧
      vectorAt (butterflyStage c (2 ^ i) ptr out) (k + 2 ^ i) =
        (vectorAt out (k + 2 ^ i)).xor (vectorAt (butterflyStage c (2 ^ i) ptr out) k) := by
  obtain ⟨len', _, pairs⟩ := foldl_butterflyPair c (2 ^ i) (fun p => c.fftConsts.getD (ptr + p.2) [])
    (stagePairs (2 ^ i)) (by positivity) (stagePairs_apart i hi) out
    (fun p hp => by rw [len]; exact stagePairs_lt i hi p hp)
  exact ⟨len'.trans len, fun k hk lower => pairs _ (mem_stagePairs i k hi hk lower)⟩

/-- The six stages, each with the running index it starts from. -/
theorem butterflies_eq (c : Config) (f : FftVector) :
    butterflies c f =
      butterflyStage c (2 ^ 5) 31 (butterflyStage c (2 ^ 4) 15 (butterflyStage c (2 ^ 3) 7
        (butterflyStage c (2 ^ 2) 3 (butterflyStage c (2 ^ 1) 1 (butterflyStage c (2 ^ 0) 0 (broadcast c f)))))) := by
  rw [butterflies, show List.range 6 = [0, 1, 2, 3, 4, 5] from rfl]
  simp only [List.foldl_cons, List.foldl_nil]
  norm_num

@[simp] theorem loadVector_length (m : Nat) (s : Bytes) : (loadVector m s).length = m := by simp [loadVector]

theorem loadVector_word (m : Nat) (s : Bytes) (i : Nat) (h : i < m) :
    (loadVector m s).word i = load64 (slice s (8 * i) (8 * i + 8)) := by simp [loadVector, FftVector.word, h]

theorem storeVector_length (m : Nat) (f : FftVector) : (storeVector m f).length = 8 * m := flatMap_store64_length _ _

end Sys2Proof.Machine
end

