-- ==== Sys2Proof/Laws/Permutation.lean ====
section
/-! SUPPORT. Each step function of the permutation, lane by lane. -/

namespace Sys2Proof.Machine

theorem theta_lane (a : Keccak) (i : Nat) (h : i < 25) : (theta a).lane i = a.lane i ^^^ thetaD a (i % 5) :=
  lane_ofLanes _ i h

theorem rhoPi_lane (a : Keccak) (j : Nat) (h : j < 25) :
    (rhoPi a).lane j = rotl64 (a.lane (piDst.idxOf j)) (rhoTable.getD (piDst.idxOf j) 0) := lane_ofLanes _ j h

theorem chi_lane (a : Keccak) (i : Nat) (h : i < 25) :
    (chi a).lane i = a.lane i ^^^ (~~~ a.laneXY (i % 5 + 1) (i / 5) &&& a.laneXY (i % 5 + 2) (i / 5)) :=
  lane_ofLanes _ i h

theorem iota_lane (a : Keccak) (r i : Nat) (h : i < 25) :
    (iota a r).lane i = if i = 0 then a.lane 0 ^^^ rc r else a.lane i := lane_ofLanes _ i h

theorem setLane_lane (a : Keccak) (i : Nat) (v : Lane) (j : Nat) (h : j < 25) :
    (a.setLane i v).lane j = if j = i then v else a.lane j := by
  rw [lane_eq_getElem _ _ h, lane_eq_getElem _ _ h]
  by_cases hji : j = i
  · subst hji; simp [Keccak.setLane]
  · simp [Keccak.setLane, hji, Ne.symm hji]

theorem loadState_lane (s : Bytes) (i : Nat) (h : i < 25) :
    (loadState s).lane i = load64 (slice s (8 * i) (8 * i + 8)) := lane_ofLanes _ i h

end Sys2Proof.Machine
end

