-- ==== Sys2Proof/Machine/Listing.lean ====
section
/-! DEFINITION. The listing syntax and the pseudo-instructions (spec/30_encoding.md R95, R96): names that documentation
gives to commands. A pseudo-instruction is another spelling of a command and has no encoding of its own. -/

namespace Sys2Proof

/-! ### Pseudo-instructions (R96) -/

/-- `rate(w)` as it stands in the `A` field. -/
def rateField (w : Byte) : Byte := BitVec.ofNat 8 (Machine.rateOfWidth w)

/-- `SHA3_INIT`. -/
def Instr.sha3Init : Instr := .zero

/-- `SHA3_UPDATE.w blocks`. -/
def Instr.sha3Update (w : Byte) (blocks : Bytes) : Instr := .blockupdate (rateField w) blocks

/-- `KMAC_UPDATE.w blocks`. -/
def Instr.kmacUpdate (w : Byte) (blocks : Bytes) : Instr := .blockupdate (rateField w) blocks

/-- `CSHAKE_SQUEEZE.w n`. -/
def Instr.cshakeSqueeze (w : Byte) (n : Word32) : Instr := .shakeSqueeze w n

/-! ### Listing lines (R95) -/

/-- An operand of a listing line. -/
inductive ListedOperand where
  | integer (n : Nat)
  | payload (p : Bytes)
  deriving DecidableEq, Repr

/-- The suffix `.128`, `.256` or `.512` that stands for `w`; no other selector has one. -/
def widthSuffix (w : Byte) : Option String :=
  match w.toNat with
  | 0 => some ".128"
  | 1 => some ".256"
  | 2 => some ".512"
  | _ => none

/-- The mnemonic's suffix: the width where the command has one. -/
def Instr.suffix : Instr → Option String
  | .sha3Compute w _ | .sha3Final w _ | .shakeInit w _ | .shakeSqueeze w _ | .shakeCompute w _ _
  | .cshakeInit w _ _ _ | .cshakeCompute w _ _ _ _ | .kmacInit w _ _ | .kmacFinal w _ _
  | .kmacCompute w _ _ _ _ => widthSuffix w
  | .zero | .ldstate _ | .ststate | .permute | .round _ | .theta | .rhopi | .chi | .iota _ | .absorb _ _ _
  | .squeeze _ _ | .blockupdate _ _ | .lenc _ | .renc _ | .fftLd _ | .fftRadix | .fftBfly | .fft | .fftSt _
  | .fftStin => some ""

/-- The operands in listing order: the word fields, then `N` or `V`, then the payloads. -/
def Instr.listedOperands (i : Instr) : List ListedOperand :=
  (match i with
    | .round x | .iota x | .fftSt x | .blockupdate x _ => [.integer x.toNat]
    | .absorb rate dom _ => [.integer rate.toNat, .integer dom.toNat]
    | .squeeze rate n => [.integer rate.toNat, .integer n.toNat]
    | .shakeSqueeze _ n | .shakeCompute _ n _ | .cshakeCompute _ n _ _ _ | .kmacFinal _ n _
    | .kmacCompute _ n _ _ _ => [.integer n.toNat]
    | .lenc v | .renc v => [.integer v.toNat]
    | .zero | .ldstate _ | .ststate | .permute | .theta | .rhopi | .chi | .sha3Compute _ _ | .sha3Final _ _
    | .shakeInit _ _ | .cshakeInit _ _ _ _ | .kmacInit _ _ _ | .fftLd _ | .fftRadix | .fftBfly | .fft
    | .fftStin => []) ++ i.payloads.map .payload

/-- Two hexadecimal digits. -/
def hexByte (b : Byte) : String :=
  String.ofList [Nat.digitChar (b.toNat / 16), Nat.digitChar (b.toNat % 16)]

/-- An operand's text: a decimal integer, or `x"hexdigits"`. -/
def ListedOperand.text : ListedOperand → String
  | .integer n => toString n
  | .payload p => "x\"" ++ String.join (p.map hexByte) ++ "\""

/-- The listing line of a command; none for a width selector that has no suffix. -/
def Instr.listing (i : Instr) : Option String :=
  i.suffix.map fun suffix =>
    i.row.mnemonic ++ suffix ++
      (if i.listedOperands = [] then "" else " " ++ String.intercalate ", " (i.listedOperands.map ListedOperand.text))

end Sys2Proof
end

