-- ==== Sys2Proof/Tests/Slice0.lean ====
section
/-! SUPPORT. The model's own tests. Expected values are the spec's: spec/30_encoding.md R97 and the vectors V and
programs P of spec/95_test_vectors.md, named at each test. `witness_<Name>` shows that the hypotheses of
`Obligations.<Name>` can be met, clause by clause, at boundary values. -/

set_option maxRecDepth 20000

namespace Sys2Proof.Tests

open Sys2Proof Sys2Proof.Machine

/-! ### A small engine: the toy parameters, table set B (95_test_vectors.md 2.6), with 4096-byte buffers (V70) -/

def toy : Config where
  ibufBytes := 4096
  obufBytes := 4096
  fftM := 12
  fftPoly := [3, 0]
  fftMask := Config.defaultMask
  fftScal := (List.range 5).map fun j => FftVector.bcast 12 (2 ^ j ||| 1)
  fftConsts := (List.range 63).map fun k => FftVector.bcast 12 (k + 1)
  fftRev := Config.bitReversal

/-- Table set A: every constant vector is `bcast(1)`. -/
def toyA : Config :=
  { toy with
    fftScal := List.replicate 5 (FftVector.bcast 12 1)
    fftConsts := List.replicate 63 (FftVector.bcast 12 1) }

/-- The engine after reset, with parameters `c`. -/
def engine (c : Config) : State :=
  { a := Keccak.zero, err := 0, fin := FftVector.zero 12, fout := List.replicate 64 (FftVector.zero 12),
    inReset := false, cfg := c, program := [], cp := 0, responses := [] }

def start : State := engine toy

/-- An engine that has latched BadLength. -/
def faulted : State := start.setErr 5

/-- `A[i] = i`. -/
def counting : Keccak := Keccak.ofLanes fun i => BitVec.ofNat 64 i

/-- The state in an outcome that is one. -/
def next : Host.Outcome State Fault Refusal → State
  | .next t => t
  | .fault f => nomatch f
  | .refused _ => start

/-- Whether an outcome is a next state. -/
def goesOn : Host.Outcome State Fault Refusal → Bool
  | .next _ => true
  | .fault _ => false
  | .refused _ => false

/-- The state after one packet. -/
def after (s : State) (packet : Bytes) : State := next (step (s.placePacket packet))

/-- The last response on the wire. -/
def answer (s : State) : Bytes := (s.responses.getLast?.map Response.packet).getD []

/-- The `ERR` that one packet leaves on `start`. -/
def status (packet : Bytes) : Byte := (after start packet).err

theorem test_toy_valid : toy.Valid := by decide

theorem test_reset_valid : State.reset.cfg.Valid := implemented_valid

/-! ### Well-formedness: one ill-formed term per check -/

theorem test_round_index_checked : ¬ WellFormed (.round 24) ∧ WellFormed (.round 23) := by decide

theorem test_iota_index_checked : ¬ WellFormed (.iota 24) ∧ WellFormed (.iota 23) := by decide

theorem test_vector_index_checked : ¬ WellFormed (.fftSt 64) ∧ WellFormed (.fftSt 63) := by decide

theorem test_sha3_selector_checked :
    ¬ WellFormed (.sha3Compute 0 []) ∧ ¬ WellFormed (.sha3Final 3 []) ∧ WellFormed (.sha3Compute 1 []) ∧
    WellFormed (.sha3Final 2 []) := by decide

theorem test_selector_checked :
    ¬ WellFormed (.shakeInit 3 []) ∧ ¬ WellFormed (.shakeSqueeze 3 0) ∧ ¬ WellFormed (.shakeCompute 3 0 []) ∧
    ¬ WellFormed (.cshakeInit 3 [] [] []) ∧ ¬ WellFormed (.cshakeCompute 3 0 [] [] []) ∧
    ¬ WellFormed (.kmacInit 3 [] []) ∧ ¬ WellFormed (.kmacFinal 3 0 []) ∧ ¬ WellFormed (.kmacCompute 3 0 [] [] []) ∧
    WellFormed (.shakeInit 2 []) ∧ WellFormed (.kmacCompute 0 0 [] [] []) := by decide

theorem test_payload_length_checked : ¬ WellFormed (.ldstate (List.replicate (2 ^ 32) 0)) := by
  simp only [WellFormed, Instr.wellFormed, Instr.lengthsFit, Instr.payloads, List.all_cons, List.length_replicate, Nat.lt_irrefl,
    decide_false, Bool.false_and, Bool.and_false, Bool.false_eq_true, not_false_eq_true]

/-! ### Decoding: every row's word written out from R82, R83 and R90 (bytes least significant first) -/

theorem test_decode_state_utilities :
    decode [0x00, 0x00, 0x00, 0x01] = .ok .zero ∧
    decode [0x00, 0x00, 0x00, 0x02, 0x02, 0x00, 0x00, 0x00, 0xAB, 0xCD] = .ok (.ldstate [0xAB, 0xCD]) ∧
    decode [0x00, 0x00, 0x00, 0x03] = .ok .ststate := by decide

theorem test_decode_permutation :
    decode [0x00, 0x00, 0x00, 0x10] = .ok .permute ∧ decode [0x00, 0x00, 0x17, 0x11] = .ok (.round 23) ∧
    decode [0x00, 0x00, 0x00, 0x12] = .ok .theta ∧ decode [0x00, 0x00, 0x00, 0x13] = .ok .rhopi ∧
    decode [0x00, 0x00, 0x00, 0x14] = .ok .chi ∧ decode [0x00, 0x00, 0x05, 0x15] = .ok (.iota 5) := by decide

theorem test_decode_sponge :
    decode [0x00, 0x06, 0x88, 0x20, 0x03, 0x00, 0x00, 0x00, 0x61, 0x62, 0x63] =
      .ok (.absorb 136 6 [0x61, 0x62, 0x63]) ∧
    decode [0x00, 0x00, 0x88, 0x21, 0x01, 0x02, 0x03, 0x04] = .ok (.squeeze 136 0x04030201) ∧
    decode [0x00, 0x00, 0xA8, 0x22, 0x01, 0x00, 0x00, 0x00, 0x7F] = .ok (.blockupdate 168 [0x7F]) := by decide

theorem test_decode_sha3_and_shake :
    decode [0x00, 0x00, 0x01, 0x30, 0x00, 0x00, 0x00, 0x00] = .ok (.sha3Compute 1 []) ∧
    decode [0x00, 0x00, 0x01, 0x31, 0x01, 0x00, 0x00, 0x00, 0x00] = .ok (.sha3Final 1 [0]) ∧
    decode [0x00, 0x00, 0x00, 0x34, 0x03, 0x00, 0x00, 0x00, 0x61, 0x62, 0x63] = .ok (.shakeInit 0 [0x61, 0x62, 0x63]) ∧
    decode [0x00, 0x00, 0x00, 0x35, 0x01, 0x00, 0x00, 0x00] = .ok (.shakeSqueeze 0 1) ∧
    decode [0x00, 0x00, 0x00, 0x36, 0x50, 0x01, 0x00, 0x00, 0x03, 0x00, 0x00, 0x00, 0x61, 0x62, 0x63] =
      .ok (.shakeCompute 0 336 [0x61, 0x62, 0x63]) := by decide

theorem test_decode_cshake_and_kmac :
    decode [0x00, 0x00, 0x01, 0x38, 0x01, 0x00, 0x00, 0x00, 0x0A, 0x01, 0x00, 0x00, 0x00, 0x0B, 0x01, 0x00, 0x00, 0x00,
      0x0C] = .ok (.cshakeInit 1 [0x0A] [0x0B] [0x0C]) ∧
    decode [0x00, 0x00, 0x00, 0x39, 0x20, 0x00, 0x00, 0x00, 0x04, 0x00, 0x00, 0x00, 0x00, 0x01, 0x02, 0x03,
      0x00, 0x00, 0x00, 0x00, 0x01, 0x00, 0x00, 0x00, 0x45] = .ok (.cshakeCompute 0 32 [0, 1, 2, 3] [] [0x45]) ∧
    decode [0x00, 0x00, 0x00, 0x3C, 0x02, 0x00, 0x00, 0x00, 0x40, 0x41, 0x01, 0x00, 0x00, 0x00, 0x4D] =
      .ok (.kmacInit 0 [0x40, 0x41] [0x4D]) ∧
    decode [0x00, 0x00, 0x00, 0x3D, 0x20, 0x00, 0x00, 0x00, 0x04, 0x00, 0x00, 0x00, 0x00, 0x01, 0x02, 0x03] =
      .ok (.kmacFinal 0 32 [0, 1, 2, 3]) ∧
    decode [0x00, 0x00, 0x02, 0x3E, 0x10, 0x00, 0x00, 0x00, 0x01, 0x00, 0x00, 0x00, 0x0A, 0x01, 0x00, 0x00, 0x00, 0x0B,
      0x01, 0x00, 0x00, 0x00, 0x0C] = .ok (.kmacCompute 2 16 [0x0A] [0x0B] [0x0C]) := by decide

theorem test_decode_encoders_and_fft :
    decode [0x00, 0x00, 0x00, 0x40, 0x88, 0x00, 0x00, 0x00, 0x00, 0x00, 0x00, 0x00] = .ok (.lenc 136) ∧
    decode [0x00, 0x00, 0x00, 0x41, 0x01, 0x02, 0x03, 0x04, 0x05, 0x06, 0x07, 0x08] = .ok (.renc 0x0807060504030201) ∧
    decode [0x00, 0x00, 0x00, 0x50, 0x01, 0x00, 0x00, 0x00, 0xEE] = .ok (.fftLd [0xEE]) ∧
    decode [0x00, 0x00, 0x00, 0x51] = .ok .fftRadix ∧ decode [0x00, 0x00, 0x00, 0x52] = .ok .fftBfly ∧
    decode [0x00, 0x00, 0x00, 0x53] = .ok .fft ∧ decode [0x00, 0x00, 0x3F, 0x54] = .ok (.fftSt 63) ∧
    decode [0x00, 0x00, 0x00, 0x55] = .ok .fftStin := by decide

/-- The table words of spec/opcode_table.json, bit 0 the least significant bit of the word. -/
theorem test_table_words :
    decodeTableWord 32 0x10000000 = some .permute ∧ decodeTableWord 32 0x20880600 = some (.absorb 136 6 []) ∧
    decodeTableWord 32 0x40000000 = some (.lenc 0) ∧ decodeTableWord 32 0x3E020000 = some (.kmacCompute 2 0 [] [] []) ∧
    decodeTableWord 32 0x54400000 = some (.fftSt 64) ∧ decodeTableWord 32 0x10000001 = none := by decide

/-- R96, R95: the pseudo-instructions and a listing line. -/
theorem test_pseudo_instructions :
    encode (.kmacUpdate 0 [0x7F]) = [0x00, 0x00, 0xA8, 0x22, 0x01, 0x00, 0x00, 0x00, 0x7F] ∧
    encode .sha3Init = [0x00, 0x00, 0x00, 0x01] ∧ Instr.sha3Update 1 [] = .blockupdate 136 [] ∧
    Instr.cshakeSqueeze 2 1 = .shakeSqueeze 2 1 ∧ (Instr.squeeze 136 1).listing = some "SQUEEZE 136, 1" ∧
    (Instr.sha3Compute 1 []).listing = some "SHA3_COMPUTE.256 x\"\"" := by decide

/-! ### State utilities -/

/-- V80. -/
theorem test_zero : (after (start.setA counting) [0x00, 0x00, 0x00, 0x01]).a = Keccak.zero := by decide

/-- V81: byte `8i` is `i`. -/
theorem test_ststate : (answer (after (start.setA counting) [0x00, 0x00, 0x00, 0x03])).take 24 =
    [0x00, 0x00, 0x00, 0x00, 0xC8, 0x00, 0x00, 0x00, 0x00, 0x00, 0x00, 0x00, 0x00, 0x00, 0x00, 0x00,
     0x01, 0x00, 0x00, 0x00, 0x00, 0x00, 0x00, 0x00] := by decide

/-- V81, read the other way. -/
theorem test_ldstate : (next (exec (.ldstate ((List.range 200).map fun k => BitVec.ofNat 8 (if k % 8 = 0 then k / 8 else 0)))
    start)).a = counting := by decide

/-- V83. -/
theorem test_xorBlock :
    (xorBlock Keccak.zero [1, 2, 3, 4, 5, 6, 7, 8, 0x11, 0x12, 0x13, 0x14, 0x15, 0x16, 0x17, 0x18] 16).lane 1 =
      0x1817161514131211 := by decide

/-! ### The permutation -/

/-- V10 (a), (b). -/
theorem test_theta :
    (theta (Keccak.zero.setLane 0 1)).lane 4 = 2 ∧ (theta counting).lane 0 = 0x1A ∧ (theta counting).lane 19 = 0x38 := by
  decide

/-- V11 (a), (b). -/
theorem test_rhopi :
    (rhoPi counting).lane 9 = 0xC000000000000002 ∧ (rhoPi counting).lane 4 = 0x60000 ∧
    (rhoPi (Keccak.zero.setLane 24 0x8000000000000001)).lane 4 = 0x6000 := by decide

/-- V11 (d). -/
theorem test_chi :
    (List.range 5).map (chi (((Keccak.zero.setLane 0 0xFF).setLane 1 0x0F).setLane 2 0x3C)).lane =
      [0xCF, 0x0F, 0x3C, 0xFF, 0] := by decide

/-- V11 (e). -/
theorem test_iota :
    (after start [0x00, 0x00, 0x01, 0x15]).a.lane 0 = 0x8082 ∧
    (after start [0x00, 0x00, 0x17, 0x15]).a.lane 0 = 0x8000000080008008 := by decide

/-- V12 (c). -/
theorem test_round :
    (after (start.setA counting) [0x00, 0x00, 0x00, 0x11]).a.lane 0 = 0x000018000000001B ∧
    (after (start.setA counting) [0x00, 0x00, 0x00, 0x11]).a.lane 24 = 0x0B00000000000074 := by decide

/-- V13. -/
theorem test_permute : let a := (after start [0x00, 0x00, 0x00, 0x10]).a
    (a.lane 0, a.lane 24) = (0xF1258F7940E1DDE7, 0xEAF1FF7B5CECA249) := by decide +kernel

/-! ### The sponge -/

/-- V21. -/
theorem test_absorb :
    (after start [0x00, 0x06, 0x88, 0x20, 0x03, 0x00, 0x00, 0x00, 0x61, 0x62, 0x63]).a.lane 0 = 0x0000000006636261 ∧
    (next (exec (.absorb 72 6 (List.replicate 71 0xAA)) start)).a.lane 8 = 0x86AAAAAAAAAAAAAA ∧
    (next (exec (.absorb 8 0x1F (List.replicate 7 0)) start)).a.lane 0 = 0x9F00000000000000 := by decide

/-- V25. -/
theorem test_squeeze_nothing :
    answer (after (start.setA counting) [0x00, 0x00, 0x88, 0x21, 0x00, 0x00, 0x00, 0x00]) =
      [0x00, 0x00, 0x00, 0x00, 0x00, 0x00, 0x00, 0x00] := by decide

/-- V23. -/
theorem test_blockupdate :
    (after start [0x00, 0x00, 0x08, 0x22, 0x08, 0x00, 0x00, 0x00, 0, 0, 0, 0, 0, 0, 0, 0]).a.lane 0 =
      0xF1258F7940E1DDE7 := by decide +kernel

/-! ### The constructions -/

/-- V30, `abc`: the first eight bytes of the digest. -/
theorem test_sha3Compute :
    (answer (after start [0x00, 0x00, 0x01, 0x30, 0x03, 0x00, 0x00, 0x00, 0x61, 0x62, 0x63])).take 16 =
      [0x00, 0x00, 0x00, 0x00, 0x20, 0x00, 0x00, 0x00, 0x3A, 0x98, 0x5D, 0xA7, 0x4F, 0xE2, 0x25, 0xB2] := by
  decide +kernel

/-- V34, the last row: nothing is permuted and nothing squeezed. -/
theorem test_shakeCompute_nothing :
    (after start [0x00, 0x00, 0x00, 0x36, 0, 0, 0, 0, 0, 0, 0, 0]).a.lane 20 = 0x8000000000000000 := by decide

/-- V34, the first row: the first four bytes. -/
theorem test_shakeCompute :
    ((answer (after start [0x00, 0x00, 0x00, 0x36, 0x20, 0, 0, 0, 0, 0, 0, 0])).drop 8).take 4 =
      [0x7F, 0x9C, 0x2B, 0xA4] := by decide +kernel

/-- V41, name only: the first four bytes. -/
theorem test_cshakeCompute :
    ((next (exec (.cshakeCompute 0 16 [] [0x4E] []) start)).responses.map fun r => r.out.take 4) =
      [[0x40, 0xC4, 0xD9, 0xBC]] := by decide +kernel

/-- V47: the first four bytes. -/
theorem test_kmacCompute :
    ((next (exec (.kmacCompute 0 16 [] [] []) start)).responses.map fun r => r.out.take 4) =
      [[0xE6, 0xAF, 0xF2, 0x7F]] := by decide +kernel

/-- P2: the state after `SHAKE_INIT.128 "abc"`. -/
theorem test_shakeInit :
    (after start [0x00, 0x00, 0x00, 0x34, 0x03, 0x00, 0x00, 0x00, 0x61, 0x62, 0x63]).a.lane 0 = 0x000000001F636261 := by
  decide

/-! ### The encoders (V50) -/

theorem test_lenc :
    leftEncode 0 = [0x01, 0x00] ∧ leftEncode 256 = [0x02, 0x01, 0x00] ∧
    answer (after start [0x00, 0x00, 0x00, 0x40, 0x88, 0, 0, 0, 0, 0, 0, 0]) = [0, 0, 0, 0, 2, 0, 0, 0, 0x01, 0x88] := by
  decide

theorem test_renc :
    rightEncode 65535 = [0xFF, 0xFF, 0x02] ∧ rightEncode (2 ^ 32) = [0x01, 0, 0, 0, 0, 0x05] ∧
    rightEncode (2 ^ 64 - 1) = [0xFF, 0xFF, 0xFF, 0xFF, 0xFF, 0xFF, 0xFF, 0xFF, 0x08] := by decide

/-! ### The FFT unit -/

/-- The table of R258. -/
theorem test_bitReversal : Config.bitReversal.take 8 = [0, 32, 16, 48, 8, 40, 24, 56] ∧
    Config.bitReversal.getD 63 0 = 63 := by decide

/-- V60. -/
theorem test_vecMul :
    vecMul toy (FftVector.bcast 12 0xFFF) (FftVector.bcast 12 0xFFF) = FftVector.bcast 12 0xABA ∧
    vecMul toy (FftVector.bcast 12 0x123) (FftVector.bcast 12 0x456) = FftVector.bcast 12 0x21F := by decide +kernel

/-- V61. -/
theorem test_fftRadix :
    (next (exec .fftRadix ((engine toyA).setFin (0x8000000000000000 :: List.replicate 11 0)))).fin =
      0xFFFFFFFFFFFF000E :: List.replicate 11 0 := by decide +kernel

/-- The smallest field, `m = 1`, with every constant vector `bcast(1)`: every `VecMul` is the identity. -/
def bitEngine (f : Lane) : State :=
  { engine { toy with
      fftM := 1, fftPoly := [0], fftScal := List.replicate 5 (FftVector.bcast 1 1),
      fftConsts := List.replicate 63 (FftVector.bcast 1 1) } with
    fin := [f], fout := List.replicate 64 [0] }

/-- V62, the row of bit 1 (word 0 of every vector is the same for every `m`, since the products are the identity). -/
theorem test_fftBfly :
    (next (exec .fftBfly (bitEngine 2))).fout = List.replicate 32 [ones] ++ List.replicate 32 [0] := by decide +kernel

/-- V63, the input file: the radix conversion by table set B. -/
theorem test_fft :
    radixConv toy (1 :: List.replicate 11 0) = [1, 1, 1, 0, 0, 0, 0, 0, 1, 1, 1, 0] ∧
    (next (exec .fft (bitEngine 1))).fout = List.replicate 64 [ones] := by decide +kernel

/-- R260, R265: word 0 first, little-endian. -/
theorem test_fftLd :
    (next (exec (.fftLd ((List.range 96).map (BitVec.ofNat 8))) start)).fin.word 1 = 0x0F0E0D0C0B0A0908 := by decide

/-- V66. -/
theorem test_fftSt : status [0x00, 0x00, 0x3F, 0x54] = 0 ∧ status [0x00, 0x00, 0x40, 0x54] = 4 := by decide

/-! ### Faults (V70, P5) -/

theorem test_illegal_commands :
    [[0x00, 0x00, 0x00, 0x00], [0xFF, 0xFF, 0xFF, 0xFF], [0x00, 0x00, 0x10], [0x01, 0x00, 0x00, 0x10],
     [0x00, 0x00, 0x01, 0x10], [0x00, 0x01, 0x88, 0x22, 0, 0, 0, 0], [0x00, 0x00, 0x18, 0x15],
     [0x00, 0x00, 0x03, 0x34, 0, 0, 0, 0], [0x00, 0x06, 0x88, 0x20], [0x00, 0x06, 0x88, 0x20, 0, 0, 0, 0, 0],
     [0x00, 0x06, 0x88, 0x20, 5, 0, 0, 0, 1, 2, 3]].map status = List.replicate 11 4 := by decide

theorem test_operand_faults :
    [[0x00, 0x06, 0x00, 0x20, 0, 0, 0, 0], [0x00, 0x06, 0x04, 0x20, 0, 0, 0, 0], [0x00, 0x06, 0xD0, 0x20, 0, 0, 0, 0],
     [0x00, 0x00, 0x0C, 0x21, 1, 0, 0, 0], [0x00, 0x00, 0x07, 0x22, 9, 0, 0, 0] ++ zeros 9,
     [0x00, 0x00, 0x88, 0x22, 0x87, 0, 0, 0] ++ zeros 135, [0x00, 0x00, 0x00, 0x02, 0xC7, 0, 0, 0] ++ zeros 199,
     [0x00, 0x00, 0x88, 0x21, 0x1F, 0, 0, 0], [0x00, 0x00, 0x00, 0x36, 0x01, 0x10, 0, 0, 0, 0, 0, 0]].map status =
      [1, 1, 1, 1, 1, 5, 5, 2, 2] := by decide +kernel

/-- P5: after a fault even ZERO is refused and changes nothing. -/
theorem test_refusal :
    (after (faulted.setA counting) [0x00, 0x00, 0x00, 0x01]).a = counting ∧
    answer (after faulted [0x00, 0x00, 0x00, 0x01]) = [0x05, 0, 0, 0, 0, 0, 0, 0] := by decide

/-! ### Witnesses -/

theorem witness_RotateLeftMovesEveryBit :
    (63 ≤ 63 ∧ 0 < 63 ∧ 63 < 64) ∧ rotl64 1 63 = 0x8000000000000000 ∧ rotl64 0x8000000000000001 1 = 3 := by decide

theorem witness_ByteViewIsTheLanesLittleEndian : 199 < 200 ∧ 24 < 25 ∧ counting.byteView 192 = 24 := by decide

theorem witness_ResetLeavesEveryRegisterZero : fetch { State.reset with program := [] } = none ∧ 24 < 25 :=
  ⟨rfl, by decide⟩

theorem witness_UnitsShareNoRegister :
    (exec .fftStin start = .next (next (exec .fftStin start)) ∧ (Instr.fftStin).row.mnemonic ∈
      ["STSTATE", "LENC", "RENC", "FFT_LD", "FFT_RADIX", "FFT_BFLY", "FFT", "FFT_ST", "FFT_STIN"]) ∧
    (Instr.fftStin).row.mnemonic ∉ ["FFT_LD", "FFT_RADIX", "FFT"] ∧ (Instr.fftRadix).row.mnemonic ∉ ["FFT_BFLY", "FFT"] :=
  ⟨⟨rfl, by decide⟩, by decide, by decide⟩

theorem witness_UnitsLearnNothingOfEachOther :
    (exec .theta start = .next (next (exec .theta start)) ∧ (Instr.theta).row.op.toNat < 0x50) ∧
    (exec (.fftSt 63) start = .next (next (exec (.fftSt 63) start)) ∧ 0x50 ≤ (Instr.fftSt 63).row.op.toNat) :=
  ⟨⟨rfl, by decide⟩, rfl, by decide⟩

theorem witness_DecodeReadsBackEveryEncoding :
    (Instr.kmacCompute 255 0xFFFFFFFF [0] [] [1, 2]).lengthsFit = true := by decide

theorem witness_DecodedPacketIsItsEncoding : decode [0x00, 0x00, 0x3F, 0x54] = .ok (.fftSt 63) := by decide

theorem witness_ShorterOrLongerPacketIsMalformed :
    ([0] : Bytes) ≠ [] ∧ decode [0x00, 0x00, 0x00, 0x10] = .ok .permute ∧
    ([0x01, 0x00, 0x00, 0x00] : Bytes) ≠ [] ∧
    decode ([0x00, 0x00, 0x88, 0x21] ++ [0x01, 0x00, 0x00, 0x00]) = .ok (.squeeze 136 1) := by decide

theorem witness_WordBelongsToRowIffMaskMatches :
    (⟨"FFT_ST", 0x54, .i⟩ : OpcodeRow) ∈ opcodeTable ∧ decode [0x00, 0x00, 0xFF, 0x54] = .ok (.fftSt 255) := by decide

theorem witness_ReservedEncodingIsNeverACommand :
    (∀ row ∈ opcodeTable, fieldOp 0x56000000 ≠ row.op) ∧ fieldZ 0x10000001 ≠ 0 ∧
    (∀ row ∈ opcodeTable, (0x10010000 : Word32) &&& row.format.mask ≠ row.matchWord) := by decide

theorem witness_StepRunsTheDecodedCommand :
    (fetch (start.placePacket [0, 0, 0, 0x12]) = some (.packet [0, 0, 0, 0x12]) ∧ decode [0, 0, 0, 0x12] = .ok .theta) ∧
    (fetch (start.placePacket [0, 0, 0]) = some (.packet [0, 0, 0]) ∧ decode [0, 0, 0] = .error .shortPacket ∧
      (start.placePacket [0, 0, 0]).err = 0) ∧ fetch start = none ∧
    (start.placePacket [0, 0, 0, 0x12]).inReset = false ∧ (start.placePacket [0, 0, 0]).inReset = false := by decide

theorem witness_EveryPacketGetsOneResponse :
    (faulted.placePacket []).inReset = false ∧
    fetch (faulted.placePacket []) = some (.packet []) ∧
    goesOn (step (faulted.placePacket [])) = true := by decide

/-- `s.err = 0`, the hypothesis every command's statement shares, and the sizes of the small engine's buffers. -/
theorem witness_healthy : start.err = 0 ∧ start.cfg.ibufBytes = 4096 ∧ start.cfg.obufBytes = 4096 ∧
    start.cfg.fftM = 12 := by decide

theorem witness_ZeroClearsTheState : start.err = 0 ∧ 24 < 25 := by decide

theorem witness_LdstateLoadsEveryLane :
    start.err = 0 ∧ (zeros 200).length = 200 ∧ (zeros 199).length ≠ 200 := by decide

theorem witness_StstateEmitsTheByteView : start.err = 0 ∧ 199 < 200 := by decide

theorem witness_XorBlockAndExtractTouchOnlyTheRate :
    rateValid 200 = true ∧ rateValid 8 = true ∧ (zeros 200).length = 200 ∧ (zeros 8).length = 8 ∧ 199 < 200 := by decide

/-- The two functions the statement asks for are the column parities and their combinations. -/
theorem witness_ThetaMixesColumnParities :
    start.err = 0 ∧
    (∀ x, columnParity start.a x = start.a.laneXY x 0 ^^^ start.a.laneXY x 1 ^^^ start.a.laneXY x 2 ^^^
      start.a.laneXY x 3 ^^^ start.a.laneXY x 4) ∧ (4 < 5 ∧ 4 < 5) := ⟨rfl, fun _ => rfl, by decide⟩

/-- The walks and the register the statement asks for exist. -/
theorem witness_PermutationTablesFollowTheirRules :
    (∃ walk : Nat → Nat × Nat, walk 0 = (1, 0) ∧ ∀ t, walk (t + 1) = ((walk t).2, (2 * (walk t).1 + 3 * (walk t).2) % 5)) ∧
    (∃ c : Nat → Nat, c 0 = 1 ∧ ∀ k, c (k + 1) = piDst.getD (c k) 0) ∧
    (∃ reg : Nat → Nat, reg 0 = 1 ∧
      ∀ n, reg (n + 1) = if (reg n * 2).testBit 8 then (reg n * 2) ^^^ 0x171 else reg n * 2) ∧ 23 < 24 ∧ 63 < 64 :=
  ⟨⟨fun n => Nat.rec (1, 0) (fun _ p => (p.2, (2 * p.1 + 3 * p.2) % 5)) n, rfl, fun _ => rfl⟩,
    ⟨fun n => Nat.rec 1 (fun _ p => piDst.getD p 0) n, rfl, fun _ => rfl⟩,
    ⟨fun n => Nat.rec 1 (fun _ p => if (p * 2).testBit 8 then (p * 2) ^^^ 0x171 else p * 2) n, rfl, fun _ => rfl⟩,
    by decide⟩

theorem witness_RhopiRotatesAndRelocates : start.err = 0 ∧ 24 < 25 ∧ 4 < 5 := by decide

theorem witness_ChiMixesEachRow : start.err = 0 ∧ 4 < 5 := by decide

theorem witness_IotaChangesLaneZeroOnly :
    start.err = 0 ∧ (23 : Byte).toNat ≤ 23 ∧ 23 < (24 : Byte).toNat ∧ 1 ≤ 24 ∧ 24 < 25 := by decide

theorem witness_RoundIsItsFourSteps : start.err = 0 ∧ (23 : Byte).toNat ≤ 23 ∧ 23 < (24 : Byte).toNat := by decide

theorem witness_PermuteIsTwentyFourRounds : start.err = 0 := rfl

theorem witness_LinearStepsAreBijections : 0 ≤ 23 ∧ 23 ≤ 23 := by decide

theorem witness_PadWritesDomainByteThenTopBit :
    rateValid 136 = true ∧ (zeros 134).length < 136 ∧ (zeros 134).length + 1 < 136 ∧ 134 < 135 + 1 ∧
    (zeros 135).length + 1 = 136 ∧ (zeros 133).length < 134 ∧ 134 + 1 < 136 := by decide

theorem witness_AbsorbBlocksTakesBlocksInOrder :
    rateValid 200 = true ∧ (zeros 400).length % 200 = 0 ∧ (zeros 200).length = 200 := by decide

/-- A message of one block and a rest, an empty one, the rates at the ends of their range, and one byte too many. -/
theorem witness_AbsorbPadsWithoutPermuting :
    start.err = 0 ∧ (0 < (200 : Byte).toNat ∧ (200 : Byte).toNat % 8 = 0 ∧ (200 : Byte).toNat ≤ 200) ∧
    (0 < (8 : Byte).toNat ∧ (8 : Byte).toNat % 8 = 0 ∧ (8 : Byte).toNat ≤ 200) ∧
    (zeros 9 = zeros 8 ++ zeros 1 ∧ (zeros 8).length % (8 : Byte).toNat = 0 ∧ (zeros 1).length < (8 : Byte).toNat ∧
      (zeros 9).length ≤ start.cfg.ibufBytes) ∧
    ¬ (0 < (208 : Byte).toNat ∧ (208 : Byte).toNat % 8 = 0 ∧ (208 : Byte).toNat ≤ 200) ∧
    ¬ (0 < (0 : Byte).toNat ∧ (0 : Byte).toNat % 8 = 0 ∧ (0 : Byte).toNat ≤ 200) := by decide

/-- One byte more than the payload buffer holds. -/
theorem witness_payloadTooLong : start.cfg.ibufBytes < (zeros 4097).length ∧ (zeros 4096).length ≤ start.cfg.ibufBytes := by
  simp only [zeros_length]; decide

theorem witness_SqueezePermutesBeforeEveryBlock :
    start.err = 0 ∧ (0 < (136 : Byte).toNat ∧ (136 : Byte).toNat % 8 = 0 ∧ (136 : Byte).toNat ≤ 200) ∧
    (30 : Word32).toNat * (136 : Byte).toNat ≤ start.cfg.obufBytes ∧
    start.cfg.obufBytes < (31 : Word32).toNat * (136 : Byte).toNat ∧
    ¬ (0 < (12 : Byte).toNat ∧ (12 : Byte).toNat % 8 = 0 ∧ (12 : Byte).toNat ≤ 200) := by decide

theorem witness_BlockupdateAbsorbsWholeBlocks :
    start.err = 0 ∧ (0 < (136 : Byte).toNat ∧ (136 : Byte).toNat % 8 = 0 ∧ (136 : Byte).toNat ≤ 200) ∧
    ((zeros 136).length % (136 : Byte).toNat = 0 ∧ (zeros 136).length ≤ start.cfg.ibufBytes) ∧
    (zeros 135).length % (136 : Byte).toNat ≠ 0 ∧
    ¬ (0 < (7 : Byte).toNat ∧ (7 : Byte).toNat % 8 = 0 ∧ (7 : Byte).toNat ≤ 200) := by decide

/-- The last clause: 4104 bytes are 513 whole blocks of 8 and do not fit. -/
theorem witness_BlockupdateTooLong :
    (zeros 4104).length % (8 : Byte).toNat = 0 ∧ start.cfg.ibufBytes < (zeros 4104).length := by
  simp only [zeros_length]; decide

theorem witness_StreamingEqualsOneShot :
    rateValid 72 = true ∧ (zeros 144).length % 72 = 0 ∧ (zeros 72).length % 72 = 0 := by decide

theorem witness_Sha3ComputeHashesFromTheZeroState :
    start.err = 0 ∧ ((2 : Byte), 72, 64) ∈ [((1 : Byte), 136, 32), (2, 72, 64)] ∧ (zeros 72).length ≤ start.cfg.ibufBytes ∧
    ((0 : Byte) = 0 ∨ 2 < (0 : Byte).toNat) ∧ ((3 : Byte) = 0 ∨ 2 < (3 : Byte).toNat) ∧ ((1 : Byte) = 1 ∨ (1 : Byte) = 2) := by
  decide

theorem witness_Sha3FinalFinishesAStream :
    start.err = 0 ∧ ((1 : Byte), 136, 32) ∈ [((1 : Byte), 136, 32), (2, 72, 64)] ∧
    (zeros 135).length ≤ start.cfg.ibufBytes ∧ (∀ c ∈ [zeros 136, [], zeros 272], c.length % 136 = 0) ∧
    (([zeros 136, [], zeros 272].flatten) ++ zeros 135).length ≤ start.cfg.ibufBytes ∧
    ((3 : Byte) = 0 ∨ 2 < (3 : Byte).toNat) := by decide

theorem witness_ShakeInitAbsorbsTheKey :
    start.err = 0 ∧ ((2 : Byte), 72) ∈ [((0 : Byte), 168), (1, 136), (2, 72)] ∧ (zeros 73).length ≤ start.cfg.ibufBytes ∧
    2 < (3 : Byte).toNat ∧ (2 : Byte).toNat ≤ 2 := by decide

theorem witness_ShakeSqueezeIsSqueezeAtTheTableRate :
    start.err = 0 ∧ ((0 : Byte), 168) ∈ [((0 : Byte), 168), (1, 136), (2, 72)] ∧
    (24 : Word32).toNat * 168 ≤ start.cfg.obufBytes ∧ start.cfg.obufBytes < (25 : Word32).toNat * 168 ∧
    2 < (3 : Byte).toNat := by decide

theorem witness_XofOutIsAPrefixOfTheStream : rateValid 168 = true := by decide

theorem witness_ShakeComputeEmitsTheRequestedLength :
    start.err = 0 ∧ ((1 : Byte), 136) ∈ [((0 : Byte), 168), (1, 136), (2, 72)] ∧ (zeros 1).length ≤ start.cfg.ibufBytes ∧
    (4096 : Word32).toNat ≤ start.cfg.obufBytes ∧ start.cfg.obufBytes < (4097 : Word32).toNat ∧ 2 < (3 : Byte).toNat ∧
    (2 : Byte).toNat ≤ 2 := by decide

theorem witness_CshakeInitCustomizesThenAbsorbs :
    start.err = 0 ∧ ((0 : Byte), 168) ∈ [((0 : Byte), 168), (1, 136), (2, 72)] ∧ 8 * (zeros 0).length < 2 ^ 64 ∧
    8 * (zeros 161).length < 2 ^ 64 ∧ (zeros 4).length + (zeros 0).length + (zeros 161).length ≤ start.cfg.ibufBytes ∧
    ¬ (zeros 0 = [] ∧ zeros 161 = []) ∧ (zeros 0 = [] ∧ zeros 0 = []) ∧ 2 < (3 : Byte).toNat ∧ (2 : Byte).toNat ≤ 2 := by
  decide

/-- A string whose bit length needs 65 bits, and the longest one whose bit length fits. -/
theorem witness_encodingOverflow :
    2 ^ 64 ≤ 8 * (zeros (2 ^ 61)).length ∧ 8 * (zeros (2 ^ 61 - 1)).length < 2 ^ 64 ∧ 8 * (zeros 4097).length < 2 ^ 64 := by
  simp only [zeros_length]; decide

theorem witness_CshakeComputeIsInitThenOutput :
    start.err = 0 ∧ ((1 : Byte), 136) ∈ [((0 : Byte), 168), (1, 136), (2, 72)] ∧ 8 * (zeros 1).length < 2 ^ 64 ∧
    (zeros 4).length + (zeros 1).length + (zeros 1).length ≤ start.cfg.ibufBytes ∧
    (4096 : Word32).toNat ≤ start.cfg.obufBytes ∧ start.cfg.obufBytes < (4097 : Word32).toNat ∧ 2 < (3 : Byte).toNat := by
  decide

theorem witness_KmacInitAbsorbsNameAndKey :
    start.err = 0 ∧ ((2 : Byte), 72) ∈ [((0 : Byte), 168), (1, 136), (2, 72)] ∧ 8 * (zeros 32).length < 2 ^ 64 ∧
    8 * (zeros 0).length < 2 ^ 64 ∧ (zeros 32).length + (zeros 0).length ≤ start.cfg.ibufBytes ∧ 2 < (3 : Byte).toNat ∧
    (2 : Byte).toNat ≤ 2 := by decide

theorem witness_KmacFinalAppendsTheOutputLength :
    start.err = 0 ∧ ((0 : Byte), 168) ∈ [((0 : Byte), 168), (1, 136), (2, 72)] ∧ (zeros 0).length ≤ start.cfg.ibufBytes ∧
    (0 : Word32).toNat ≤ start.cfg.obufBytes ∧ start.cfg.obufBytes < (4097 : Word32).toNat ∧ 2 < (3 : Byte).toNat := by
  decide

theorem witness_KmacComputeEqualsStreamedKmac :
    start.err = 0 ∧ ((0 : Byte), 168) ∈ [((0 : Byte), 168), (1, 136), (2, 72)] ∧ 8 * (zeros 32).length < 2 ^ 64 ∧
    8 * (zeros 21).length < 2 ^ 64 ∧ (zeros 200).length + (zeros 32).length + (zeros 21).length ≤ start.cfg.ibufBytes ∧
    (32 : Word32).toNat ≤ start.cfg.obufBytes ∧ (∀ c ∈ [zeros 168], c.length % 168 = 0) ∧
    zeros 200 = [zeros 168].flatten ++ zeros 32 ∧ start.cfg.obufBytes < (4097 : Word32).toNat ∧
    2 < (3 : Byte).toNat := by decide

theorem witness_SessionStartersIgnoreTheOldState :
    (Instr.shakeInit 0 []).row.mnemonic ∈ ["SHA3_COMPUTE", "SHAKE_INIT", "SHAKE_COMPUTE", "CSHAKE_INIT", "CSHAKE_COMPUTE",
      "KMAC_INIT", "KMAC_COMPUTE"] ∧ exec (.shakeInit 0 []) start = .next (next (exec (.shakeInit 0 []) start)) ∧
    (next (exec (.shakeInit 0 []) start)).err = 0 := ⟨by decide, rfl, by decide⟩

theorem witness_LeftEncodeIsMinimalBigEndian :
    2 ^ 64 - 1 < 2 ^ 64 ∧ 1 ≤ 8 ∧ 2 ^ 64 - 1 < 2 ^ (8 * 8) ∧ 7 < byteLen (2 ^ 64 - 1) ∧ 0 < byteLen 0 := by decide

theorem witness_EncodersRoundTrip : 0 < 2 ^ 64 ∧ 2 ^ 64 - 1 < 2 ^ 64 := by decide

theorem witness_EncoderCommandsEmitTheEncoding : start.err = 0 := rfl

theorem witness_VecMulIsFieldMultiplication :
    1 ≤ toy.fftM ∧ (∀ e ∈ toy.fftPoly, e < toy.fftM) ∧ (FftVector.bcast 12 0x123).length = toy.fftM ∧ 63 < 64 := by decide

theorem witness_FftLdAndStinMoveTheInputFile :
    start.err = 0 ∧ (zeros 96).length = 8 * start.cfg.fftM ∧ (zeros 95).length ≠ 8 * start.cfg.fftM ∧
    11 < start.cfg.fftM := by decide

theorem witness_FftStReadsOneOutputVector :
    start.err = 0 ∧ (63 : Byte).toNat ≤ 63 ∧ 63 < (64 : Byte).toNat := by decide

theorem witness_FftIsRadixThenButterflies : start.err = 0 := rfl

/-- The reductions of R256 from mask pair 4 down to `k`, and its rounds. -/
def radixRounds (c : Config) (f : FftVector) : Nat → FftVector
  | 0 => f
  | j + 1 => vecMul c ((radixRounds c f j).map (radixWord c j)) (c.fftScal.getD j [])

/-- The output vectors of R257 after `i` stages. -/
def stageVectors (c : Config) (f : FftVector) : Nat → Nat → FftVector
  | 0, j => (List.range c.fftM).map fun i => if (f.word i).getLsbD (c.fftRev.getD j 0) then 0xFFFFFFFFFFFFFFFF else 0
  | i + 1, j =>
    let lower (k : Nat) := (stageVectors c f i k).xor
      (vecMul c (stageVectors c f i (k + 2 ^ i)) (c.fftConsts.getD (2 ^ i - 1 + k % 2 ^ i) []))
    if j % 2 ^ (i + 1) < 2 ^ i then lower j else (stageVectors c f i j).xor (lower (j - 2 ^ i))

/-- The functions that the statement quantifies over exist, for every value of the parameters. -/
theorem witness_RadixConvAndButterfliesFollowTheirRules (c : Config) (f : FftVector) :
    (∃ pair red : Nat → Lane → Lane,
      (∀ k v u, u = v ^^^ ((v &&& (c.fftMask.getD k (0, 0)).1) >>> (2 ^ k)) →
        pair k v = u ^^^ ((u &&& (c.fftMask.getD k (0, 0)).2) >>> (2 ^ k))) ∧
      (∀ v, red 5 v = v) ∧ (∀ k v, k < 5 → red k v = pair k (red (k + 1) v)) ∧
      ∃ round : Nat → FftVector, round 0 = f ∧
        ∀ j, j < 5 → round (j + 1) = vecMul c ((round j).map (red j)) (c.fftScal.getD j [])) ∧
    (∃ out : Nat → Nat → FftVector,
      (∀ j, j < 64 → out 0 j = (List.range c.fftM).map fun i =>
        if (f.word i).getLsbD (c.fftRev.getD j 0) then 0xFFFFFFFFFFFFFFFF else 0) ∧
      ∀ i k, i < 6 → k < 64 → k % 2 ^ (i + 1) < 2 ^ i →
        out (i + 1) k = (out i k).xor (vecMul c (out i (k + 2 ^ i)) (c.fftConsts.getD (2 ^ i - 1 + k % 2 ^ i) [])) ∧
        out (i + 1) (k + 2 ^ i) = (out i (k + 2 ^ i)).xor (out (i + 1) k)) ∧
    toy.fftMask = Config.defaultMask ∧ 47 < 64 ∧ 47 % 2 ^ (4 + 1) < 2 ^ 4 := by
  refine ⟨⟨fun k v => xorShift (xorShift v (c.fftMask.getD k (0, 0)).1 (2 ^ k)) (c.fftMask.getD k (0, 0)).2 (2 ^ k),
    radixWord c, ?_, fun _ => rfl, radixWord_succ c, radixRounds c f, rfl, fun _ _ => rfl⟩,
    ⟨stageVectors c f, fun _ _ => rfl, ?_⟩, rfl, by decide⟩
  · rintro k v u rfl; rfl
  · intro i k _ _ lower
    have upper : ¬ (k + 2 ^ i) % 2 ^ (i + 1) < 2 ^ i := by
      rw [pow_succ] at *; rw [Nat.add_mod, Nat.mod_eq_of_lt (show 2 ^ i < 2 ^ i * 2 by omega),
        Nat.mod_eq_of_lt (by omega)]; omega
    exact ⟨by simp only [stageVectors, if_pos lower],
      by simp only [stageVectors, if_pos lower, if_neg upper, Nat.add_sub_cancel]⟩

theorem witness_TransformIsLinear :
    (FftVector.bcast 12 1).length = toy.fftM ∧ (FftVector.bcast 12 0xFFF).length = toy.fftM := by decide

theorem witness_FaultIsPrecise :
    (start.placePacket [0, 0, 0x18, 0x15]).inReset = false ∧
    fetch (start.placePacket [0, 0, 0x18, 0x15]) = some (.packet [0, 0, 0x18, 0x15]) ∧
    (start.placePacket [0, 0, 0x18, 0x15]).err = 0 ∧
    step (start.placePacket [0, 0, 0x18, 0x15]) = .next (after start [0, 0, 0x18, 0x15]) ∧
    (after start [0, 0, 0x18, 0x15]).err ≠ 0 := ⟨rfl, by decide, by decide, rfl, by decide⟩

/-- An engine in reset that has latched BadLength and whose next input is `input`. -/
def held (input : Input) : State := { faulted with inReset := true, program := [input] }

theorem witness_FaultedEngineRefusesEveryPacket :
    (faulted.err ≠ 0 ∧ (faulted.placePacket []).inReset = false ∧ fetch (faulted.placePacket []) = some (.packet [])) ∧
    step faulted = .next faulted ∧
    ((held .releaseReset).err ≠ 0 ∧ (held .releaseReset).inReset = true ∧
      fetch (held .releaseReset) = some .releaseReset ∧ (next (step (held .releaseReset))).err = 0) ∧
    (next (step { faulted with program := [.releaseReset] })).err = 5 :=
  ⟨by decide, rfl, by decide, by decide⟩

/-- Every fault is raised by some command, and a command can raise none. -/
theorem witness_EachCommandRaisesOnlyItsFaults :
    start.err = 0 ∧ (next (exec (.absorb 0 0 []) start)).err = 1 ∧ (next (exec (.squeeze 136 31) start)).err = 2 ∧
    (next (exec (.iota 24) start)).err = 4 ∧ (next (exec (.ldstate []) start)).err = 5 ∧
    (Instr.iota 24).inRange = false ∧ (Instr.iota 23).inRange = true ∧
    goesOn (exec (.iota 23) start) = true := by decide +kernel

/-- EncodingOverflow is raised by a name of 2^61 bytes. -/
theorem witness_EncodingOverflowIsRaised :
    (next (exec (.cshakeInit 0 [] (zeros (2 ^ 61)) []) start)).err = 3 := by
  have hf : firstFault [widthIllegal 0, bitLengthOverflow (zeros (2 ^ 61)).length, bitLengthOverflow ([] : Bytes).length,
      payloadsExceed start [[], zeros (2 ^ 61), []]] = some .encodingOverflow := by
    simp only [bitLengthOverflow, zeros_length]; rfl
  rw [exec_cshakeInit, command_raises _ _ rfl hf]; rfl

theorem witness_EveryStepKeepsTheInvariant :
    start.Inv ∧ step (start.placePacket [0, 0, 0, 0x53]) = .next (after start [0, 0, 0, 0x53]) ∧
    (start.placePacket [0, 0, 0, 0x53]).Inv := ⟨by decide, rfl, by decide⟩

theorem witness_ResetInputRestoresEveryRegister :
    (start.inReset = false ∧ fetch { start with program := [.assertReset] } = some .assertReset) ∧
    fetch { start with program := [.packetCutByReset [0, 0, 0, 0x10]] } = some (.packetCutByReset [0, 0, 0, 0x10]) ∧
    ((held (.packet [])).inReset = true ∧ fetch (held (.packet [])) = some (.packet [])) ∧
    (fetch (held .releaseReset) = some .releaseReset ∧ 24 < 25) ∧
    step (held .assertReset) = .next { held .assertReset with cp := 1 } :=
  ⟨by decide, by decide, by decide, by decide, rfl⟩

/-- R340: a command abandoned by reset and a packet offered during reset get no response, and the release clears `ERR`:
the list is a cut PERMUTE, a PERMUTE while reset is held, the release, and the illegal IOTA 24. -/
theorem test_reset_input :
    let s := { start with program :=
      [.packetCutByReset [0, 0, 0, 0x10], .packet [0, 0, 0, 0x10], .releaseReset, .packet [0, 0, 0x18, 0x15]] }
    let t := next (step (next (step (next (step s)))))
    t.a = Keccak.zero ∧ t.responses = [] ∧ (next (step t)).responses = [⟨4, []⟩] := by decide

end Sys2Proof.Tests
end

section
/-! PROOFS. The family of spec/00_scope.md: where `rotl64` takes each bit, and the invariant of the machine, which
holds after reset and which every step keeps. -/

namespace Sys2Proof

/-- R13: the bits that `<<` keeps move up by `n`; the ones it drops come back through `>>`, at the low end. -/
theorem rotl64_getLsbD (v : Lane) {n i : Nat} (hn : n ≤ 63) (hi : i < 64) :
    (rotl64 v n).getLsbD ((i + n) % 64) = v.getLsbD i := by
  rcases Nat.eq_zero_or_pos n with rfl | hpos
  · rw [rotl64, if_pos rfl, Nat.add_zero, Nat.mod_eq_of_lt hi]
  rw [rotl64, if_neg hpos.ne', BitVec.getLsbD_or, BitVec.getLsbD_shiftLeft, BitVec.getLsbD_ushiftRight]
  by_cases hlt : i + n < 64
  · have dropped : v.getLsbD (64 - n + (i + n)) = false := BitVec.getLsbD_of_ge _ _ (by omega)
    simp [Nat.mod_eq_of_lt hlt, hlt, dropped]
  · have wrap : (i + n) % 64 = i + n - 64 := by omega
    have low : i + n - 64 < n := by omega
    have back : 64 - n + (i + n - 64) = i := by omega
    simp [wrap, low, back]

namespace Machine

/-! ### The shape of the FFT output file -/

/-- An output file of 64 vectors of `m` words (R28): the part of `State.Shaped` about `FOUT`. -/
abbrev FileShaped (m : Nat) (out : List FftVector) : Prop := out.length = 64 ∧ ∀ v ∈ out, v.length = m

theorem vectorAt_length {m : Nat} {out : List FftVector} (h : FileShaped m out) {j : Nat} (hj : j < 64) :
    (vectorAt out j).length = m := by
  have hlt : j < out.length := h.1.symm ▸ hj
  rw [vectorAt, List.getD_eq_getElem _ _ hlt]
  exact h.2 _ (List.getElem_mem hlt)

theorem FftVector.xor_length (f g : FftVector) : (f.xor g).length = min f.length g.length := List.length_zipWith

theorem fileShaped_set {m : Nat} {out : List FftVector} (h : FileShaped m out) (k : Nat) {v : FftVector}
    (hv : v.length = m) : FileShaped m (out.set k v) := by
  refine ⟨by rw [List.length_set, h.1], fun w hw => ?_⟩
  rcases List.mem_or_eq_of_mem_set hw with hw | rfl
  · exact h.2 w hw
  · exact hv

theorem fileShaped_replicate_zero (m : Nat) : FileShaped m (List.replicate 64 (FftVector.zero m)) := by
  refine ⟨List.length_replicate, fun v hv => ?_⟩
  rw [List.eq_of_mem_replicate hv, FftVector.zero, List.length_replicate]

theorem broadcast_shaped (c : Config) (f : FftVector) : FileShaped c.fftM (broadcast c f) := by
  simp [FileShaped, broadcast]

theorem butterflyPair_shaped (c : Config) {s k : Nat} (g : FftVector) {out : List FftVector}
    (h : FileShaped c.fftM out) (hk : k + s < 64) : FileShaped c.fftM (butterflyPair c s k g out) := by
  have lower : ((vectorAt out k).xor (vecMul c (vectorAt out (k + s)) g)).length = c.fftM := by
    rw [FftVector.xor_length, vectorAt_length h (by omega), vecMul_length, Nat.min_self]
  refine fileShaped_set (fileShaped_set h k lower) (k + s) ?_
  rw [FftVector.xor_length, vectorAt_length h hk, lower, Nat.min_self]

theorem butterflyStage_shaped (c : Config) {i : Nat} (hi : i < 6) (ptr : Nat) {out : List FftVector}
    (h : FileShaped c.fftM out) : FileShaped c.fftM (butterflyStage c (2 ^ i) ptr out) :=
  foldl_keeps (FileShaped c.fftM) _ _ _ h fun _ pair hpair hout =>
    butterflyPair_shaped c _ hout (stagePairs_lt i hi pair hpair)

theorem butterflies_shaped (c : Config) (f : FftVector) : FileShaped c.fftM (butterflies c f) :=
  foldl_keeps (fun st : List FftVector × Nat => FileShaped c.fftM st.1) _ _ _ (broadcast_shaped c f)
    fun _ _ hi hst => butterflyStage_shaped c (List.mem_range.mp hi) _ hst

/-! ### The invariant -/

/-- `t` meets the invariant and has the parameters and the host's list of `s`. -/
abbrev State.KeepsInv (s t : State) : Prop := t.Inv ∧ t.cfg = s.cfg ∧ t.program = s.program

theorem ErrCode.code_le_five (c : ErrCode) : c.code.toNat ≤ 5 := by cases c <;> decide

section
variable {s : State} (hs : s.Inv)
include hs

-- An update that writes nothing the invariant speaks of keeps it as it stands.
theorem keepsInv_self : s.KeepsInv s := ⟨hs, rfl, rfl⟩
theorem keepsInv_setA (a : Keccak) : s.KeepsInv (s.setA a) := ⟨hs, rfl, rfl⟩
theorem keepsInv_passInput : s.KeepsInv (passInput s) := ⟨hs, rfl, rfl⟩
theorem keepsInv_assertReset : s.KeepsInv (assertReset s) := ⟨hs, rfl, rfl⟩
theorem keepsInv_refuse : s.KeepsInv (refuse s) := ⟨hs, rfl, rfl⟩

theorem keepsInv_raise (c : ErrCode) : s.KeepsInv (raise c s) :=
  ⟨⟨hs.1, hs.2.1, c.code_le_five⟩, rfl, rfl⟩

theorem keepsInv_setFin {f : FftVector} (hf : f.length = s.cfg.fftM) : s.KeepsInv (s.setFin f) := by
  obtain ⟨valid, ⟨_, file⟩, legal⟩ := hs
  exact ⟨⟨valid, ⟨hf, file⟩, legal⟩, rfl, rfl⟩

theorem keepsInv_setFout {g : List FftVector} (hg : FileShaped s.cfg.fftM g) : s.KeepsInv (s.setFout g) := by
  obtain ⟨valid, ⟨fin, _⟩, legal⟩ := hs
  exact ⟨⟨valid, ⟨fin, hg⟩, legal⟩, rfl, rfl⟩

theorem keepsInv_releaseReset : s.KeepsInv (releaseReset s) :=
  ⟨⟨hs.1, ⟨List.length_replicate, fileShaped_replicate_zero _⟩, Nat.zero_le 5⟩, rfl, rfl⟩

/-- A command whose effect keeps the invariant keeps it also when it is refused or raises a fault. -/
theorem command_keepsInv (checks : List Check) {done : State} (out : Bytes) (hdone : s.KeepsInv done) :
    ∃ t, command s checks done out = .next t ∧ s.KeepsInv t := by
  rcases command_cases s checks done out with ⟨-, e⟩ | ⟨-, fault, -, e⟩ | ⟨-, -, e⟩
  · exact ⟨_, e, keepsInv_refuse hs⟩
  · exact ⟨_, e, keepsInv_raise hs fault⟩
  · exact ⟨_, e, hdone⟩

/-- Every command is `command` on an effect that keeps the invariant: it writes nothing, or `A`, or files of the FFT
unit that have their shape. -/
theorem exec_effect_keepsInv (i : Instr) :
    ∃ checks done out, exec i s = command s checks done out ∧ s.KeepsInv done := by
  cases i with
  | ststate | lenc | renc | fftStin => exact ⟨[], _, _, rfl, keepsInv_self hs⟩
  | fftSt j => exact ⟨_, _, _, exec_fftSt j s, keepsInv_self hs⟩
  | zero | permute | theta | rhopi | chi => exact ⟨[], _, _, rfl, keepsInv_setA hs _⟩
  | ldstate | round | iota | absorb | squeeze | blockupdate | sha3Compute
  | sha3Final | shakeInit | shakeSqueeze | shakeCompute | cshakeInit | cshakeCompute | kmacInit | kmacFinal
  | kmacCompute => exact ⟨_, _, _, rfl, keepsInv_setA hs _⟩
  | fftLd coefficients => exact ⟨_, _, _, exec_fftLd coefficients s, keepsInv_setFin hs (loadVector_length _ _)⟩
  | fftRadix => exact ⟨_, _, _, exec_fftRadix s, keepsInv_setFin hs (radixConv_length _ _)⟩
  | fftBfly => exact ⟨_, _, _, exec_fftBfly s, keepsInv_setFout hs (butterflies_shaped _ _)⟩
  | fft =>
    have radix := keepsInv_setFin hs (radixConv_length s.cfg s.fin)
    exact ⟨_, _, _, exec_fft s, keepsInv_setFout radix.1 (butterflies_shaped _ _)⟩

theorem runPacket_keepsInv (packet : Bytes) : ∃ t, runPacket packet s = .next t ∧ s.KeepsInv t := by
  unfold runPacket
  split
  case h_1 i _ =>
    obtain ⟨checks, done, out, e, hdone⟩ := exec_effect_keepsInv hs i
    rw [e]
    exact command_keepsInv hs checks out hdone
  case h_2 => exact command_keepsInv hs _ _ (keepsInv_self hs)

/-- A step from a state that meets the invariant answers a next state, which meets it too. -/
theorem step_keepsInv : ∃ t, step s = .next t ∧ s.KeepsInv t := by
  rcases step_cases s with ⟨-, e⟩ | ⟨-, packet, -, e⟩ | ⟨-, -, e⟩ | ⟨-, -, e⟩ | ⟨-, -, e⟩
  · exact ⟨_, e, keepsInv_self hs⟩
  · rw [e]; exact runPacket_keepsInv hs packet
  · exact ⟨_, e, keepsInv_assertReset hs⟩
  · exact ⟨_, e, keepsInv_releaseReset hs⟩
  · exact ⟨_, e, keepsInv_passInput hs⟩

end

/-! ### The obligations -/

/-- Settles O58: every step answers a state that keeps the invariant, and there is one such state only. -/
theorem everyStepKeepsTheInvariant : Obligations.EveryStepKeepsTheInvariant := by
  intro s t hs h
  obtain ⟨t', e, keeps⟩ := step_keepsInv hs
  obtain rfl : t' = t := by simpa [e] using h
  exact keeps

/-- Settles O1: the two cases are the definition's, and `rotl64_getLsbD` follows every bit. -/
theorem rotateLeftMovesEveryBit : Obligations.RotateLeftMovesEveryBit := by
  intro v
  exact ⟨if_pos rfl, fun n hn => ⟨fun hpos => if_neg hpos.ne', fun i hi => rotl64_getLsbD v hn hi⟩⟩

/-- Settles O59: the free values of the parameters meet the constraints, and the files are zero vectors of their
width. -/
theorem resetSatisfiesTheInvariant : Obligations.ResetSatisfiesTheInvariant :=
  ⟨implemented_valid, ⟨List.length_replicate, fileShaped_replicate_zero _⟩, Nat.zero_le 5⟩

end Machine
end Sys2Proof
end

section
/-! PROOFS. The family of spec/10_state.md: the byte view of the Keccak state, the engine after reset, a step of the
engine out of reset, and the two units that share no register. -/

namespace Sys2Proof

/-- R15, on a lane: byte `k` is what a shift by `8k` leaves in the low eight bits. -/
theorem byteOf_toNat (v : Lane) (k : Nat) : byteOf v.toNat k = (v >>> (8 * k)).setWidth 8 := by
  apply BitVec.eq_of_toNat_eq
  rw [byteOf, BitVec.toNat_ofNat, BitVec.toNat_setWidth, BitVec.toNat_ushiftRight]

namespace Machine

/-! ### Bytes of the Keccak state -/

theorem byteView_in_lane (a : Keccak) (i : Nat) {j : Nat} (hj : j < 8) :
    a.byteView (8 * i + j) = byteOf (a.lane i).toNat j := by
  rw [Keccak.byteView, show (8 * i + j) / 8 = i by omega, show (8 * i + j) % 8 = j by omega]

/-! ### One step -/

theorem step_idle {s : State} (h : fetch s = none) : step s = .next s := by simp [step, h]

theorem step_packet {s : State} {packet : Bytes} (hr : s.inReset = false) (h : fetch s = some (.packet packet)) :
    step s = runPacket packet s := by simp [step, h, hr, acceptInput]

theorem runPacket_ok {packet : Bytes} {i : Instr} (h : decode packet = .ok i) (s : State) :
    runPacket packet s = exec i s := by rw [runPacket, h]

theorem runPacket_error {packet : Bytes} {e : DecodeError} (h : decode packet = .error e) (s : State) :
    runPacket packet s = illegalPacket s := by rw [runPacket, h]

theorem illegalPacket_raises {s : State} (he : s.err = 0) : illegalPacket s = .next (raise .illegalCommand s) :=
  command_raises s [] he rfl

/-! ### What `command` does to the registers -/

/-- An update that leaves `ERR` alone and commutes with answering and with raising a fault commutes with `command`, made
before it on the state and on the effect, or after it on the answer. -/
theorem command_commutes (update : State → State) (keepsErr : ∀ s, (update s).err = s.err)
    (respond : ∀ s out, (update s).respond out = update (s.respond out))
    (raises : ∀ s fault, raise fault (update s) = update (raise fault s))
    {s t done : State} {checks : List Check} {out : Bytes} (h : command s checks done out = .next t) :
    command (update s) checks (update done) out = .next (update t) := by
  rcases command_cases s checks done out with ⟨he, e⟩ | ⟨he, fault, hf, e⟩ | ⟨he, hf, e⟩
  all_goals obtain rfl := Host.Outcome.next.inj (e.symm.trans h)
  · rw [command_refuses _ _ _ ((keepsErr s).trans_ne he), refuse, respond, refuse]
  · rw [command_raises _ _ ((keepsErr s).trans he) hf, raises]
  · rw [command_runs _ _ ((keepsErr s).trans he) (firstFault_eq_none.mp hf), respond]

theorem command_setA {s t done : State} {checks : List Check} {out : Bytes} (a : Keccak)
    (h : command s checks done out = .next t) : command (s.setA a) checks (done.setA a) out = .next (t.setA a) :=
  command_commutes (·.setA a) (fun _ => rfl) (fun _ _ => rfl) (fun _ _ => rfl) h

theorem command_setFiles {s t done : State} {checks : List Check} {out : Bytes} (fin : FftVector)
    (fout : List FftVector) (h : command s checks done out = .next t) :
    command ((s.setFin fin).setFout fout) checks ((done.setFin fin).setFout fout) out =
      .next ((t.setFin fin).setFout fout) :=
  command_commutes (fun s => (s.setFin fin).setFout fout) (fun _ => rfl) (fun _ _ => rfl) (fun _ _ => rfl) h

-- The order in which two registers are written makes no difference.
theorem setFin_setA (s : State) (a : Keccak) (f : FftVector) : (s.setA a).setFin f = (s.setFin f).setA a := rfl
theorem setFout_setA (s : State) (a : Keccak) (g : List FftVector) :
    (s.setA a).setFout g = (s.setFout g).setA a := rfl

/-- A command that is refused or faults keeps the registers; one that completes leaves those of its effect. -/
theorem command_registers {s t done : State} {checks : List Check} {out : Bytes}
    (h : command s checks done out = .next t) : s.KeepsRegisters t ∨ done.KeepsRegisters t := by
  rcases command_cases s checks done out with ⟨-, e⟩ | ⟨-, fault, -, e⟩ | ⟨-, -, e⟩
  all_goals obtain rfl := Host.Outcome.next.inj (e.symm.trans h)
  · exact .inl ⟨rfl, rfl, rfl⟩
  · exact .inl ⟨rfl, rfl, rfl⟩
  · exact .inr ⟨rfl, rfl, rfl⟩

/-! ### Which registers a command reads -/

section
variable {i : Instr} {s t : State} (h : exec i s = .next t)
include h

/-- R29: a command of the sponge unit or an encoder carries the FFT files through, whatever they hold. -/
theorem exec_setFiles (hi : i.row.op.toNat < 0x50) (fin : FftVector) (fout : List FftVector) :
    exec i ((s.setFin fin).setFout fout) = .next ((t.setFin fin).setFout fout) := by
  cases i
  case fftLd | fftRadix | fftBfly | fft | fftSt | fftStin => simp [Instr.row] at hi
  case zero | ststate | permute | theta | rhopi | chi | lenc | renc =>
    exact command_setFiles (checks := []) fin fout h
  all_goals exact command_setFiles fin fout h

/-- R29: a command of the FFT unit carries the Keccak state through, whatever it holds. -/
theorem exec_setA (hi : 0x50 ≤ i.row.op.toNat) (a : Keccak) : exec i (s.setA a) = .next (t.setA a) := by
  cases i
  case fftLd | fftRadix | fftBfly | fft | fftSt | fftStin =>
    simp only [exec_fftLd, exec_fftRadix, exec_fftBfly, exec_fft, exec_fftSt, exec_fftStin, setA_cfg, setA_fin,
      setA_fout, setFin_setA, setFout_setA] at h ⊢
    exact command_setA a h
  all_goals simp [Instr.row] at hi

/-! ### Which registers a command writes -/

/-- What a command carries through whatever it holds, it leaves as it was: here the FFT files. -/
theorem exec_keepsFft (hi : i.row.op.toNat < 0x50) : s.KeepsFft t := by
  have same : t = (t.setFin s.fin).setFout s.fout :=
    Host.Outcome.next.inj (h.symm.trans (exec_setFiles h hi s.fin s.fout))
  rw [same]
  exact ⟨rfl, rfl⟩

/-- What a command carries through whatever it holds, it leaves as it was: here the Keccak state. -/
theorem exec_fftUnit_keeps_a (hi : 0x50 ≤ i.row.op.toNat) : t.a = s.a := by
  have same : t = t.setA s.a := Host.Outcome.next.inj (h.symm.trans (exec_setA h hi s.a))
  rw [same]
  rfl

theorem exec_keeps_a
    (hi : i.row.mnemonic ∈
      ["STSTATE", "LENC", "RENC", "FFT_LD", "FFT_RADIX", "FFT_BFLY", "FFT", "FFT_ST", "FFT_STIN"]) :
    t.a = s.a := by
  cases i
  case ststate | lenc | renc =>
    simp only [exec_ststate, exec_lenc, exec_renc] at h
    rcases command_registers h with ⟨ha, -, -⟩ | ⟨ha, -, -⟩ <;> exact ha
  case fftLd | fftRadix | fftBfly | fft | fftSt | fftStin => exact exec_fftUnit_keeps_a h (by simp [Instr.row])
  all_goals simp [Instr.row] at hi

theorem exec_keeps_fin (hi : i.row.mnemonic ∉ ["FFT_LD", "FFT_RADIX", "FFT"]) : t.fin = s.fin := by
  cases i
  case fftLd | fftRadix | fft => simp [Instr.row] at hi
  case fftBfly | fftSt | fftStin =>
    simp only [exec_fftBfly, exec_fftSt, exec_fftStin] at h
    rcases command_registers h with ⟨-, hfin, -⟩ | ⟨-, hfin, -⟩ <;> simpa using hfin
  all_goals exact (exec_keepsFft h (by simp [Instr.row])).1

theorem exec_keeps_fout (hi : i.row.mnemonic ∉ ["FFT_BFLY", "FFT"]) : t.fout = s.fout := by
  cases i
  case fftBfly | fft => simp [Instr.row] at hi
  case fftLd | fftRadix | fftSt | fftStin =>
    simp only [exec_fftLd, exec_fftRadix, exec_fftSt, exec_fftStin] at h
    rcases command_registers h with ⟨-, -, hfout⟩ | ⟨-, -, hfout⟩ <;> simpa using hfout
  all_goals exact (exec_keepsFft h (by simp [Instr.row])).2

end

/-! ### The obligations -/

/-- Settles O4: a command carries the other unit's registers through, and within its unit its effect writes the listed
ones only. -/
theorem unitsShareNoRegister : Obligations.UnitsShareNoRegister :=
  fun _ _ _ h => ⟨exec_keeps_a h, exec_keeps_fin h, exec_keeps_fout h⟩

/-- Settles O5: the second run ends in the first run's state with the other unit's registers replaced. -/
theorem unitsLearnNothingOfEachOther : Obligations.UnitsLearnNothingOfEachOther :=
  fun _ _ a fin fout _ h =>
    ⟨fun hi => ⟨_, exec_setFiles h hi fin fout, rfl, rfl, rfl⟩, fun hi => ⟨_, exec_setA h hi a, rfl, rfl, rfl, rfl⟩⟩

/-- Settles O2: a byte of the view is a byte of its lane, and `store64` lists a lane's bytes from byte 0 up. -/
theorem byteViewIsTheLanesLittleEndian : Obligations.ByteViewIsTheLanesLittleEndian := by
  intro a
  refine ⟨fun k _ => byteOf_toNat _ _, fun i _ => ?_⟩
  exact List.map_congr_left fun j hj => byteView_in_lane a i (List.mem_range.mp hj)

/-- Settles O3: the registers hold zeros by definition, and a step with no input is idle. -/
theorem resetLeavesEveryRegisterZero : Obligations.ResetLeavesEveryRegisterZero :=
  ⟨fun i _ => lane_zero i, rfl, rfl, rfl, fun _ h => step_idle h⟩

/-- Settles O12: out of reset a step runs the packet, and the decoder's answer says whether that is a command. -/
theorem stepRunsTheDecodedCommand : Obligations.StepRunsTheDecodedCommand := by
  intro s
  refine ⟨fun packet i hr hf hd => ?_, fun packet e hr hf hd he => ?_, step_idle⟩
  · rw [step_packet hr hf, runPacket_ok hd]
  · rw [step_packet hr hf, runPacket_error hd, illegalPacket_raises he]

end Machine
end Sys2Proof
end

section
/-! PROOFS. The family of spec/30_encoding.md: what each format reads and what a successful read says of the bytes, the
round trips of decoder and encoder, the opcode rows of the packets that decode, and the response to a packet. -/

namespace Sys2Proof

/-! ### The decoder reads what the encoder writes -/

theorem lengthsFit_iff {i : Instr} : i.lengthsFit = true ↔ ∀ p ∈ i.payloads, p.length < 2 ^ 32 := by
  simp [Instr.lengthsFit]

/-- R81: behind a command's packet the decoder finds `tl`, and accepts if that is the packet's end. -/
theorem decode_encode_append {i : Instr} (h : i.lengthsFit = true) (tl : Bytes) :
    decode (encode i ++ tl) = endPacket tl i := by
  have fits := lengthsFit_iff.mp h
  cases i with simp only [Instr.payloads, List.forall_mem_cons, Nat.reducePow] at fits
  | zero | ststate | permute | theta | rhopi | chi | fftRadix | fftBfly | fft | fftStin | round | iota | fftSt =>
    exact decode_encodeWord _ _ _ _
  | lenc | renc => simp [encode, decodeFields, formatV, noFields]
  | squeeze | shakeSqueeze => simp [encode, decodeFields, formatAN, fieldAOnly]
  | ldstate | fftLd =>
    simp [encode, decodeFields, formatP, noFields, takePayload_encodePayload, fits]
  | absorb =>
    simp [encode, decodeFields, formatRDP, takePayload_encodePayload, fits]
  | blockupdate | sha3Compute | sha3Final | shakeInit =>
    simp [encode, decodeFields, formatAP, fieldAOnly, takePayload_encodePayload, fits]
  | shakeCompute | kmacFinal =>
    simp [encode, decodeFields, formatWNP, fieldAOnly, takePayload_encodePayload, fits]
  | kmacInit =>
    simp [encode, decodeFields, formatWP2, fieldAOnly, takePayload_encodePayload, fits]
  | cshakeInit =>
    simp [encode, decodeFields, formatWP3, fieldAOnly, takePayload_encodePayload, fits]
  | cshakeCompute | kmacCompute =>
    simp [encode, decodeFields, formatWNP3, fieldAOnly, takePayload_encodePayload, fits]

/-! ### What each format says of the bytes it accepts -/

section
variable {a b : Byte} {rest : Bytes} {i : Instr}

theorem formatZ_ok {j : Instr} (h : formatZ a b rest j = .ok i) : a = 0 ∧ b = 0 ∧ rest = [] ∧ j = i := by
  obtain ⟨ha, hb, h⟩ := noFields_ok h
  exact ⟨ha, hb, endPacket_ok h⟩

theorem formatI_ok {f : Byte → Instr} (h : formatI a b rest f = .ok i) : b = 0 ∧ rest = [] ∧ f a = i := by
  obtain ⟨hb, h⟩ := fieldAOnly_ok h
  exact ⟨hb, endPacket_ok h⟩

theorem formatV_ok {f : Lane → Instr} (h : formatV a b rest f = .ok i) :
    a = 0 ∧ b = 0 ∧ ∃ v, rest = store64 v ∧ f v = i := by
  obtain ⟨ha, hb, h⟩ := noFields_ok h
  obtain ⟨v, tl, rfl, hv⟩ := takeWord64_ok h
  obtain ⟨rfl, hi⟩ := endPacket_ok hv
  exact ⟨ha, hb, v, List.append_nil _, hi⟩

/-- The last item of a format that ends in a payload. -/
theorem lastPayload_ok {f : Bytes → Instr} (h : takePayload rest (fun p tl => endPacket tl (f p)) = .ok i) :
    ∃ p, rest = encodePayload p ∧ p.length < 2 ^ 32 ∧ f p = i := by
  obtain ⟨p, tl, rfl, hp, hend⟩ := takePayload_ok h
  obtain ⟨rfl, hi⟩ := endPacket_ok hend
  exact ⟨p, List.append_nil _, hp, hi⟩

theorem formatP_ok {f : Bytes → Instr} (h : formatP a b rest f = .ok i) :
    a = 0 ∧ b = 0 ∧ ∃ p, rest = encodePayload p ∧ p.length < 2 ^ 32 ∧ f p = i := by
  obtain ⟨ha, hb, h⟩ := noFields_ok h
  exact ⟨ha, hb, lastPayload_ok h⟩

theorem formatRDP_ok {f : Byte → Byte → Bytes → Instr} (h : formatRDP a b rest f = .ok i) :
    ∃ p, rest = encodePayload p ∧ p.length < 2 ^ 32 ∧ f a b p = i := lastPayload_ok h

theorem formatAP_ok {f : Byte → Bytes → Instr} (h : formatAP a b rest f = .ok i) :
    b = 0 ∧ ∃ p, rest = encodePayload p ∧ p.length < 2 ^ 32 ∧ f a p = i := by
  obtain ⟨hb, h⟩ := fieldAOnly_ok h
  exact ⟨hb, lastPayload_ok h⟩

theorem formatAN_ok {f : Byte → Word32 → Instr} (h : formatAN a b rest f = .ok i) :
    b = 0 ∧ ∃ n, rest = store32 n.toNat ∧ f a n = i := by
  obtain ⟨hb, h⟩ := fieldAOnly_ok h
  obtain ⟨n, tl, rfl, hn⟩ := takeWord32_ok h
  obtain ⟨rfl, hi⟩ := endPacket_ok hn
  exact ⟨hb, n, List.append_nil _, hi⟩

theorem formatWNP_ok {f : Byte → Word32 → Bytes → Instr} (h : formatWNP a b rest f = .ok i) :
    b = 0 ∧ ∃ n p, rest = store32 n.toNat ++ encodePayload p ∧ p.length < 2 ^ 32 ∧ f a n p = i := by
  obtain ⟨hb, h⟩ := fieldAOnly_ok h
  obtain ⟨n, tl, rfl, hn⟩ := takeWord32_ok h
  obtain ⟨p, rfl, hp, hi⟩ := lastPayload_ok hn
  exact ⟨hb, n, p, rfl, hp, hi⟩

theorem formatWP2_ok {f : Byte → Bytes → Bytes → Instr} (h : formatWP2 a b rest f = .ok i) :
    b = 0 ∧ ∃ p q, rest = encodePayload p ++ encodePayload q ∧ p.length < 2 ^ 32 ∧ q.length < 2 ^ 32 ∧
      f a p q = i := by
  obtain ⟨hb, h⟩ := fieldAOnly_ok h
  obtain ⟨p, tl, rfl, hp, hk⟩ := takePayload_ok h
  obtain ⟨q, rfl, hq, hi⟩ := lastPayload_ok hk
  exact ⟨hb, p, q, rfl, hp, hq, hi⟩

/-- The last three items of a format that ends in three payloads. -/
theorem lastThreePayloads_ok {f : Bytes → Bytes → Bytes → Instr}
    (h : takePayload rest (fun p r1 => takePayload r1 fun q r2 => takePayload r2 fun r tl => endPacket tl (f p q r)) =
      .ok i) :
    ∃ p q r, rest = encodePayload p ++ (encodePayload q ++ encodePayload r) ∧ p.length < 2 ^ 32 ∧
      q.length < 2 ^ 32 ∧ r.length < 2 ^ 32 ∧ f p q r = i := by
  obtain ⟨p, r1, rfl, hp, h1⟩ := takePayload_ok h
  obtain ⟨q, r2, rfl, hq, h2⟩ := takePayload_ok h1
  obtain ⟨r, rfl, hr, hi⟩ := lastPayload_ok h2
  exact ⟨p, q, r, rfl, hp, hq, hr, hi⟩

theorem formatWP3_ok {f : Byte → Bytes → Bytes → Bytes → Instr} (h : formatWP3 a b rest f = .ok i) :
    b = 0 ∧ ∃ p q r, rest = encodePayload p ++ (encodePayload q ++ encodePayload r) ∧ p.length < 2 ^ 32 ∧
      q.length < 2 ^ 32 ∧ r.length < 2 ^ 32 ∧ f a p q r = i := by
  obtain ⟨hb, h⟩ := fieldAOnly_ok h
  exact ⟨hb, lastThreePayloads_ok h⟩

theorem formatWNP3_ok {f : Byte → Word32 → Bytes → Bytes → Bytes → Instr} (h : formatWNP3 a b rest f = .ok i) :
    b = 0 ∧ ∃ n p q r, rest = store32 n.toNat ++ (encodePayload p ++ (encodePayload q ++ encodePayload r)) ∧
      p.length < 2 ^ 32 ∧ q.length < 2 ^ 32 ∧ r.length < 2 ^ 32 ∧ f a n p q r = i := by
  obtain ⟨hb, h⟩ := fieldAOnly_ok h
  obtain ⟨n, tl, rfl, hn⟩ := takeWord32_ok h
  obtain ⟨p, q, r, rfl, fits⟩ := lastThreePayloads_ok hn
  exact ⟨hb, n, p, q, r, rfl, fits⟩

end

/-! ### A packet that decodes is the packet of its command -/

/-- The opcode map and `encode` give a command the same opcode, the same fields and the same items. The cases are the
lines of the map (R90) in order, those of one format together; the last is the unlisted opcode. -/
theorem decodeFields_ok {op a b : Byte} {rest : Bytes} {i : Instr} (h : decodeFields op a b rest = .ok i) :
    encode i = encodeWord op a b ++ rest ∧ i.lengthsFit = true := by
  rw [lengthsFit_iff]
  unfold decodeFields at h
  split at h
  case h_31 => cases h
  all_goals obtain ⟨-, rfl⟩ := BitVec.toNat_eq_nat.mp ‹op.toNat = _›
  case h_1 | h_3 | h_4 | h_6 | h_7 | h_8 | h_26 | h_27 | h_28 | h_30 =>
    obtain ⟨rfl, rfl, rfl, rfl⟩ := formatZ_ok h
    exact ⟨rfl, by simp [Instr.payloads]⟩
  case h_5 | h_9 | h_29 =>
    obtain ⟨rfl, rfl, rfl⟩ := formatI_ok h
    exact ⟨rfl, by simp [Instr.payloads]⟩
  case h_23 | h_24 =>
    obtain ⟨rfl, rfl, v, rfl, rfl⟩ := formatV_ok h
    exact ⟨rfl, by simp [Instr.payloads]⟩
  case h_11 | h_16 =>
    obtain ⟨rfl, n, rfl, rfl⟩ := formatAN_ok h
    exact ⟨rfl, by simp [Instr.payloads]⟩
  case h_2 | h_25 =>
    obtain ⟨rfl, rfl, p, rfl, hp, rfl⟩ := formatP_ok h
    exact ⟨rfl, by simpa [Instr.payloads] using hp⟩
  case h_10 =>
    obtain ⟨p, rfl, hp, rfl⟩ := formatRDP_ok h
    exact ⟨rfl, by simpa [Instr.payloads] using hp⟩
  case h_12 | h_13 | h_14 | h_15 =>
    obtain ⟨rfl, p, rfl, hp, rfl⟩ := formatAP_ok h
    exact ⟨rfl, by simpa [Instr.payloads] using hp⟩
  case h_17 | h_21 =>
    obtain ⟨rfl, n, p, rfl, hp, rfl⟩ := formatWNP_ok h
    exact ⟨rfl, by simpa [Instr.payloads] using hp⟩
  case h_20 =>
    obtain ⟨rfl, p, q, rfl, hp, hq, rfl⟩ := formatWP2_ok h
    exact ⟨rfl, by simpa [Instr.payloads] using ⟨hp, hq⟩⟩
  case h_18 =>
    obtain ⟨rfl, p, q, r, rfl, hp, hq, hr, rfl⟩ := formatWP3_ok h
    exact ⟨rfl, by simpa [Instr.payloads] using ⟨hp, hq, hr⟩⟩
  case h_19 | h_22 =>
    obtain ⟨rfl, n, p, q, r, rfl, hp, hq, hr, rfl⟩ := formatWNP3_ok h
    exact ⟨rfl, by simpa [Instr.payloads] using ⟨hp, hq, hr⟩⟩

theorem encode_of_decode_ok {packet : Bytes} {i : Instr} (h : decode packet = .ok i) :
    encode i = packet ∧ i.lengthsFit = true := by
  obtain ⟨op, a, b, rest, rfl, hfields⟩ := decode_ok h
  exact decodeFields_ok hfields

/-- R81: behind a packet that decodes the decoder accepts the end only. -/
theorem decode_append {packet : Bytes} {i : Instr} (h : decode packet = .ok i) (extra : Bytes) :
    decode (packet ++ extra) = endPacket extra i := by
  obtain ⟨rfl, hfit⟩ := encode_of_decode_ok h
  exact decode_encode_append hfit extra

/-! ### Rows of the opcode map -/

theorem Format.fieldOp_mask (f : Format) : fieldOp f.mask = BitVec.allOnes 8 := by cases f <;> rfl

theorem Format.fieldZ_mask (f : Format) : fieldZ f.mask = BitVec.allOnes 8 := by cases f <;> rfl

/-- R83: every mask fixes the whole `OP` field. -/
theorem fieldOp_of_fits {row : OpcodeRow} {word : Word32} (h : word &&& row.format.mask = row.matchWord) :
    fieldOp word = row.op := by
  have hop : fieldOp (word &&& row.format.mask) = fieldOp word &&& fieldOp row.format.mask := BitVec.extractLsb'_and
  rw [h, Format.fieldOp_mask, BitVec.and_allOnes, OpcodeRow.matchWord, fieldOp_commandWord] at hop
  exact hop.symm

/-- R83: every mask fixes the whole `Z` field, and no row's match sets it. -/
theorem fieldZ_of_fits {row : OpcodeRow} {word : Word32} (h : word &&& row.format.mask = row.matchWord) :
    fieldZ word = 0 := by
  have hz : fieldZ (word &&& row.format.mask) = fieldZ word &&& fieldZ row.format.mask := BitVec.extractLsb'_and
  rw [h, Format.fieldZ_mask, BitVec.and_allOnes, OpcodeRow.matchWord, fieldZ_commandWord] at hz
  exact hz.symm

/-- R90: no opcode is listed twice. -/
theorem opcodeTable_op_injective {row row' : OpcodeRow} (h : row ∈ opcodeTable) (h' : row' ∈ opcodeTable)
    (hop : row.op = row'.op) : row = row' :=
  List.inj_on_of_nodup_map (by decide : (opcodeTable.map OpcodeRow.op).Nodup) h h' hop

open Laws in
theorem encoding_statement (i : Instr) : Encoding.Statement i := by
  cases i
  exacts [Encoding.zero, Encoding.ldstate _, Encoding.ststate, Encoding.permute, Encoding.round _, Encoding.theta,
    Encoding.rhopi, Encoding.chi, Encoding.iota _, Encoding.absorb _ _ _, Encoding.squeeze _ _,
    Encoding.blockupdate _ _, Encoding.sha3Compute _ _, Encoding.sha3Final _ _, Encoding.shakeInit _ _,
    Encoding.shakeSqueeze _ _, Encoding.shakeCompute _ _ _, Encoding.cshakeInit _ _ _ _,
    Encoding.cshakeCompute _ _ _ _ _, Encoding.kmacInit _ _ _, Encoding.kmacFinal _ _ _,
    Encoding.kmacCompute _ _ _ _ _, Encoding.lenc _, Encoding.renc _, Encoding.fftLd _, Encoding.fftRadix,
    Encoding.fftBfly, Encoding.fft, Encoding.fftSt _, Encoding.fftStin]

/-- The word of a packet that decodes fits the row of its command, and that row is in the map. -/
theorem decode_ok_fits {packet : Bytes} {i : Instr} (h : decode packet = .ok i) :
    i.row ∈ opcodeTable ∧ load32 (packet.take 4) &&& i.row.format.mask = i.row.matchWord := by
  obtain ⟨rfl, -⟩ := encode_of_decode_ok h
  obtain ⟨hrow, hfits⟩ := encoding_statement i
  exact ⟨hrow, by simpa [OpcodeRow.fits] using hfits⟩

namespace Machine

/-! ### The response to a packet -/

/-- A command whose effect leaves `ERR`, the pointer and the responses alone is answered once. -/
theorem command_responds {s done : State} (checks : List Check) (out : Bytes) (herr : done.err = s.err)
    (hcp : done.cp = s.cp) (hresp : done.responses = s.responses) :
    ∃ t sent, command s checks done out = .next t ∧ t.responses = s.responses ++ [⟨t.err.setWidth 32, sent⟩] ∧
      t.cp = s.cp + 1 ∧ (t.err ≠ 0 → sent = []) := by
  rcases command_cases s checks done out with ⟨-, e⟩ | ⟨-, fault, -, e⟩ | ⟨he, -, e⟩
  · exact ⟨_, [], e, rfl, rfl, fun _ => rfl⟩
  · exact ⟨_, [], e, rfl, rfl, fun _ => rfl⟩
  · exact ⟨_, out, e, by simp [hresp], by simp [hcp], fun hne => absurd (herr.trans he) hne⟩

/-! ### The obligations -/

/-- Settles O6: behind its packet every command leaves the decoder at the packet's end. -/
theorem decodeReadsBackEveryEncoding : Obligations.DecodeReadsBackEveryEncoding := by
  intro i h
  simpa using decode_encode_append h []

/-- Settles O7: a packet that decodes is a command word and the items of its opcode's format, as `encode` writes them. -/
theorem decodedPacketIsItsEncoding : Obligations.DecodedPacketIsItsEncoding :=
  fun _ _ h => encode_of_decode_ok h

/-- Settles O8: of a packet and a longer one that begins with it, at most one decodes. -/
theorem shorterOrLongerPacketIsMalformed : Obligations.ShorterOrLongerPacketIsMalformed := by
  intro packet extra i hextra
  obtain ⟨x, xs, rfl⟩ := List.exists_cons_of_ne_nil hextra
  refine ⟨fun h => ⟨_, decode_append h _⟩, fun h => ?_⟩
  cases hshort : decode packet with
  | error e => exact ⟨e, rfl⟩
  | ok j =>
    rw [decode_append hshort] at h
    cases h

/-- Settles O9: a word fits the row of its command, and two rows it fits have one opcode. -/
theorem wordBelongsToRowIffMaskMatches : Obligations.WordBelongsToRowIffMaskMatches := by
  intro packet i row hrow h
  obtain ⟨hi, hfits⟩ := decode_ok_fits h
  constructor
  · intro hmask
    exact opcodeTable_op_injective hi hrow ((fieldOp_of_fits hfits).symm.trans (fieldOp_of_fits hmask))
  · rintro rfl
    exact hfits

/-- Settles O10: the word of a packet that decodes fits a row, so its `OP` is listed and its `Z` is 0. -/
theorem reservedEncodingIsNeverACommand : Obligations.ReservedEncodingIsNeverACommand := by
  intro word rest reserved
  cases h : decode (store32 word.toNat ++ rest) with
  | error e => exact ⟨e, rfl⟩
  | ok i =>
    obtain ⟨hrow, hfits⟩ := decode_ok_fits h
    rw [List.take_left' (store32_length _), load32_store32_toNat] at hfits
    rcases reserved with unlisted | hz | unfit
    · exact absurd (fieldOp_of_fits hfits) (unlisted _ hrow)
    · exact absurd (fieldZ_of_fits hfits) hz
    · exact absurd hfits (unfit _ hrow)

/-- Settles O13: a packet is run as one command, and a command is answered once. -/
theorem everyPacketGetsOneResponse : Obligations.EveryPacketGetsOneResponse := by
  intro s packet hr hf
  obtain ⟨checks, done, out, e, herr, -, -, -, hcp, hresp⟩ := runPacket_is_command packet s
  rw [step_packet hr hf, e]
  exact command_responds checks out herr hcp hresp

/-- Settles O11: both directions computed byte for byte. -/
theorem workedEncodings : Obligations.WorkedEncodings := by
  unfold Obligations.WorkedEncodings
  decide

end Machine
end Sys2Proof
end

section
/-! PROOFS. The family of spec/40_util_state.md: bytes of byte strings and of lanes, `Extract` and `XorBlock` byte by
byte, commands whose effect is a new Keccak state, and the state load and store commands. -/

namespace Sys2Proof

/-! ### Bytes of strings and of lanes -/

theorem byteAt_slice (s : Bytes) {a b j : Nat} (hj : j < b - a) : byteAt (slice s a b) j = byteAt s (a + j) := by
  simp only [byteAt, slice, List.getD_eq_getElem?_getD, List.getElem?_take_of_lt hj, List.getElem?_drop]

theorem byteAt_store64 (v : Lane) {j : Nat} (hj : j < 8) : byteAt (store64 v) j = byteOf v.toNat j := by
  simp [byteAt, store64, storeLE, hj]

theorem byteOf_load64 (s : Bytes) (h : s.length = 8) {j : Nat} (hj : j < 8) :
    byteOf (load64 s).toNat j = byteAt s j := by
  rw [← byteAt_store64 _ hj, store64_load64 s h]

theorem byteOf_xor (v w : Lane) (k : Nat) : byteOf (v ^^^ w).toNat k = byteOf v.toNat k ^^^ byteOf w.toNat k := by
  simp only [byteOf_toNat, BitVec.ushiftRight_xor_distrib, BitVec.setWidth_xor]

namespace Machine

/-- Byte `k` of stored lanes is byte `k mod 8` of lane `k div 8`. -/
theorem byteAt_flatMap_store64 (f : Nat → Lane) {n k : Nat} (hk : k < 8 * n) :
    byteAt ((List.range n).flatMap fun i => store64 (f i)) k = byteOf (f (k / 8)).toNat (k % 8) := by
  have hj : k % 8 < 8 := Nat.mod_lt _ (by decide)
  rw [← byteAt_store64 _ hj, ← slice_flatMap_store64 f n (k / 8) (by omega), byteAt_slice _ (by omega),
    Nat.div_add_mod]

/-! ### `Extract`, `XorBlock` and the state load and store, byte by byte -/

theorem byteAt_extract (a : Keccak) {r k : Nat} (hr : r % 8 = 0) (hk : k < r) :
    byteAt (extract a r) k = a.byteView k :=
  byteAt_flatMap_store64 a.lane (by omega)

theorem byteAt_storeState (a : Keccak) {k : Nat} (hk : k < 200) : byteAt (storeState a) k = a.byteView k :=
  byteAt_flatMap_store64 a.lane hk

theorem loadState_storeState (a : Keccak) : loadState (storeState a) = a :=
  keccak_ext fun i hi => by rw [loadState_lane _ _ hi, storeState, slice_flatMap_store64 _ _ _ hi, load64_store64]

/-- R123 in the byte view. -/
theorem xorBlock_byteView (a : Keccak) {s : Bytes} {r k : Nat} (hr : r % 8 = 0) (hs : s.length = r) (hk : k < 200) :
    (xorBlock a s r).byteView k = if k < r then a.byteView k ^^^ byteAt s k else a.byteView k := by
  rw [Keccak.byteView, xorBlock_lane _ _ _ _ (by omega)]
  by_cases hkr : k < r
  · have hgroup : (slice s (8 * (k / 8)) (8 * (k / 8) + 8)).length = 8 := by rw [slice_length]; omega
    rw [if_pos (by omega), if_pos hkr, byteOf_xor, byteOf_load64 _ hgroup (by omega), byteAt_slice _ (by omega),
      Nat.div_add_mod, Keccak.byteView]
  · rw [if_neg (by omega), if_neg hkr, Keccak.byteView]

/-! ### Commands whose effect is a new Keccak state -/

/-- A healthy engine whose command meets no fault condition and writes `A` only completes. -/
theorem command_setA_completes {s : State} {checks : List Check} (a : Keccak) (out : Bytes) (he : s.err = 0)
    (hf : ∀ check ∈ checks, check.1 = false) :
    ∃ t, command s checks (s.setA a) out = .next t ∧ s.Completed t out ∧ s.KeepsFft t ∧ t.a = a :=
  ⟨_, command_runs _ out he hf, ⟨he, rfl, rfl, rfl, rfl, by simp [he]⟩, ⟨rfl, rfl⟩, rfl⟩

theorem exec_ldstate_completes {s : State} {p : Bytes} (he : s.err = 0) (hp : p.length = 200) :
    ∃ t, exec (.ldstate p) s = .next t ∧ s.Completed t [] ∧ s.KeepsFft t ∧ t.a = loadState p :=
  command_setA_completes _ _ he (by simp [lengthNot, hp])

theorem exec_ldstate_badLength {s : State} {p : Bytes} (he : s.err = 0) (hp : p.length ≠ 200) :
    exec (.ldstate p) s = .next (raise .badLength s) :=
  command_raises _ _ he (by simp [firstFault, lengthNot, hp])

/-- `STSTATE` is the command that writes back the `A` it read. -/
theorem exec_ststate_completes {s : State} (he : s.err = 0) :
    ∃ t, exec .ststate s = .next t ∧ s.Completed t (storeState s.a) ∧ s.KeepsFft t ∧ t.a = s.a :=
  command_setA_completes (checks := []) s.a _ he (by simp)

/-! ### The obligations -/

/-- Settles O15: the length is the one condition, and `loadState` gives lane `i` from its own eight bytes. -/
theorem ldstateLoadsEveryLane : Obligations.LdstateLoadsEveryLane := by
  intro p
  refine ⟨rfl, fun s he => ⟨fun hp => ?_, exec_ldstate_badLength he⟩⟩
  obtain ⟨t, hexec, hcompleted, hfft, ha⟩ := exec_ldstate_completes he hp
  exact ⟨t, hexec, hcompleted, hfft, fun i hi => by rw [ha, loadState_lane _ _ hi]⟩

/-- Settles O16: byte `k` of stored lanes is a byte of lane `k div 8`, and loading stored lanes restores them. -/
theorem ststateEmitsTheByteView : Obligations.StstateEmitsTheByteView := by
  refine ⟨rfl, fun s he => ?_⟩
  obtain ⟨t, hexec, hcompleted, hfft, ha⟩ := exec_ststate_completes he
  obtain ⟨u, hload, hloaded, -, hu⟩ := exec_ldstate_completes hcompleted.1 (storeState_length s.a)
  exact ⟨t, storeState s.a, hexec, hcompleted, ⟨ha, hfft⟩, rfl, storeState_length s.a,
    fun k => byteAt_storeState s.a, u, hload, hloaded.1, hu.trans (loadState_storeState s.a)⟩

/-- Settles O17: a valid rate is whole lanes, so the first `r` bytes are the first `r / 8` lanes. -/
theorem xorBlockAndExtractTouchOnlyTheRate : Obligations.XorBlockAndExtractTouchOnlyTheRate := by
  intro a r hvalid
  obtain ⟨-, hr, -⟩ := (rateValid_iff r).mp hvalid
  have hlength : (extract a r).length = r := by rw [extract_length]; omega
  exact ⟨⟨rfl, hlength, fun k => byteAt_extract a hr⟩,
    fun s hs => ⟨xorBlock_lane a s r, fun k => xorBlock_byteView a hr hs⟩⟩

/-- Settles O14: `ZERO` writes `A` only, and every lane of the zero state is 0. -/
theorem zeroClearsTheState : Obligations.ZeroClearsTheState := by
  refine ⟨rfl, fun s he => ?_⟩
  obtain ⟨t, hexec, hcompleted, hfft, ha⟩ := command_setA_completes (checks := []) Keccak.zero [] he (by simp)
  exact ⟨t, hexec, hcompleted, hfft, fun i _ => by rw [ha, lane_zero]⟩

end Machine
end Sys2Proof
end

section
/-! PROOFS. The family of spec/41_permutation.md: rotations, the step functions in coordinates, the tables and their
rules, command sequences that write `A`, the two permutation strategies, and why the linear steps are bijections. -/

namespace Sys2Proof

/-! ### XOR of lanes -/

-- With the commutative and associative laws, these two bring a XOR to a sorted one in which nothing occurs twice.
theorem lane_xor_left_comm (u v w : Lane) : u ^^^ (v ^^^ w) = v ^^^ (u ^^^ w) := by
  rw [← BitVec.xor_assoc, BitVec.xor_comm u, BitVec.xor_assoc]

theorem lane_xor_cancel_left (v w : Lane) : v ^^^ (v ^^^ w) = w := by
  rw [← BitVec.xor_assoc, BitVec.xor_self, BitVec.zero_xor]

/-! ### Rotations -/

/-- A lane is a rotation as soon as it holds every bit where R13 puts it. -/
theorem eq_rotl64_iff {v w : Lane} {n : Nat} (hn : n ≤ 63) :
    w = rotl64 v n ↔ ∀ i < 64, w.getLsbD ((i + n) % 64) = v.getLsbD i := by
  constructor
  · rintro rfl i hi
    exact rotl64_getLsbD v hn hi
  · intro h
    apply BitVec.eq_of_getLsbD_eq
    intro j hj
    have source : ((j + 64 - n) % 64 + n) % 64 = j := by omega
    have hi : (j + 64 - n) % 64 < 64 := Nat.mod_lt _ (by decide)
    rw [← source, h _ hi, rotl64_getLsbD v hn hi]

theorem rotl64_zero_lane {n : Nat} (hn : n ≤ 63) : rotl64 0#64 n = 0#64 :=
  ((eq_rotl64_iff hn).mpr (by simp)).symm

theorem rotl64_xor (v w : Lane) {n : Nat} (hn : n ≤ 63) : rotl64 (v ^^^ w) n = rotl64 v n ^^^ rotl64 w n := by
  refine ((eq_rotl64_iff hn).mpr fun i hi => ?_).symm
  rw [BitVec.getLsbD_xor, BitVec.getLsbD_xor, rotl64_getLsbD v hn hi, rotl64_getLsbD w hn hi]

theorem rotl64_injective {n : Nat} (hn : n ≤ 63) : Function.Injective (rotl64 · n) := by
  intro v w (h : rotl64 v n = rotl64 w n)
  apply BitVec.eq_of_getLsbD_eq
  intro i hi
  rw [← rotl64_getLsbD v hn hi, h, rotl64_getLsbD w hn hi]

/-- Rotating by 1, `k` times, moves every bit up by `k`. -/
theorem rotl64_one_iterate_getLsbD (v : Lane) (k : Nat) {i : Nat} (hi : i < 64) :
    ((rotl64 · 1)^[k] v).getLsbD ((i + k) % 64) = v.getLsbD i := by
  induction k with
  | zero => rw [Function.iterate_zero_apply, Nat.add_zero, Nat.mod_eq_of_lt hi]
  | succ k ih =>
    have hj : (i + k) % 64 < 64 := Nat.mod_lt _ (by decide)
    rw [Function.iterate_succ_apply', ← Nat.add_assoc, ← Nat.mod_add_mod, rotl64_getLsbD _ (by decide) hj, ih]

theorem rotl64_one_iterate_64 : (rotl64 · 1)^[64] = id := by
  funext v
  apply BitVec.eq_of_getLsbD_eq
  intro i hi
  have h := rotl64_one_iterate_getLsbD v 64 hi
  rwa [Nat.add_mod_right, Nat.mod_eq_of_lt hi] at h

namespace Machine

/-! ### The step functions in coordinates (R21) -/

theorem laneIndex_mod (x y : Nat) : laneIndex x y % 5 = x % 5 := by
  rw [laneIndex, Nat.add_mul_mod_self_left, Nat.mod_mod]

theorem laneIndex_div (x y : Nat) : laneIndex x y / 5 = y % 5 := by
  unfold laneIndex; omega

/-- Coordinates are read modulo 5 (R21). -/
theorem laneXY_congr (a : Keccak) {x x' y y' : Nat} (hx : x % 5 = x' % 5) (hy : y % 5 = y' % 5) :
    a.laneXY x y = a.laneXY x' y' := by
  rw [Keccak.laneXY, Keccak.laneXY, laneIndex, laneIndex, hx, hy]

theorem columnParity_congr (a : Keccak) {x x' : Nat} (hx : x % 5 = x' % 5) :
    columnParity a x = columnParity a x' := by
  simp only [columnParity, laneXY_congr a hx rfl]

theorem thetaD_congr (a : Keccak) {x x' : Nat} (hx : x % 5 = x' % 5) : thetaD a x = thetaD a x' := by
  rw [thetaD, thetaD, columnParity_congr a (show (x + 4) % 5 = (x' + 4) % 5 by omega),
    columnParity_congr a (show (x + 1) % 5 = (x' + 1) % 5 by omega)]

theorem theta_laneXY (a : Keccak) (x y : Nat) : (theta a).laneXY x y = a.laneXY x y ^^^ thetaD a x := by
  rw [Keccak.laneXY, theta_lane _ _ (laneIndex_lt x y), laneIndex_mod, thetaD_congr a (Nat.mod_mod x 5), Keccak.laneXY]

theorem chi_laneXY (a : Keccak) (x y : Nat) :
    (chi a).laneXY x y = a.laneXY x y ^^^ (~~~ a.laneXY (x + 1) y &&& a.laneXY (x + 2) y) := by
  rw [Keccak.laneXY, chi_lane _ _ (laneIndex_lt x y), laneIndex_mod, laneIndex_div,
    laneXY_congr a (Nat.mod_add_mod x 5 1) (Nat.mod_mod y 5), laneXY_congr a (Nat.mod_add_mod x 5 2) (Nat.mod_mod y 5)]
  rfl

theorem rhoTable_le (i : Nat) : rhoTable.getD i 0 ≤ 63 := by
  by_cases hi : i < 25
  · interval_cases i <;> decide
  · rw [List.getD_eq_default _ _ (by simpa [rhoTable] using hi)]; decide

theorem idxOf_piDst : ∀ i < 25, piDst.getD i 0 < 25 ∧ piDst.idxOf (piDst.getD i 0) = i := by decide

theorem piDst_laneIndex : ∀ x < 5, ∀ y < 5, piDst.getD (x + 5 * y) 0 = y + 5 * ((2 * x + 3 * y) % 5) := by decide

theorem rhoPi_lane_piDst (a : Keccak) {i : Nat} (hi : i < 25) :
    (rhoPi a).lane (piDst.getD i 0) = rotl64 (a.lane i) (rhoTable.getD i 0) := by
  obtain ⟨hlt, hsource⟩ := idxOf_piDst i hi
  rw [rhoPi_lane a _ hlt, hsource]

theorem rhoPi_laneXY (a : Keccak) {x y : Nat} (hx : x < 5) (hy : y < 5) :
    (rhoPi a).laneXY y (2 * x + 3 * y) = rotl64 (a.laneXY x y) (rhoTable.getD (x + 5 * y) 0) := by
  have hi : x + 5 * y < 25 := by omega
  rw [Keccak.laneXY, laneIndex, Nat.mod_eq_of_lt hy, ← piDst_laneIndex x hx y hy, rhoPi_lane_piDst a hi,
    Keccak.laneXY, laneIndex, Nat.mod_eq_of_lt hx, Nat.mod_eq_of_lt hy]

theorem iota_iota (a : Keccak) (r : Nat) : iota (iota a r) r = a := by
  apply keccak_ext
  intro i hi
  rw [iota_lane _ _ _ hi, iota_lane _ _ _ hi, iota_lane _ _ 0 (by decide)]
  by_cases h0 : i = 0 <;> simp [h0]

/-! ### The all-zero state -/

theorem theta_zero : theta Keccak.zero = Keccak.zero := by
  refine keccak_ext fun i hi => ?_
  simp [theta_lane _ _ hi, thetaD, columnParity, Keccak.laneXY, rotl64_zero_lane]

theorem rhoPi_zero : rhoPi Keccak.zero = Keccak.zero := by
  refine keccak_ext fun i hi => ?_
  simp [rhoPi_lane _ _ hi, rotl64_zero_lane (rhoTable_le _), -List.getD_eq_getElem?_getD]

theorem chi_zero : chi Keccak.zero = Keccak.zero := by
  refine keccak_ext fun i hi => ?_
  simp [chi_lane _ _ hi, Keccak.laneXY]

theorem rc_ne_zero : ∀ r ≤ 23, rc r ≠ 0 := by decide

theorem iota_zero_ne {r : Nat} (hr : r ≤ 23) : iota Keccak.zero r ≠ Keccak.zero := by
  intro h
  have h0 := congrArg (·.lane 0) h
  simp only [iota_lane _ _ 0 (by decide : 0 < 25), if_pos, lane_zero, BitVec.ofNat_eq_ofNat, BitVec.zero_xor] at h0
  exact rc_ne_zero r hr h0

/-- Evaluated: the first lane of the 24 rounds on the zero state. -/
theorem permute_zero_lane_zero : (permute Keccak.zero).lane 0 = 0xF1258F7940E1DDE7 := by decide +kernel

theorem permute_zero_ne : permute Keccak.zero ≠ Keccak.zero := by
  intro h
  have h0 := permute_zero_lane_zero
  rw [h, lane_zero] at h0
  exact absurd h0 (by decide)

/-! ### The tables and their generating rules -/

/-- A sequence given by its first term and its step is the iteration of that step. -/
theorem eq_iterate_of_step {α : Type} {f : Nat → α} {g : α → α} (h : ∀ n, f (n + 1) = g (f n)) (n : Nat) :
    f n = g^[n] (f 0) := by
  induction n with
  | zero => rfl
  | succ n ih => rw [h, ih, Function.iterate_succ_apply']

/-- A step of the walk of R141 over the lanes. -/
def rhoWalk (p : Nat × Nat) : Nat × Nat := (p.2, (2 * p.1 + 3 * p.2) % 5)

theorem rhoTable_rhoWalk :
    ∀ t < 24, rhoTable.getD ((rhoWalk^[t] (1, 0)).1 + 5 * (rhoWalk^[t] (1, 0)).2) 0 = ((t + 1) * (t + 2) / 2) % 64 := by
  decide

theorem piDst_perm : piDst.Perm (List.range 25) := by decide

/-- A step of the feedback register of R146. -/
def feedback (x : Nat) : Nat := if (x * 2).testBit 8 then (x * 2) ^^^ 0x171 else x * 2

theorem rc_feedback : ∀ r < 24, ∀ b < 64, (rc r).getLsbD b =
    (List.range 7).any fun j => b == 2 ^ j - 1 && (feedback^[7 * r + j] 1).testBit 0 := by
  decide +kernel

/-! ### Commands and command sequences that write `A` only -/

/-- From every healthy state the command completes with no output, its one effect being `f` on `A`. -/
def CompletesAs (i : Instr) (f : Keccak → Keccak) : Prop :=
  ∀ s : State, s.err = 0 → ∃ t, exec i s = .next t ∧ s.Completed t [] ∧ s.KeepsFft t ∧ t.a = f s.a

theorem completesAs_of_exec {i : Instr} {f : Keccak → Keccak} {checks : List Check}
    (hexec : ∀ s, exec i s = command s checks (s.setA (f s.a)) []) (hf : ∀ check ∈ checks, check.1 = false) :
    CompletesAs i f := fun s he => hexec s ▸ command_setA_completes (f s.a) [] he hf

theorem theta_completes : CompletesAs .theta theta := completesAs_of_exec exec_theta (by simp)
theorem rhopi_completes : CompletesAs .rhopi rhoPi := completesAs_of_exec exec_rhopi (by simp)
theorem chi_completes : CompletesAs .chi chi := completesAs_of_exec exec_chi (by simp)
theorem permute_completes : CompletesAs .permute permute := completesAs_of_exec exec_permute (by simp)

section
variable {r : Byte} (hr : r.toNat ≤ 23)
include hr

theorem not_roundIllegal : ∀ check ∈ [roundIllegal r], check.1 = false := by simp [roundIllegal, hr]

theorem iota_completes : CompletesAs (.iota r) (iota · r.toNat) :=
  completesAs_of_exec (exec_iota r) (not_roundIllegal hr)

theorem round_completes : CompletesAs (.round r) (rnd · r.toNat) :=
  completesAs_of_exec (exec_round r) (not_roundIllegal hr)
end

theorem command_roundIllegal {r : Byte} (hr : 23 < r.toNat) {s : State} (he : s.err = 0) (done : State) (out : Bytes) :
    command s [roundIllegal r] done out = .next (raise .illegalCommand s) :=
  command_raises _ _ he (by simp [firstFault, roundIllegal, hr])

/-- A sequence of such commands runs to its end and composes their effects, the first one first. -/
theorem execAll_completes {is : List Instr} {fs : List (Keccak → Keccak)} (h : List.Forall₂ CompletesAs is fs)
    {s : State} (he : s.err = 0) : ∃ u, execAll is s = some u ∧ u.a = fs.foldl (fun a f => f a) s.a := by
  induction h generalizing s with
  | nil => exact ⟨s, rfl, rfl⟩
  | cons hi _ ih =>
    obtain ⟨t, hexec, ⟨hterr, -⟩, -, hta⟩ := hi s he
    obtain ⟨u, hall, hua⟩ := ih hterr
    exact ⟨u, by rw [execAll, hexec]; exact hall, by rw [hua, hta, List.foldl_cons]⟩

theorem encodeWord_fieldA (op r : Byte) : encodeWord op r 0 = store32 (op.toNat * 2 ^ 24 + r.toNat * 2 ^ 16) := by
  simp [encodeWord, commandWord_toNat]

/-! ### Loops that write lanes in place -/

/-- A loop that rewrites lane `k`, for each `k` of a list without repetitions, from what it held at the start. -/
theorem foldl_setLane_lane (f : Nat → Lane → Lane) {l : List Nat} (hl : l.Nodup) (a : Keccak) {j : Nat} (hj : j < 25) :
    (l.foldl (fun a k => a.setLane k (f k (a.lane k))) a).lane j = if j ∈ l then f j (a.lane j) else a.lane j := by
  induction l generalizing a with
  | nil => rfl
  | cons k l ih =>
    obtain ⟨hk, hl⟩ := List.nodup_cons.mp hl
    rw [List.foldl_cons, ih hl, setLane_lane _ _ _ _ hj]
    by_cases hjk : j = k
    · simp [hjk, hk]
    · simp [hjk]

/-- The lanes in the order in which the in-place Theta visits them: column by column. -/
def columnOrder : List Nat := (List.range 5).flatMap fun x => (List.range 5).map fun y => x + 5 * y

theorem columnOrder_nodup : columnOrder.Nodup := by decide

theorem mem_columnOrder : ∀ j < 25, j ∈ columnOrder := by decide

theorem getD_map_range (f : Nat → Lane) {n k : Nat} (hk : k < n) : ((List.range n).map f).getD k 0 = f k := by
  simp [hk]

theorem columnParity_eq (a : Keccak) {x : Nat} (hx : x < 5) :
    columnParity a x = a.lane x ^^^ a.lane (x + 5) ^^^ a.lane (x + 10) ^^^ a.lane (x + 15) ^^^ a.lane (x + 20) := by
  simp only [columnParity, Keccak.laneXY, laneIndex, Nat.mod_eq_of_lt hx]
  rfl

theorem thetaInPlace_eq (a : Keccak) : thetaInPlace a = theta a := by
  have hparity (k : Nat) : ((List.range 5).map fun x =>
      a.lane x ^^^ a.lane (x + 5) ^^^ a.lane (x + 10) ^^^ a.lane (x + 15) ^^^ a.lane (x + 20)).getD (k % 5) 0 =
        columnParity a k := by
    have hk : k % 5 < 5 := Nat.mod_lt _ (by decide)
    rw [getD_map_range _ hk, ← columnParity_eq a hk, columnParity_congr a (Nat.mod_mod k 5)]
  have hD (x : Nat) : columnParity a (x + 4) ^^^ rotl64 (columnParity a (x + 1)) 1 = thetaD a x := rfl
  have hcolumn (x y : Nat) : thetaD a ((x + 5 * y) % 5) = thetaD a x := thetaD_congr a (by omega)
  have hloop : thetaInPlace a = columnOrder.foldl (fun b k => b.setLane k (b.lane k ^^^ thetaD a (k % 5))) a := by
    simp only [thetaInPlace, columnOrder, List.foldl_flatMap, List.foldl_map, hparity, hcolumn, hD]
  apply keccak_ext
  intro j hj
  rw [hloop, foldl_setLane_lane (fun k v => v ^^^ thetaD a (k % 5)) columnOrder_nodup a hj,
    if_pos (mem_columnOrder j hj), theta_lane a j hj]

/-! ### Rho and pi along the cycle -/

/-- The lane that the walk of R148 carries into step `k`: lane 1 first, then the lane it has just replaced. -/
def cycleLane (k : Nat) : Nat := (1 :: pilnTable).getD k 0

/-- `PILN` and `ROTC` follow `PIDST` and `RHO` along the walk. -/
theorem pilnTable_follows : ∀ k < 24,
    cycleLane k < 25 ∧ pilnTable.getD k 0 < 25 ∧ piDst.getD (cycleLane k) 0 = pilnTable.getD k 0 ∧
      rhoTable.getD (cycleLane k) 0 = rotcTable.getD k 0 := by
  decide

theorem pilnTable_fresh : ∀ k < 24, pilnTable.getD k 0 ∉ pilnTable.take k := by decide

theorem take_succ_pilnTable {k : Nat} (hk : k < 24) :
    pilnTable.take (k + 1) = pilnTable.take k ++ [pilnTable.getD k 0] := by
  have hlength : k < pilnTable.length := hk
  rw [List.take_succ_eq_append_getElem hlength, List.getD_eq_getElem _ _ hlength]

/-- One step of the walk: the carried lane, rotated, replaces the next one, which is carried on. -/
def cycleStep (carry : Keccak × Lane) (k : Nat) : Keccak × Lane :=
  (carry.1.setLane (pilnTable.getD k 0) (rotl64 carry.2 (rotcTable.getD k 0)), carry.1.lane (pilnTable.getD k 0))

theorem rhoPiInPlace_eq_foldl (a : Keccak) :
    rhoPiInPlace a = ((List.range 24).foldl cycleStep (a, a.lane 1)).1 := rfl

/-- After `n` steps the first `n` lanes of the walk are those of the new state, and the carried lane is still an old
one, because the walk meets no lane twice. -/
theorem foldl_cycleStep (a : Keccak) {n : Nat} (hn : n ≤ 24) :
    ((List.range n).foldl cycleStep (a, a.lane 1)).2 = a.lane (cycleLane n) ∧
    ∀ j < 25, ((List.range n).foldl cycleStep (a, a.lane 1)).1.lane j =
      if j ∈ pilnTable.take n then (rhoPi a).lane j else a.lane j := by
  induction n with
  | zero => exact ⟨rfl, fun j _ => rfl⟩
  | succ n ih =>
    obtain ⟨hcarry, hlanes⟩ := ih (by omega)
    have hk : n < 24 := hn
    obtain ⟨hsource, htarget, hdst, hrho⟩ := pilnTable_follows n hk
    have hnew : rotl64 (a.lane (cycleLane n)) (rotcTable.getD n 0) = (rhoPi a).lane (pilnTable.getD n 0) := by
      rw [← hdst, rhoPi_lane_piDst a hsource, hrho]
    rw [List.range_succ, List.foldl_append, List.foldl_cons, List.foldl_nil, cycleStep, hcarry, hnew]
    refine ⟨?_, fun j hj => ?_⟩
    · rw [hlanes _ htarget, if_neg (pilnTable_fresh n hk)]
      rfl
    · rw [setLane_lane _ _ _ _ hj, hlanes j hj]
      simp only [take_succ_pilnTable hk, List.mem_append, List.mem_singleton]
      by_cases hjn : j = pilnTable.getD n 0
      · rw [if_pos hjn, if_pos (.inr hjn), hjn]
      · simp only [hjn, or_false, if_false]

theorem mem_pilnTable : ∀ j < 25, j ≠ 0 → j ∈ pilnTable := by decide

theorem rhoPiInPlace_eq (a : Keccak) : rhoPiInPlace a = rhoPi a := by
  obtain ⟨-, hlanes⟩ := foldl_cycleStep a (Nat.le_refl 24)
  apply keccak_ext
  intro j hj
  rw [rhoPiInPlace_eq_foldl, hlanes j hj]
  by_cases h0 : j = 0
  · have fixed : (rhoPi a).lane 0 = a.lane 0 := rhoPi_lane_piDst a (show 0 < 25 by decide)
    rw [h0, fixed, ite_self]
  · exact if_pos (mem_pilnTable j hj h0)

/-! ### Chi row by row -/

/-- The in-place Chi on one row: copy it, then rewrite it. -/
def chiRow (a : Keccak) (y : Nat) : Keccak :=
  let bc := (List.range 5).map fun x => a.lane (5 * y + x)
  (List.range 5).foldl (init := a) fun a x =>
    a.setLane (5 * y + x) (bc.getD x 0 ^^^ (~~~ bc.getD ((x + 1) % 5) 0 &&& bc.getD ((x + 2) % 5) 0))

theorem chiInPlace_eq_foldl (a : Keccak) : chiInPlace a = (List.range 5).foldl chiRow a := rfl

theorem laneXY_eq_lane (a : Keccak) (x : Nat) {y : Nat} (hy : y < 5) : a.laneXY x y = a.lane (5 * y + x % 5) := by
  rw [Keccak.laneXY, laneIndex, Nat.mod_eq_of_lt hy, Nat.add_comm]

theorem chiRow_eq_foldl (a : Keccak) {y : Nat} (hy : y < 5) :
    chiRow a y = ((List.range 5).map (5 * y + ·)).foldl (fun b k => b.setLane k ((chi a).lane k)) a := by
  rw [List.foldl_map, chiRow]
  refine List.foldl_ext _ _ _ fun b x hx => ?_
  have hx : x < 5 := List.mem_range.mp hx
  have copied (k : Nat) : ((List.range 5).map fun x => a.lane (5 * y + x)).getD (k % 5) 0 = a.laneXY k y := by
    rw [getD_map_range _ (Nat.mod_lt _ (by decide)), laneXY_eq_lane a k hy]
  rw [copied, copied, getD_map_range _ hx, chi_lane a _ (by omega), show (5 * y + x) % 5 = x by omega,
    show (5 * y + x) / 5 = y by omega]

theorem chiRow_lane (a : Keccak) {y j : Nat} (hy : y < 5) (hj : j < 25) :
    (chiRow a y).lane j = if j / 5 = y then (chi a).lane j else a.lane j := by
  have hnodup : ((List.range 5).map (5 * y + ·)).Nodup := List.nodup_range.map fun _ _ => Nat.add_left_cancel
  have hrow : j ∈ (List.range 5).map (5 * y + ·) ↔ j / 5 = y := by
    simp only [List.mem_map, List.mem_range]
    exact ⟨fun ⟨x, hx, h⟩ => by omega, fun h => ⟨j % 5, by omega, by omega⟩⟩
  rw [chiRow_eq_foldl a hy, foldl_setLane_lane (fun k _ => (chi a).lane k) hnodup a hj]
  simp only [hrow]

/-- Chi reads no lane outside the row it writes. -/
theorem chi_lane_congr {a b : Keccak} {j : Nat} (hj : j < 25) (h : ∀ k < 25, k / 5 = j / 5 → b.lane k = a.lane k) :
    (chi b).lane j = (chi a).lane j := by
  have row (x : Nat) : b.laneXY x (j / 5) = a.laneXY x (j / 5) :=
    h _ (laneIndex_lt _ _) (by rw [laneIndex_div]; omega)
  rw [chi_lane _ _ hj, chi_lane _ _ hj, row, row, h j hj rfl]

/-- Row by row, each row still as it was when its turn comes. -/
theorem foldl_chiRow_lane {l : List Nat} (hl : l.Nodup) (hlt : ∀ y ∈ l, y < 5) (a : Keccak) {j : Nat} (hj : j < 25) :
    (l.foldl chiRow a).lane j = if j / 5 ∈ l then (chi a).lane j else a.lane j := by
  induction l generalizing a with
  | nil => rfl
  | cons y l ih =>
    obtain ⟨hy, hl⟩ := List.nodup_cons.mp hl
    obtain ⟨hylt, hlt⟩ := List.forall_mem_cons.mp hlt
    rw [List.foldl_cons, ih hl hlt, chiRow_lane a hylt hj]
    by_cases hjy : j / 5 = y
    · simp [hjy, hy]
    · have untouched : (chi (chiRow a y)).lane j = (chi a).lane j :=
        chi_lane_congr hj fun k hk hkj => by rw [chiRow_lane a hylt hk, if_neg (hkj ▸ hjy)]
      simp [hjy, untouched]

theorem chiInPlace_eq (a : Keccak) : chiInPlace a = chi a := by
  apply keccak_ext
  intro j hj
  rw [chiInPlace_eq_foldl, foldl_chiRow_lane List.nodup_range (fun _ => List.mem_range.mp) a hj,
    if_pos (List.mem_range.mpr (by omega))]

/-! ### The two strategies -/

theorem iotaInPlace_eq (a : Keccak) (r : Nat) : iotaInPlace a r = iota a r :=
  keccak_ext fun i hi => by rw [iotaInPlace, setLane_lane _ _ _ _ hi, iota_lane _ _ _ hi]

theorem rndInPlace_eq : rndInPlace = rnd := by
  funext a r
  rw [rndInPlace, thetaInPlace_eq, rhoPiInPlace_eq, chiInPlace_eq, iotaInPlace_eq, rnd]

/-- Two rounds an iteration, `n` iterations: `2n` rounds. -/
theorem foldl_two_rounds (n : Nat) (a : Keccak) :
    (List.range n).foldl (fun a q => rnd (rnd a (2 * q)) (2 * q + 1)) a = (List.range (2 * n)).foldl rnd a := by
  induction n with
  | zero => rw [Nat.mul_zero, List.range_zero, List.foldl_nil, List.foldl_nil]
  | succ n ih => simp only [Nat.mul_succ, List.range_succ, List.foldl_append, ih, List.foldl_cons, List.foldl_nil]

theorem permuteCompact_eq (a : Keccak) : permuteCompact a = permute a := by
  rw [permuteCompact, rndInPlace_eq, permute]

theorem permuteUnrolled2_eq (a : Keccak) : permuteUnrolled2 a = permute a := by
  rw [permute, ← foldl_two_rounds 12 a, permuteUnrolled2]

/-! ### Theta on the column parities -/

/-- `C ↦ C[x] ^ C[x - p] ^ rotate(C[x + p])` on the columns of a state, `x - p` as `x + 4p`: what Theta does to the
column parities, and the same with another offset and another rotation. -/
def mixColumns (p : Nat) (rotate : Lane → Lane) (c : Nat → Lane) (x : Nat) : Lane :=
  c x ^^^ c (x + 4 * p) ^^^ rotate (c (x + p))

theorem columnParity_theta (a : Keccak) :
    columnParity (theta a) = mixColumns 1 (rotl64 · 1) (columnParity a) := by
  funext x
  have five (c0 c1 c2 c3 c4 d : Lane) : (c0 ^^^ d) ^^^ (c1 ^^^ d) ^^^ (c2 ^^^ d) ^^^ (c3 ^^^ d) ^^^ (c4 ^^^ d) =
      c0 ^^^ c1 ^^^ c2 ^^^ c3 ^^^ c4 ^^^ d := by
    simp only [BitVec.xor_assoc, BitVec.xor_comm, lane_xor_left_comm, lane_xor_cancel_left]
  simp only [mixColumns, columnParity, theta_laneXY, five]
  rw [thetaD, ← BitVec.xor_assoc]
  rfl

/-- In characteristic 2 the square of a sum is the sum of the squares: both cross terms occur twice. -/
theorem mixColumns_mixColumns {rotate : Lane → Lane} (hxor : ∀ v w, rotate (v ^^^ w) = rotate v ^^^ rotate w)
    (p : Nat) (c : Nat → Lane) :
    mixColumns p rotate (mixColumns p rotate c) = mixColumns (2 * p) (rotate ∘ rotate) c := by
  funext x
  simp only [mixColumns, hxor, Function.comp, show x + 4 * p + 4 * p = x + 4 * (2 * p) by omega,
    show x + p + 4 * p = x + 4 * p + p by omega, show x + p + p = x + 2 * p by omega]
  simp only [BitVec.xor_assoc, BitVec.xor_comm, lane_xor_left_comm, lane_xor_cancel_left]

theorem iterate_xor {rotate : Lane → Lane} (hxor : ∀ v w, rotate (v ^^^ w) = rotate v ^^^ rotate w) (n : Nat)
    (v w : Lane) : rotate^[n] (v ^^^ w) = rotate^[n] v ^^^ rotate^[n] w := by
  induction n with
  | zero => rfl
  | succ n ih => simp only [Function.iterate_succ_apply', ih, hxor]

theorem mixColumns_iterate {rotate : Lane → Lane} (hxor : ∀ v w, rotate (v ^^^ w) = rotate v ^^^ rotate w) (k : Nat) :
    (mixColumns 1 rotate)^[2 ^ k] = mixColumns (2 ^ k) (rotate^[2 ^ k]) := by
  induction k with
  | zero => rfl
  | succ k ih =>
    rw [Nat.pow_succ', Nat.two_mul, Function.iterate_add, Function.iterate_add, ih, ← Nat.two_mul]
    exact funext (mixColumns_mixColumns (iterate_xor hxor _) _)

/-- Without a rotation, on five columns the mixing has order 3: it is undone by its own square, which
`mixColumns_mixColumns` gives the offset 128. -/
theorem mixColumns_order_three {c : Nat → Lane} (hc : ∀ {x x' : Nat}, x % 5 = x' % 5 → c x = c x') :
    mixColumns 128 id (mixColumns 64 id c) = c := by
  funext x
  have offset (k : Nat) : c (x + k) = c (x + k % 5) := hc (Nat.add_mod_mod x k 5).symm
  simp only [mixColumns, id, Nat.add_assoc, offset 256, offset 64, offset (4 * 128), offset 128,
    offset (4 * 128 + 4 * 64), offset (4 * 128 + 64), offset (128 + 4 * 64), offset (128 + 64)]
  simp only [Nat.reduceMul, Nat.reduceAdd, Nat.reduceMod]
  simp only [BitVec.xor_assoc, BitVec.xor_comm, lane_xor_left_comm, lane_xor_cancel_left, BitVec.xor_self,
    BitVec.xor_zero]

/-- The column parities of the old state, from those of the new one: 64 mixings are one without a rotation, since 64
rotations by 1 are none. -/
theorem columnParity_eq_of_theta_eq {a b : Keccak} (h : theta a = theta b) : columnParity a = columnParity b := by
  have recovers (a : Keccak) :
      mixColumns 128 id ((mixColumns 1 (rotl64 · 1))^[63] (columnParity (theta a))) = columnParity a := by
    have hmix := mixColumns_iterate (rotate := (rotl64 · 1)) (fun v w => rotl64_xor v w (by decide)) 6
    rw [show 2 ^ 6 = 63 + 1 from rfl, rotl64_one_iterate_64] at hmix
    rw [columnParity_theta, ← Function.iterate_succ_apply, hmix]
    exact mixColumns_order_three (columnParity_congr a)
  rw [← recovers a, h, recovers b]

/-! ### The linear steps lose nothing -/

theorem theta_injective : Function.Injective theta := by
  intro a b h
  have hc := columnParity_eq_of_theta_eq h
  apply keccak_ext
  intro i hi
  have hlane := congrArg (·.lane i) h
  simp only [theta_lane _ _ hi, thetaD, hc] at hlane
  simpa using hlane

theorem rhoPi_injective : Function.Injective rhoPi := by
  intro a b h
  apply keccak_ext
  intro i hi
  apply rotl64_injective (rhoTable_le i)
  simp only [← rhoPi_lane_piDst _ hi, h]

theorem finite_keccak : Finite Keccak :=
  Finite.of_injective (fun a (i : Fin 25) => a.lane i) fun _ _ h => keccak_ext fun i hi => congrFun h ⟨i, hi⟩

/-! ### The obligations -/

/-- Settles O18: the column parities determine `C`, hence `D`, and Theta's lanes are read in coordinates. -/
theorem thetaMixesColumnParities : Obligations.ThetaMixesColumnParities := by
  refine ⟨rfl, fun s he => ?_⟩
  obtain ⟨t, hexec, hcompleted, hfft, ha⟩ := theta_completes s he
  refine ⟨t, hexec, hcompleted, hfft, fun C D hC hD x y _ _ => ?_⟩
  have hparity : C = columnParity s.a := funext hC
  rw [ha, theta_laneXY, hD, hparity, columnParity_congr _ (Nat.mod_mod (x + 4) 5),
    columnParity_congr _ (Nat.mod_mod (x + 1) 5), thetaD]

/-- Settles O19: the walks and the feedback register are iterations of their steps, so each table is evaluated
against them. -/
theorem permutationTablesFollowTheirRules : Obligations.PermutationTablesFollowTheirRules := by
  refine ⟨⟨rfl, fun walk h0 hstep t ht => ?_⟩,
    ⟨rfl, fun x y hx hy => piDst_laneIndex x hx y hy, piDst_perm, rfl, fun c h0 hstep => ?_⟩, by decide,
    fun reg h0 hstep => ⟨rfl, fun r hr b hb => ?_⟩⟩
  · rw [eq_iterate_of_step (g := rhoWalk) hstep t, h0, rhoTable_rhoWalk t ht]
  · rw [funext (eq_iterate_of_step (g := (piDst.getD · 0)) hstep), h0]
    decide
  · rw [funext (eq_iterate_of_step (g := feedback) hstep), h0]
    exact rc_feedback r hr b hb

/-- Settles O20: `PIDST` has no repetitions, so the lane at `PIDST[i]` is taken from lane `i`. -/
theorem rhopiRotatesAndRelocates : Obligations.RhopiRotatesAndRelocates := by
  refine ⟨rfl, fun s he => ?_⟩
  obtain ⟨t, hexec, hcompleted, hfft, ha⟩ := rhopi_completes s he
  exact ⟨t, hexec, hcompleted, hfft, fun i hi => ha ▸ rhoPi_lane_piDst s.a hi,
    fun x y hx hy => ha ▸ rhoPi_laneXY s.a hx hy⟩

/-- Settles O21: Chi's lanes read in coordinates. -/
theorem chiMixesEachRow : Obligations.ChiMixesEachRow := by
  refine ⟨rfl, fun s he => ?_⟩
  obtain ⟨t, hexec, hcompleted, hfft, ha⟩ := chi_completes s he
  exact ⟨t, hexec, hcompleted, hfft, fun x y _ _ => ha ▸ chi_laneXY s.a x y⟩

/-- Settles O22: the index is the one condition, XOR with `RC[r]` undoes itself, and no `RC[r]` is 0. -/
theorem iotaChangesLaneZeroOnly : Obligations.IotaChangesLaneZeroOnly := by
  refine ⟨⟨theta_zero, rhoPi_zero, chi_zero, fun r => iota_zero_ne⟩, fun r => ⟨encodeWord_fieldA 0x15 r, fun s he =>
    ⟨fun hr => ⟨?_, ?_⟩, fun hr => command_roundIllegal hr he _ _⟩⟩⟩
  · obtain ⟨t, hexec, hcompleted, hfft, ha⟩ := iota_completes hr s he
    refine ⟨t, hexec, hcompleted, hfft, ?_, fun i h1 hi => ?_⟩
    · rw [ha, iota_lane _ _ _ (by decide), if_pos rfl]
    · rw [ha, iota_lane _ _ _ hi, if_neg (by omega)]
  · have hi := iota_completes hr
    obtain ⟨u, hall, hu⟩ := execAll_completes (.cons hi (.cons hi .nil)) he
    exact ⟨u, hall, hu.trans (iota_iota s.a _)⟩

/-- Settles O23: the four commands complete in turn and their effects compose to `rnd`. -/
theorem roundIsItsFourSteps : Obligations.RoundIsItsFourSteps := by
  refine fun r => ⟨encodeWord_fieldA 0x11 r, fun s he => ⟨fun hr => ?_, fun hr => command_roundIllegal hr he _ _⟩⟩
  obtain ⟨t, hexec, hcompleted, hfft, ha⟩ := round_completes hr s he
  have steps : List.Forall₂ CompletesAs [.theta, .rhopi, .chi, .iota r] [theta, rhoPi, chi, (iota · r.toNat)] :=
    .cons theta_completes (.cons rhopi_completes (.cons chi_completes (.cons (iota_completes hr) .nil)))
  obtain ⟨u, hall, hu⟩ := execAll_completes steps he
  exact ⟨t, u, hexec, hcompleted, hfft, hall, ha.trans hu.symm⟩

/-- Settles O24: the 24 ROUND commands complete in turn, and folding their effects is `permute`. -/
theorem permuteIsTwentyFourRounds : Obligations.PermuteIsTwentyFourRounds := by
  refine ⟨rfl, permute_zero_ne, fun s he => ?_⟩
  obtain ⟨t, hexec, hcompleted, hfft, ha⟩ := permute_completes s he
  have rounds : List.Forall₂ CompletesAs ((List.range 24).map fun r => .round (BitVec.ofNat 8 r))
      ((List.range 24).map fun r a => rnd a r) := by
    rw [List.forall₂_map_left_iff, List.forall₂_map_right_iff, List.forall₂_same]
    intro r hr
    have hr : r < 24 := List.mem_range.mp hr
    have hindex : (BitVec.ofNat 8 r).toNat = r := by rw [BitVec.toNat_ofNat]; omega
    simpa only [hindex] using round_completes (r := BitVec.ofNat 8 r) (by omega)
  obtain ⟨u, hall, hu⟩ := execAll_completes rounds he
  rw [List.foldl_map] at hu
  exact ⟨t, u, hexec, hcompleted, hfft, ha, hall, ha.trans hu.symm⟩

/-- Settles O25: each in-place step is the step it implements, and 12 double rounds are 24 rounds. -/
theorem permutationStrategiesAgree : Obligations.PermutationStrategiesAgree := by
  intro strategy a
  cases strategy with
  | compact => exact permuteCompact_eq a
  | unrolled2 => exact permuteUnrolled2_eq a

/-- Settles O26: Theta is undone on the column parities first, RhoPi lane by lane, and Iota is its own inverse. -/
theorem linearStepsAreBijections : Obligations.LinearStepsAreBijections := by
  have := finite_keccak
  exact ⟨Finite.injective_iff_bijective.mp theta_injective, Finite.injective_iff_bijective.mp rhoPi_injective,
    fun r _ => Function.Involutive.bijective fun a => iota_iota a r⟩

end Machine
end Sys2Proof
end

section
/-! PROOFS. The family of spec/42_sponge.md: byte strings cut at block boundaries, the padded block byte by byte,
absorbing and squeezing in parts, and the conditions of the three sponge commands. -/

namespace Sys2Proof

/-! ### Slices of joined strings -/

theorem slice_append_left (s t : Bytes) : slice (s ++ t) 0 s.length = s := by simp [slice]

theorem slice_append_right (s t : Bytes) : slice (s ++ t) s.length (s ++ t).length = t := by simp [slice]

theorem slice_append_add (s t : Bytes) (i j : Nat) : slice (s ++ t) (s.length + i) (s.length + j) = slice t i j := by
  rw [slice, slice, List.drop_length_add_append, Nat.add_sub_add_left]

/-- R81, R83: the word of a command with two fields. -/
theorem encodeWord_fieldsAB (op a b : Byte) :
    encodeWord op a b = store32 (op.toNat * 2 ^ 24 + a.toNat * 2 ^ 16 + b.toNat * 2 ^ 8) := by
  rw [encodeWord, commandWord_toNat]

namespace Machine

/-! ### The padded block -/

theorem byteAt_tail_dom_zeros (t : Bytes) (dom : Byte) {n k : Nat} (hk : k < t.length + 1 + n) :
    byteAt (t ++ dom :: zeros n) k = if k < t.length then byteAt t k else if k = t.length then dom else 0#8 := by
  rcases Nat.lt_trichotomy k t.length with hlt | rfl | hgt
  · rw [if_pos hlt, byteAt, List.getD_append _ _ _ _ hlt, byteAt]
  · simp [byteAt]
  · obtain ⟨j, rfl⟩ := Nat.exists_eq_add_of_lt hgt
    rw [if_neg (by omega), if_neg (by omega), byteAt, List.getD_append_right _ _ _ _ (by omega),
      show t.length + j + 1 - t.length = j + 1 by omega, List.getD_cons_succ, zeros, List.getD_replicate _ (by omega)]
    rfl

/-- R170, each byte from its two contributions: the tail, the domain byte and zeros; and `0x80` in the last byte. -/
theorem byteAt_pad {t : Bytes} {rate k : Nat} (dom : Byte) (ht : t.length < rate) (hk : k < rate) :
    byteAt (pad t dom rate) k = (if k < t.length then byteAt t k else if k = t.length then dom else 0#8) |||
      (if k = rate - 1 then 0x80 else 0#8) := by
  rw [← byteAt_tail_dom_zeros t dom (show k < t.length + 1 + (rate - t.length - 1) by omega)]
  by_cases hlast : k = rate - 1
  · have inside : rate - 1 < (t ++ dom :: zeros (rate - t.length - 1)).length := by
      rw [List.length_append, List.length_cons, zeros_length]; omega
    rw [if_pos hlast, hlast, pad, byteAt, List.getD_eq_getElem?_getD, List.getElem?_set_self inside, Option.getD_some]
  · rw [if_neg hlast, BitVec.or_zero, pad, byteAt, List.getD_eq_getElem?_getD, List.getElem?_set_ne (Ne.symm hlast),
      ← List.getD_eq_getElem?_getD, byteAt]

/-! ### Absorbing in parts -/

theorem absorbBlocks_block_append (a : Keccak) {block : Bytes} {rate : Nat} (hr : 0 < rate)
    (hb : block.length = rate) (s : Bytes) :
    absorbBlocks a (block ++ s) rate = absorbBlocks (permute (xorBlock a block rate)) s rate := by
  have count : (block ++ s).length / rate = s.length / rate + 1 := by
    rw [List.length_append, hb, Nat.add_div_left _ hr]
  have first : slice (block ++ s) (0 * rate) ((0 + 1) * rate) = block := by
    rw [Nat.zero_mul, Nat.zero_add, Nat.one_mul, ← hb, slice_append_left]
  have later (i : Nat) :
      slice (block ++ s) ((i + 1) * rate) ((i + 1 + 1) * rate) = slice s (i * rate) ((i + 1) * rate) := by
    rw [Nat.succ_mul (i + 1), Nat.succ_mul i, Nat.add_comm _ rate, Nat.add_comm _ rate, ← hb, slice_append_add]
  simp only [absorbBlocks, count, List.range_succ_eq_map, List.foldl_cons, List.foldl_map, Nat.succ_eq_add_one, first,
    later]

/-- R177 for whole blocks: a string may be cut behind any of them. -/
theorem absorbBlocks_append (a : Keccak) {s1 : Bytes} {rate : Nat} (hr : 0 < rate) (h1 : s1.length % rate = 0)
    (s2 : Bytes) : absorbBlocks a (s1 ++ s2) rate = absorbBlocks (absorbBlocks a s1 rate) s2 rate := by
  revert a
  apply blocks_induction rate ?nil ?block s1 h1
  case nil =>
    intro a
    rw [List.nil_append, absorbBlocks_nil]
  case block =>
    intro block s hb _ ih a
    rw [List.append_assoc, absorbBlocks_block_append a hr hb, absorbBlocks_block_append a hr hb, ih]

theorem absorbBlocks_block (a : Keccak) {block : Bytes} {rate : Nat} (hr : 0 < rate) (hb : block.length = rate) :
    absorbBlocks a block rate = permute (xorBlock a block rate) := by
  have h := absorbBlocks_block_append a hr hb []
  rwa [List.append_nil, absorbBlocks_nil] at h

/-- R175 on the cut it makes. -/
theorem absorb_whole_append_rest (a : Keccak) {rate : Nat} {whole rest : Bytes} (hw : whole.length % rate = 0)
    (hrest : rest.length < rate) (dom : Byte) :
    absorb a rate (whole ++ rest) dom = xorBlock (absorbBlocks a whole rate) (pad rest dom rate) rate := by
  have cut : (whole ++ rest).length / rate * rate = whole.length := by
    rw [List.length_append, Nat.add_div_of_dvd_right (Nat.dvd_of_mod_eq_zero hw), Nat.div_eq_of_lt hrest,
      Nat.add_zero, Nat.div_mul_cancel (Nat.dvd_of_mod_eq_zero hw)]
  simp only [absorb, cut, slice_append_left, slice_append_right]

/-- R177 for a message of any length. -/
theorem absorb_append (a : Keccak) {s1 : Bytes} {rate : Nat} (hr : 0 < rate) (h1 : s1.length % rate = 0) (s2 : Bytes)
    (dom : Byte) : absorb a rate (s1 ++ s2) dom = absorb (absorbBlocks a s1 rate) rate s2 dom := by
  obtain ⟨whole, rest, rfl, hw, hrest⟩ := split_blocks rate hr s2
  have joined : (s1 ++ whole).length % rate = 0 := by rw [List.length_append, Nat.add_mod, h1, hw, Nat.zero_mod]
  rw [← List.append_assoc, absorb_whole_append_rest a joined hrest, absorb_whole_append_rest _ hw hrest,
    absorbBlocks_append a hr h1]

/-! ### Squeezing in parts -/

theorem squeeze_add (a : Keccak) (m n rate : Nat) :
    squeeze a (m + n) rate =
      ((squeeze (squeeze a m rate).1 n rate).1, (squeeze a m rate).2 ++ (squeeze (squeeze a m rate).1 n rate).2) := by
  induction m generalizing a with
  | zero => rw [Nat.zero_add, squeeze_zero, List.nil_append]
  | succ m ih => rw [Nat.succ_add, squeeze_succ, squeeze_succ, ih, List.append_assoc]

theorem squeeze_one (a : Keccak) (rate : Nat) : squeeze a 1 rate = (permute a, extract (permute a) rate) := by
  rw [squeeze_succ, squeeze_zero, List.append_nil]

/-! ### The conditions of the commands that carry a rate -/

section
variable {rate : Byte}

theorem rateInvalid_of_valid (hr : 0 < rate.toNat ∧ rate.toNat % 8 = 0 ∧ rate.toNat ≤ 200) :
    rateInvalid rate = (false, .invalidRate) := by
  rw [rateInvalid, (rateValid_iff _).mpr hr, Bool.not_true]

theorem command_rateInvalid (hr : ¬ (0 < rate.toNat ∧ rate.toNat % 8 = 0 ∧ rate.toNat ≤ 200)) {s : State}
    (he : s.err = 0) (checks : List Check) (done : State) (out : Bytes) :
    command s (rateInvalid rate :: checks) done out = .next (raise .invalidRate s) := by
  refine command_raises done out he ?_
  rw [← rateValid_iff, Bool.not_eq_true] at hr
  rw [rateInvalid, hr]
  rfl
end

/-! ### The obligations -/

/-- Settles O27: at each place one or both of the two contributions to `byteAt_pad` remain. -/
theorem padWritesDomainByteThenTopBit : Obligations.PadWritesDomainByteThenTopBit := by
  intro t dom rate _ ht
  refine ⟨pad_length t dom rate ht, fun k hk => ?_, fun htwo => ⟨?_, fun k hk hkr => ?_, ?_⟩, fun hone => ?_⟩
  · rw [byteAt_pad dom ht (by omega), if_pos hk, if_neg (by omega), BitVec.or_zero]
  · rw [byteAt_pad dom ht ht, if_neg (by omega), if_pos rfl, if_neg (by omega), BitVec.or_zero]
  · rw [byteAt_pad dom ht (by omega), if_neg (by omega), if_neg (by omega), if_neg (by omega), BitVec.or_zero]
    rfl
  · rw [byteAt_pad dom ht (by omega), if_neg (by omega), if_neg (by omega), if_pos rfl, BitVec.zero_or]
  · rw [byteAt_pad dom ht (by omega), if_neg (by omega), if_pos (by omega), if_pos rfl]

/-- Settles O28: a block in front is the first round of the loop, and whole blocks may be absorbed in two parts. -/
theorem absorbBlocksTakesBlocksInOrder : Obligations.AbsorbBlocksTakesBlocksInOrder := by
  intro a rate hvalid
  obtain ⟨hr, -, -⟩ := (rateValid_iff rate).mp hvalid
  refine ⟨absorbBlocks_nil a rate, fun s block hs hb => ⟨absorbBlocks_block_append a hr hb s, ?_⟩⟩
  rw [absorbBlocks_append a hr hs, absorbBlocks_block _ hr hb]

/-- Settles O29: rate and capacity are the two conditions, and the effect is read off at the given cut. -/
theorem absorbPadsWithoutPermuting : Obligations.AbsorbPadsWithoutPermuting := by
  intro rate dom input
  refine ⟨congrArg (· ++ encodePayload input) (encodeWord_fieldsAB 0x20 rate dom), fun s he =>
    ⟨fun hr hfits => ?_, fun hr => command_rateInvalid hr he _ _ _, fun hr hbig => ?_⟩⟩
  · obtain ⟨t, hexec, hcompleted, hfft, ha⟩ := command_setA_completes
      (checks := [rateInvalid rate, payloadsExceed s [input]]) (absorb s.a rate.toNat input dom) [] he
      (by simp [rateInvalid_of_valid hr, payloadsExceed, hfits])
    refine ⟨t, hexec, hcompleted, hfft, fun whole rest hinput hw hrest => ?_⟩
    rw [ha, hinput, absorb_whole_append_rest s.a hw hrest]
  · exact command_raises _ _ he (by simp [firstFault, rateInvalid_of_valid hr, payloadsExceed, hbig])

/-- Settles O30: a stream is squeezed in two parts, of which the last may be one block; rate and output size are the
two conditions. -/
theorem squeezePermutesBeforeEveryBlock : Obligations.SqueezePermutesBeforeEveryBlock := by
  refine ⟨fun a rate => ⟨squeeze_zero a rate, fun n => by rw [squeeze_add, squeeze_one],
    fun m n => squeeze_add a m n rate⟩, fun rate n => ⟨congrArg (· ++ store32 n.toNat) (encodeWord_fieldA 0x21 rate),
    fun s he => ⟨fun hr hfits => ?_, fun hr => command_rateInvalid hr he _ _ _, fun hr hbig => ?_⟩⟩⟩
  · obtain ⟨t, hexec, hcompleted, hfft, ha⟩ := command_setA_completes
      (checks := [rateInvalid rate, outputExceeds s (n.toNat * rate.toNat)]) (squeeze s.a n.toNat rate.toNat).1
      (squeeze s.a n.toNat rate.toNat).2 he (by simp [rateInvalid_of_valid hr, outputExceeds, hfits])
    exact ⟨t, _, hexec, hcompleted, hfft, by rw [ha], squeeze_length _ _ hr.2.1 s.a⟩
  · exact command_raises _ _ he
      (by simp [firstFault, rateInvalid_of_valid hr, outputExceeds, countOperand, rateOperand, hbig])

/-- Settles O31: rate, whole blocks and capacity are the three conditions, in this order. -/
theorem blockupdateAbsorbsWholeBlocks : Obligations.BlockupdateAbsorbsWholeBlocks := by
  intro rate blocks
  refine ⟨congrArg (· ++ encodePayload blocks) (encodeWord_fieldA 0x22 rate), fun s he =>
    ⟨fun hr hwhole hfits => ?_, fun hr => command_rateInvalid hr he _ _ _, fun hr hcut => ?_,
      fun hr hwhole hbig => ?_⟩⟩
  · exact command_setA_completes _ [] he
      (by simp [rateInvalid_of_valid hr, notWholeBlocks, hwhole, payloadsExceed, hfits])
  · exact command_raises _ _ he (by simp [firstFault, rateInvalid_of_valid hr, notWholeBlocks, hcut])
  · exact command_raises _ _ he
      (by simp [firstFault, rateInvalid_of_valid hr, notWholeBlocks, hwhole, payloadsExceed, hbig])

/-- Settles O32: both laws are the ones for a cut behind whole blocks. -/
theorem streamingEqualsOneShot : Obligations.StreamingEqualsOneShot := by
  intro a rate dom s1 s2 hvalid h1
  obtain ⟨hr, -, -⟩ := (rateValid_iff rate).mp hvalid
  exact ⟨(absorb_append a hr h1 s2 dom).symm, fun _ => (absorbBlocks_append a hr h1 s2).symm⟩

end Machine
end Sys2Proof
end

section
/-! PROOFS. The family of spec/43_constructions.md: the conditions of the construction commands, the output stages, what
each command does when it completes, streamed sessions, and commands that do not read `A`. -/

namespace Sys2Proof
namespace Machine

/-! ### The construction table (R190) -/

theorem rateOfWidth_of_mem {w : Byte} {rate : Nat} (h : (w, rate) ∈ [((0 : Byte), 168), (1, 136), (2, 72)]) :
    w.toNat ≤ 2 ∧ rateOfWidth w = rate := by
  simp only [List.mem_cons, List.not_mem_nil, or_false, Prod.mk.injEq] at h
  rcases h with ⟨rfl, rfl⟩ | ⟨rfl, rfl⟩ | ⟨rfl, rfl⟩ <;> decide

theorem sha3Width_of_mem {w : Byte} {rate h : Nat} (hmem : (w, rate, h) ∈ [((1 : Byte), 136, 32), (2, 72, 64)]) :
    (w = 1 ∨ w = 2) ∧ rateOfWidth w = rate ∧ sha3OutputBytes w = h := by
  simp only [List.mem_cons, List.not_mem_nil, or_false, Prod.mk.injEq] at hmem
  rcases hmem with ⟨rfl, rfl, rfl⟩ | ⟨rfl, rfl, rfl⟩ <;> decide

theorem rateOfWidth_pos (w : Byte) : 0 < rateOfWidth w := ((rateValid_iff _).mp (rateOfWidth_valid w).1).1

/-- The rate of a selector fits the rate field of a command. -/
theorem toNat_ofNat_rateOfWidth (w : Byte) : (BitVec.ofNat 8 (rateOfWidth w)).toNat = rateOfWidth w := by
  have := (rateOfWidth_valid w).2
  rw [BitVec.toNat_ofNat, Nat.mod_eq_of_lt (by omega)]

theorem rateField_valid (w : Byte) : 0 < (BitVec.ofNat 8 (rateOfWidth w)).toNat ∧
    (BitVec.ofNat 8 (rateOfWidth w)).toNat % 8 = 0 ∧ (BitVec.ofNat 8 (rateOfWidth w)).toNat ≤ 200 := by
  rw [toNat_ofNat_rateOfWidth]
  exact (rateValid_iff _).mp (rateOfWidth_valid w).1

/-! ### The conditions of the construction commands (R87) -/

-- When each condition does not hold.
@[simp] theorem widthIllegal_fst {w : Byte} : (widthIllegal w).1 = false ↔ w.toNat ≤ 2 := by simp [widthIllegal]

theorem bitLengthOverflow_fst {len : Nat} : (bitLengthOverflow len).1 = false ↔ 8 * len < 2 ^ 64 := by
  simp [bitLengthOverflow]

@[simp] theorem payloadsExceed_fst {s : State} {payloads : List Bytes} :
    (payloadsExceed s payloads).1 = false ↔ (payloads.map List.length).sum ≤ s.cfg.ibufBytes := by
  simp [payloadsExceed]

@[simp] theorem outputExceeds_fst {s : State} {len : Nat} :
    (outputExceeds s len).1 = false ↔ len ≤ s.cfg.obufBytes := by
  simp [outputExceeds]

theorem sha3WidthIllegal_fst {w : Byte} (hw : w = 1 ∨ w = 2) : (sha3WidthIllegal w).1 = false := by
  rcases hw with rfl | rfl <;> rfl

/-- A 32-bit output length never overflows its encoding (R206). -/
theorem bitLengthOverflow_countOperand (n : Word32) : (bitLengthOverflow (countOperand n)).1 = false := by
  have : countOperand n < 2 ^ 32 := n.isLt
  exact bitLengthOverflow_fst.mpr (by omega)

section
variable {s : State} {w : Byte} {check : Check} {checks : List Check} {done : State} {out : Bytes}

/-- A condition that does not hold leaves the verdict to the later ones. -/
theorem command_passes (h : check.1 = false) : command s (check :: checks) done out = command s checks done out := by
  obtain ⟨holds, fault⟩ := check
  obtain rfl : holds = false := h
  rfl

variable (he : s.err = 0)
include he

/-- The first condition, when it holds, decides. -/
theorem command_stops (h : check.1 = true) :
    command s (check :: checks) done out = .next (raise check.2 s) := by
  obtain ⟨holds, fault⟩ := check
  obtain rfl : holds = true := h
  exact command_raises done out he rfl

theorem command_widthIllegal (hw : 2 < w.toNat) :
    command s (widthIllegal w :: checks) done out = .next (raise .illegalCommand s) :=
  command_stops he (decide_eq_true hw)

theorem command_sha3WidthIllegal (hw : w = 0 ∨ 2 < w.toNat) :
    command s (sha3WidthIllegal w :: checks) done out = .next (raise .illegalCommand s) := by
  refine command_stops he ?_
  rcases hw with rfl | hw
  · rfl
  · simp [sha3WidthIllegal, hw]

theorem command_encodingOverflow {len len' : Nat} (hw : w.toNat ≤ 2) (h : 2 ^ 64 ≤ 8 * len ∨ 2 ^ 64 ≤ 8 * len') :
    command s (widthIllegal w :: bitLengthOverflow len :: bitLengthOverflow len' :: checks) done out =
      .next (raise .encodingOverflow s) := by
  rw [command_passes (widthIllegal_fst.mpr hw)]
  by_cases hlen : 2 ^ 64 ≤ 8 * len
  · exact command_stops he (decide_eq_true hlen)
  · rw [command_passes (bitLengthOverflow_fst.mpr (Nat.lt_of_not_le hlen))]
    exact command_stops he (decide_eq_true (h.resolve_left hlen))

theorem command_payloadsExceed {payloads : List Bytes} (h : s.cfg.ibufBytes < (payloads.map List.length).sum) :
    command s (payloadsExceed s payloads :: checks) done out = .next (raise .bufferTooSmall s) :=
  command_stops he (decide_eq_true h)

theorem command_outputExceeds {len : Nat} (h : s.cfg.obufBytes < len) :
    command s (outputExceeds s len :: checks) done out = .next (raise .bufferTooSmall s) :=
  command_stops he (decide_eq_true h)

theorem command_buffersExceeded {payloads : List Bytes} {len : Nat}
    (h : s.cfg.ibufBytes < (payloads.map List.length).sum ∨ s.cfg.obufBytes < len) :
    command s [payloadsExceed s payloads, outputExceeds s len] done out = .next (raise .bufferTooSmall s) := by
  by_cases hin : s.cfg.ibufBytes < (payloads.map List.length).sum
  · exact command_payloadsExceed he hin
  · rw [command_passes (payloadsExceed_fst.mpr (Nat.le_of_not_lt hin))]
    exact command_outputExceeds he (h.resolve_left hin)

end

/-! ### The output stages -/

/-- `ceil(l / rate)` is the whole blocks of `l` and one more when they leave a rest. -/
theorem ceilDiv_eq (l : Nat) {rate : Nat} (hr : 0 < rate) :
    ceilDiv l rate = l / rate + if l % rate ≠ 0 then 1 else 0 := by
  have hpred : rate - 1 < rate := Nat.sub_one_lt_of_lt hr
  have hrest : rate ≤ l % rate + (rate - 1) ↔ l % rate ≠ 0 := by omega
  rw [ceilDiv, Nat.add_sub_assoc hr, Nat.add_div hr, Nat.div_eq_of_lt hpred, Nat.mod_eq_of_lt hpred, Nat.add_zero]
  simp only [hrest]

/-- R198: the output stage squeezes `ceil(l / rate)` blocks and keeps their first `l` bytes. -/
theorem xofOut_eq (a : Keccak) {rate : Nat} (hr : 0 < rate) (h8 : rate % 8 = 0) (l : Nat) :
    xofOut a rate l = ((squeeze a (ceilDiv l rate) rate).1, (squeeze a (ceilDiv l rate) rate).2.take l) := by
  have whole : (squeeze a (l / rate) rate).2.length = l - l % rate := by
    rw [squeeze_length _ _ h8, Nat.div_mul_self_eq_mod_sub_self]
  have hmod := Nat.mod_le l rate
  rw [ceilDiv_eq l hr, xofOut]
  split
  · rw [squeeze_add, List.take_append, List.take_of_length_le (by omega), whole, Nat.sub_sub_self hmod]
  · rw [Nat.add_zero, List.take_of_length_le (by omega)]

theorem xofOut_length (a : Keccak) {rate : Nat} (hr : 0 < rate) (h8 : rate % 8 = 0) (l : Nat) :
    (xofOut a rate l).2.length = l := by
  rw [xofOut_eq a hr h8, List.length_take, squeeze_length _ _ h8]
  exact Nat.min_eq_left (le_ceilDiv_mul l rate hr)

theorem sha3Stage_output_length (a : Keccak) (w : Byte) (message : Bytes) :
    (sha3Stage a w message).2.length = sha3OutputBytes w := by
  have hout : sha3OutputBytes w ≤ 64 := by unfold sha3OutputBytes; split <;> decide
  have hrate : 72 ≤ rateOfWidth w := by unfold rateOfWidth; split <;> decide
  rw [sha3Stage_length, Nat.min_eq_left (by omega)]

section
variable {w : Byte} {whole : Bytes} (hwhole : whole.length % rateOfWidth w = 0)
include hwhole

/-- R193: the stage on a message that begins with whole blocks is the stage on its rest after absorbing them. -/
theorem sha3Stage_append (a : Keccak) (rest : Bytes) :
    sha3Stage a w (whole ++ rest) = sha3Stage (absorbBlocks a whole (rateOfWidth w)) w rest := by
  rw [sha3Stage, absorb_append a (rateOfWidth_pos w) hwhole, sha3Stage]

/-- R207: likewise for KMAC, where the encoded output length comes after the rest. -/
theorem kmacStage_append (a : Keccak) (outLen : Nat) (rest : Bytes) :
    kmacStage a w outLen (whole ++ rest) = kmacStage (absorbBlocks a whole (rateOfWidth w)) w outLen rest := by
  rw [kmacStage, List.append_assoc, absorb_append a (rateOfWidth_pos w) hwhole, kmacStage]
end

/-! ### What a command does when it completes -/

-- What `Completed` says of the fields that a later command depends on, and of the response.
theorem State.Completed.err {s t : State} {out : Bytes} (h : s.Completed t out) : t.err = 0 := h.1
theorem State.Completed.cfg {s t : State} {out : Bytes} (h : s.Completed t out) : t.cfg = s.cfg := h.2.2.1
theorem State.Completed.responses {s t : State} {out : Bytes} (h : s.Completed t out) :
    t.responses = s.responses ++ [⟨0, out⟩] := h.2.2.2.2.2

section
variable {s : State} {w : Byte} (he : s.err = 0)
include he

theorem exec_zero_completes : ∃ t, exec .zero s = .next t ∧ s.Completed t [] ∧ s.KeepsFft t ∧ t.a = Keccak.zero :=
  command_setA_completes (checks := []) _ _ he (by simp)

theorem exec_blockupdate_completes {rate : Byte} {blocks : Bytes}
    (hr : 0 < rate.toNat ∧ rate.toNat % 8 = 0 ∧ rate.toNat ≤ 200) (hwhole : blocks.length % rate.toNat = 0)
    (hfits : blocks.length ≤ s.cfg.ibufBytes) :
    ∃ t, exec (.blockupdate rate blocks) s = .next t ∧ s.Completed t [] ∧ s.KeepsFft t ∧
      t.a = absorbBlocks s.a blocks rate.toNat := by
  obtain ⟨-, completes⟩ := blockupdateAbsorbsWholeBlocks rate blocks
  exact (completes s he).1 hr hwhole hfits

theorem exec_sha3Compute_completes {message : Bytes} (hw : w = 1 ∨ w = 2) (hfits : message.length ≤ s.cfg.ibufBytes) :
    ∃ t, exec (.sha3Compute w message) s = .next t ∧ s.Completed t (sha3Stage Keccak.zero w message).2 ∧
      s.KeepsFft t ∧ t.a = (sha3Stage Keccak.zero w message).1 :=
  command_setA_completes _ _ he (by simp [sha3WidthIllegal_fst hw, hfits])

theorem exec_sha3Final_completes {tail : Bytes} (hw : w = 1 ∨ w = 2) (hfits : tail.length ≤ s.cfg.ibufBytes) :
    ∃ t, exec (.sha3Final w tail) s = .next t ∧ s.Completed t (sha3Stage s.a w tail).2 ∧
      s.KeepsFft t ∧ t.a = (sha3Stage s.a w tail).1 :=
  command_setA_completes _ _ he (by simp [sha3WidthIllegal_fst hw, hfits])

theorem exec_shakeInit_completes {key : Bytes} (hw : w.toNat ≤ 2) (hfits : key.length ≤ s.cfg.ibufBytes) :
    ∃ t, exec (.shakeInit w key) s = .next t ∧ s.Completed t [] ∧ s.KeepsFft t ∧ t.a = shakeState w key :=
  command_setA_completes _ _ he (by simp [hw, hfits])

theorem exec_shakeSqueeze_completes {n : Word32} (hw : w.toNat ≤ 2)
    (hfits : countOperand n * rateOfWidth w ≤ s.cfg.obufBytes) :
    ∃ t, exec (.shakeSqueeze w n) s = .next t ∧
      s.Completed t (squeeze s.a (countOperand n) (rateOfWidth w)).2 ∧ s.KeepsFft t ∧
      t.a = (squeeze s.a (countOperand n) (rateOfWidth w)).1 :=
  command_setA_completes _ _ he (by simp [hw, hfits])

theorem exec_shakeCompute_completes {n : Word32} {key : Bytes} (hw : w.toNat ≤ 2)
    (hfits : key.length ≤ s.cfg.ibufBytes) (hout : countOperand n ≤ s.cfg.obufBytes) :
    ∃ t, exec (.shakeCompute w n key) s = .next t ∧
      s.Completed t (xofOut (shakeState w key) (rateOfWidth w) (countOperand n)).2 ∧ s.KeepsFft t ∧
      t.a = (xofOut (shakeState w key) (rateOfWidth w) (countOperand n)).1 :=
  command_setA_completes _ _ he (by simp [hw, hfits, hout])

theorem exec_cshakeInit_completes {key name custom : Bytes} (hw : w.toNat ≤ 2) (hname : 8 * name.length < 2 ^ 64)
    (hcustom : 8 * custom.length < 2 ^ 64) (hfits : key.length + name.length + custom.length ≤ s.cfg.ibufBytes) :
    ∃ t, exec (.cshakeInit w key name custom) s = .next t ∧ s.Completed t [] ∧ s.KeepsFft t ∧
      t.a = cshakeState w key name custom :=
  command_setA_completes _ _ he
    (by simp [hw, bitLengthOverflow_fst.mpr hname, bitLengthOverflow_fst.mpr hcustom, ← Nat.add_assoc, hfits])

theorem exec_cshakeCompute_completes {n : Word32} {key name custom : Bytes} (hw : w.toNat ≤ 2)
    (hname : 8 * name.length < 2 ^ 64) (hcustom : 8 * custom.length < 2 ^ 64)
    (hfits : key.length + name.length + custom.length ≤ s.cfg.ibufBytes) (hout : countOperand n ≤ s.cfg.obufBytes) :
    ∃ t, exec (.cshakeCompute w n key name custom) s = .next t ∧
      s.Completed t (xofOut (cshakeState w key name custom) (rateOfWidth w) (countOperand n)).2 ∧ s.KeepsFft t ∧
      t.a = (xofOut (cshakeState w key name custom) (rateOfWidth w) (countOperand n)).1 :=
  command_setA_completes _ _ he
    (by simp [hw, bitLengthOverflow_fst.mpr hname, bitLengthOverflow_fst.mpr hcustom, ← Nat.add_assoc, hfits, hout])

theorem exec_kmacInit_completes {key custom : Bytes} (hw : w.toNat ≤ 2) (hkey : 8 * key.length < 2 ^ 64)
    (hcustom : 8 * custom.length < 2 ^ 64) (hfits : key.length + custom.length ≤ s.cfg.ibufBytes) :
    ∃ t, exec (.kmacInit w key custom) s = .next t ∧ s.Completed t [] ∧ s.KeepsFft t ∧
      t.a = kmacState w key custom :=
  command_setA_completes _ _ he
    (by simp [hw, bitLengthOverflow_fst.mpr hkey, bitLengthOverflow_fst.mpr hcustom, hfits])

theorem exec_kmacFinal_completes {n : Word32} {tail : Bytes} (hw : w.toNat ≤ 2)
    (hfits : tail.length ≤ s.cfg.ibufBytes) (hout : countOperand n ≤ s.cfg.obufBytes) :
    ∃ t, exec (.kmacFinal w n tail) s = .next t ∧ s.Completed t (kmacStage s.a w (countOperand n) tail).2 ∧
      s.KeepsFft t ∧ t.a = (kmacStage s.a w (countOperand n) tail).1 :=
  command_setA_completes _ _ he (by simp [hw, bitLengthOverflow_countOperand, hfits, hout])

theorem exec_kmacCompute_completes {n : Word32} {message key custom : Bytes} (hw : w.toNat ≤ 2)
    (hkey : 8 * key.length < 2 ^ 64) (hcustom : 8 * custom.length < 2 ^ 64)
    (hfits : message.length + key.length + custom.length ≤ s.cfg.ibufBytes) (hout : countOperand n ≤ s.cfg.obufBytes) :
    ∃ t, exec (.kmacCompute w n message key custom) s = .next t ∧
      s.Completed t (kmacStage (kmacState w key custom) w (countOperand n) message).2 ∧ s.KeepsFft t ∧
      t.a = (kmacStage (kmacState w key custom) w (countOperand n) message).1 :=
  command_setA_completes _ _ he
    (by simp [hw, bitLengthOverflow_fst.mpr hkey, bitLengthOverflow_fst.mpr hcustom, bitLengthOverflow_countOperand,
      ← Nat.add_assoc, hfits, hout])

end

/-! ### Streamed sessions -/

theorem execAll_cons {i : Instr} {s t : State} (h : exec i s = .next t) (is : List Instr) :
    execAll (i :: is) s = execAll is t := by rw [execAll, h]

/-- Whole-block updates absorb the joined blocks, and what runs after them finds a healthy engine with the same
buffers. -/
theorem execAll_blockupdates {rate : Byte} (hr : 0 < rate.toNat ∧ rate.toNat % 8 = 0 ∧ rate.toNat ≤ 200)
    {chunks : List Bytes} (hwhole : ∀ c ∈ chunks, c.length % rate.toNat = 0) {s : State} (he : s.err = 0)
    (hfits : chunks.flatten.length ≤ s.cfg.ibufBytes) :
    ∃ u, u.err = 0 ∧ u.cfg = s.cfg ∧ u.a = absorbBlocks s.a chunks.flatten rate.toNat ∧
      ∀ is, execAll (chunks.map (.blockupdate rate) ++ is) s = execAll is u := by
  induction chunks generalizing s with
  | nil => exact ⟨s, he, rfl, (absorbBlocks_nil _ _).symm, fun _ => rfl⟩
  | cons c chunks ih =>
    obtain ⟨hc, hchunks⟩ := List.forall_mem_cons.mp hwhole
    rw [List.flatten_cons, List.length_append] at hfits
    obtain ⟨t, hexec, ht, -, hta⟩ := exec_blockupdate_completes he hr hc (by omega)
    obtain ⟨u, huerr, hucfg, hua, hall⟩ := ih hchunks ht.err (by rw [ht.cfg]; omega)
    refine ⟨u, huerr, hucfg.trans ht.cfg, ?_, fun is => ?_⟩
    · rw [hua, hta, List.flatten_cons, absorbBlocks_append _ hr.1 hc]
    · rw [List.map_cons, List.cons_append, execAll_cons hexec, hall]

theorem flatten_length_mod {chunks : List Bytes} {rate : Nat} (h : ∀ c ∈ chunks, c.length % rate = 0) :
    chunks.flatten.length % rate = 0 := by
  rw [List.length_flatten]
  refine Nat.mod_eq_zero_of_dvd (List.dvd_sum fun l hl => ?_)
  obtain ⟨c, hc, rfl⟩ := List.mem_map.mp hl
  exact Nat.dvd_of_mod_eq_zero (h c hc)

/-- A session: a command that begins it, whole-block updates, and a command that ends it. -/
theorem execAll_session {w : Byte} {opening closing : Instr} {chunks : List Bytes} {s t : State} {out : Bytes}
    (hopening : exec opening s = .next t) (ht : s.Completed t out)
    (hwhole : ∀ c ∈ chunks, c.length % rateOfWidth w = 0) (hfits : chunks.flatten.length ≤ s.cfg.ibufBytes) :
    ∃ u, u.err = 0 ∧ u.cfg = s.cfg ∧ u.a = absorbBlocks t.a chunks.flatten (rateOfWidth w) ∧
      ∀ v, exec closing u = .next v →
        execAll (opening :: chunks.map (.blockupdate (BitVec.ofNat 8 (rateOfWidth w))) ++ [closing]) s = some v := by
  rw [← toNat_ofNat_rateOfWidth w] at hwhole
  rw [← ht.cfg] at hfits
  obtain ⟨u, huerr, hucfg, hua, hall⟩ := execAll_blockupdates (rateField_valid w) hwhole ht.err hfits
  rw [toNat_ofNat_rateOfWidth] at hua
  refine ⟨u, huerr, hucfg.trans ht.cfg, hua, fun v hclosing => ?_⟩
  rw [List.cons_append, execAll_cons hopening, hall, execAll_cons hclosing, execAll]

/-! ### Commands that do not read `A` -/

theorem ErrCode.code_ne_zero (c : ErrCode) : c.code ≠ 0 := by cases c <;> decide

/-- A command that completes and whose effect replaces `A` ends in the same state whatever `A` was before. -/
theorem command_setA_overwrites {s t : State} {checks : List Check} {a' : Keccak} {out : Bytes} (a : Keccak)
    (h : command s checks (s.setA a') out = .next t) (ht : t.err = 0) :
    command (s.setA a) checks ((s.setA a).setA a') out = .next t := by
  rcases command_cases s checks (s.setA a') out with ⟨he, e⟩ | ⟨-, fault, -, e⟩ | ⟨he, hf, e⟩
  all_goals obtain rfl := Host.Outcome.next.inj (e.symm.trans h)
  · exact absurd ht he
  · exact absurd ht fault.code_ne_zero
  · exact command_runs (s := s.setA a) (s.setA a') out he (firstFault_eq_none.mp hf)

theorem cshakeState_nil (w : Byte) (key : Bytes) : cshakeState w key [] [] = shakeState w key := if_pos ⟨rfl, rfl⟩

/-- Commands with one effect and output differ by the first fault of their conditions only. -/
theorem command_congr {s : State} {checks checks' : List Check} (h : firstFault checks = firstFault checks')
    (done : State) (out : Bytes) : command s checks done out = command s checks' done out := by
  rw [command, h, command]

/-! ### The obligations -/

/-- Settles O33: width and capacity are the two conditions, and the stage begins at the zero state. -/
theorem sha3ComputeHashesFromTheZeroState : Obligations.Sha3ComputeHashesFromTheZeroState := by
  refine fun w message => ⟨congrArg (· ++ encodePayload message) (encodeWord_fieldA 0x30 w), fun s he =>
    ⟨fun rate h hmem hfits => ?_, command_sha3WidthIllegal he, fun hw hbig => ?_⟩⟩
  · obtain ⟨hw, rfl, rfl⟩ := sha3Width_of_mem hmem
    obtain ⟨t, hexec, hcompleted, hfft, ha⟩ := exec_sha3Compute_completes he hw hfits
    exact ⟨t, _, hexec, hcompleted, hfft, ha, rfl, sha3Stage_output_length _ _ _⟩
  · rw [exec_sha3Compute, command_passes (sha3WidthIllegal_fst hw)]
    exact command_payloadsExceed he (by simpa using hbig)

/-- Settles O34: the state of the updates is that of the joined whole blocks, from which the stage on the tail is the
stage on the joined message. -/
theorem sha3FinalFinishesAStream : Obligations.Sha3FinalFinishesAStream := by
  refine fun w tail => ⟨congrArg (· ++ encodePayload tail) (encodeWord_fieldA 0x31 w), fun s he =>
    ⟨fun rate h hmem hfits => ?_, command_sha3WidthIllegal he, fun hw hbig => ?_⟩⟩
  · obtain ⟨hw, rfl, rfl⟩ := sha3Width_of_mem hmem
    constructor
    · obtain ⟨t, hexec, hcompleted, hfft, ha⟩ := exec_sha3Final_completes he hw hfits
      exact ⟨t, _, hexec, hcompleted, hfft, ha, rfl, sha3Stage_output_length _ _ _⟩
    · intro chunks hwhole hjoined
      obtain ⟨t, hexec, ht, -, hta⟩ := exec_sha3Compute_completes he hw hjoined
      obtain ⟨z, hzero, hz, -, hza⟩ := exec_zero_completes he
      rw [List.length_append] at hjoined
      obtain ⟨u, huerr, hucfg, hua, hall⟩ := execAll_session (closing := .sha3Final w tail) hzero hz hwhole (by omega)
      obtain ⟨v, hfinal, hv, -, hva⟩ :=
        exec_sha3Final_completes (tail := tail) huerr hw (by rw [hucfg]; omega)
      have same : sha3Stage u.a w tail = sha3Stage Keccak.zero w (chunks.flatten ++ tail) := by
        rw [hua, hza, sha3Stage_append (flatten_length_mod hwhole)]
      rw [same] at hv hva
      exact ⟨t, v, _, _, hexec, ht.responses, hall v hfinal, hva.trans hta.symm, hv.responses⟩
  · rw [exec_sha3Final, command_passes (sha3WidthIllegal_fst hw)]
    exact command_payloadsExceed he (by simpa using hbig)

/-- Settles O35: width and capacity are the two conditions. -/
theorem shakeInitAbsorbsTheKey : Obligations.ShakeInitAbsorbsTheKey := by
  refine fun w key => ⟨congrArg (· ++ encodePayload key) (encodeWord_fieldA 0x34 w), fun s he =>
    ⟨fun rate hmem hfits => ?_, command_widthIllegal he, fun hw hbig => ?_⟩⟩
  · obtain ⟨hw, rfl⟩ := rateOfWidth_of_mem hmem
    exact exec_shakeInit_completes he hw hfits
  · rw [exec_shakeInit, command_passes (widthIllegal_fst.mpr hw)]
    exact command_payloadsExceed he (by simpa using hbig)

/-- Settles O36: a table rate is valid, so both commands have the output size as the one condition left. -/
theorem shakeSqueezeIsSqueezeAtTheTableRate : Obligations.ShakeSqueezeIsSqueezeAtTheTableRate := by
  refine fun w n => ⟨congrArg (· ++ store32 n.toNat) (encodeWord_fieldA 0x35 w), fun s he =>
    ⟨fun rate hmem => ?_, command_widthIllegal he⟩⟩
  obtain ⟨hw, rfl⟩ := rateOfWidth_of_mem hmem
  have passed := widthIllegal_fst.mpr hw
  refine ⟨?_, fun hfits => ?_, fun hbig => ?_⟩
  · rw [exec_shakeSqueeze, command_passes passed, exec_squeeze, rateInvalid_of_valid (rateField_valid w), rateOperand,
      toNat_ofNat_rateOfWidth]
    exact (command_passes rfl).symm
  · obtain ⟨t, hexec, hcompleted, hfft, ha⟩ := exec_shakeSqueeze_completes he hw hfits
    exact ⟨t, _, hexec, hcompleted, hfft, Prod.ext ha rfl⟩
  · rw [exec_shakeSqueeze, command_passes passed]
    exact command_outputExceeds he hbig

/-- Settles O37: `xofOut_eq` with `ceil` written out. -/
theorem xofOutIsAPrefixOfTheStream : Obligations.XofOutIsAPrefixOfTheStream := by
  intro a rate l hvalid
  obtain ⟨hr, h8, -⟩ := (rateValid_iff rate).mp hvalid
  have h := xofOut_eq a hr h8 l
  exact ⟨(congrArg Prod.fst h :), (congrArg Prod.snd h :), xofOut_length a hr h8 l, by simp [xofOut]⟩

/-- Settles O38: the width and the two capacities are the conditions. -/
theorem shakeComputeEmitsTheRequestedLength : Obligations.ShakeComputeEmitsTheRequestedLength := by
  refine fun w n key => ⟨congrArg (· ++ (store32 n.toNat ++ encodePayload key)) (encodeWord_fieldA 0x36 w), fun s he =>
    ⟨fun rate hmem hfits hout => ?_, command_widthIllegal he, fun hw hbig => ?_⟩⟩
  · obtain ⟨hw, rfl⟩ := rateOfWidth_of_mem hmem
    obtain ⟨t, hexec, hcompleted, hfft, ha⟩ := exec_shakeCompute_completes he hw hfits hout
    exact ⟨t, _, hexec, hcompleted, hfft, Prod.ext ha rfl, xofOut_length _ (rateOfWidth_pos w) (rateOfWidth_mod w) _⟩
  · rw [exec_shakeCompute, command_passes (widthIllegal_fst.mpr hw)]
    exact command_buffersExceeded he (by simpa [countOperand] using hbig)

/-- Settles O39: the two paths are the branches of `cshakeState`. -/
theorem cshakeInitCustomizesThenAbsorbs : Obligations.CshakeInitCustomizesThenAbsorbs := by
  refine fun w key name custom => ⟨congrArg (· ++ (encodePayload key ++ (encodePayload name ++ encodePayload custom)))
    (encodeWord_fieldA 0x38 w), fun s he => ⟨fun rate hmem hname hcustom hfits => ?_, command_widthIllegal he,
      command_encodingOverflow he, fun hw hname hcustom hbig => ?_⟩⟩
  · obtain ⟨hw, rfl⟩ := rateOfWidth_of_mem hmem
    obtain ⟨t, hexec, hcompleted, hfft, ha⟩ := exec_cshakeInit_completes he hw hname hcustom hfits
    refine ⟨t, hexec, hcompleted, hfft, ?_, ?_⟩
    · rintro ⟨rfl, rfl⟩
      exact ha
    · rintro hne e rfl
      rw [ha, cshakeState, if_neg (by simpa using hne)]
      rfl
  · rw [exec_cshakeInit, command_passes (widthIllegal_fst.mpr hw), command_passes (bitLengthOverflow_fst.mpr hname),
      command_passes (bitLengthOverflow_fst.mpr hcustom)]
    exact command_payloadsExceed he (by simpa [← Nat.add_assoc] using hbig)

/-- Settles O40: the conditions are those of CSHAKE_INIT and the output size, and the stage begins at its state. -/
theorem cshakeComputeIsInitThenOutput : Obligations.CshakeComputeIsInitThenOutput := by
  refine fun w n key name custom => ⟨congrArg
    (· ++ (store32 n.toNat ++ (encodePayload key ++ (encodePayload name ++ encodePayload custom))))
    (encodeWord_fieldA 0x39 w), fun s he => ⟨fun rate hmem hname hcustom hfits hout => ?_, command_widthIllegal he,
      command_encodingOverflow he, fun hw hname hcustom hbig => ?_⟩⟩
  · obtain ⟨hw, rfl⟩ := rateOfWidth_of_mem hmem
    obtain ⟨u, hinit, hu, -, hua⟩ := exec_cshakeInit_completes he hw hname hcustom hfits
    obtain ⟨t, hexec, hcompleted, hfft, ha⟩ := exec_cshakeCompute_completes he hw hname hcustom hfits hout
    rw [← hua] at hcompleted ha
    exact ⟨t, u, _, hexec, hcompleted, hfft, hinit, hu.err, Prod.ext ha rfl,
      xofOut_length _ (rateOfWidth_pos w) (rateOfWidth_mod w) _⟩
  · rw [exec_cshakeCompute, command_passes (widthIllegal_fst.mpr hw), command_passes (bitLengthOverflow_fst.mpr hname),
      command_passes (bitLengthOverflow_fst.mpr hcustom)]
    exact command_buffersExceeded he (by simpa [← Nat.add_assoc, countOperand] using hbig)

/-- Settles O41: an empty string overflows no encoding and adds nothing to the payloads, so the conditions decide as
those of SHAKE do; and the state is SHAKE's. -/
theorem cshakeWithEmptyStringsIsShake : Obligations.CshakeWithEmptyStringsIsShake := by
  intro w n key s
  rw [exec_cshakeInit, exec_shakeInit, exec_cshakeCompute, exec_shakeCompute, cshakeState_nil]
  exact ⟨command_congr rfl _ _, command_congr rfl _ _⟩

/-- Settles O42: the conditions of R205, and the two stages of `kmacState` with the encoded strings written out. -/
theorem kmacInitAbsorbsNameAndKey : Obligations.KmacInitAbsorbsNameAndKey := by
  refine fun w key custom => ⟨congrArg (· ++ (encodePayload key ++ encodePayload custom)) (encodeWord_fieldA 0x3C w),
    fun s he => ⟨fun rate hmem hkey hcustom hfits => ?_, command_widthIllegal he, command_encodingOverflow he,
      fun hw hkey hcustom hbig => ?_⟩⟩
  · obtain ⟨hw, rfl⟩ := rateOfWidth_of_mem hmem
    obtain ⟨t, hexec, hcompleted, hfft, ha⟩ := exec_kmacInit_completes he hw hkey hcustom hfits
    refine ⟨t, hexec, hcompleted, hfft, ?_⟩
    rintro e1 e2 rfl rfl
    exact ha
  · rw [exec_kmacInit, command_passes (widthIllegal_fst.mpr hw), command_passes (bitLengthOverflow_fst.mpr hkey),
      command_passes (bitLengthOverflow_fst.mpr hcustom)]
    exact command_payloadsExceed he (by simpa using hbig)

/-- Settles O43: the width and the two capacities are the conditions that can hold. -/
theorem kmacFinalAppendsTheOutputLength : Obligations.KmacFinalAppendsTheOutputLength := by
  refine fun w n tail => ⟨congrArg (· ++ (store32 n.toNat ++ encodePayload tail)) (encodeWord_fieldA 0x3D w),
    fun s he => ⟨fun rate hmem hfits hout => ?_, command_widthIllegal he, fun hw hbig => ?_⟩⟩
  · obtain ⟨hw, rfl⟩ := rateOfWidth_of_mem hmem
    obtain ⟨t, hexec, hcompleted, hfft, ha⟩ := exec_kmacFinal_completes he hw hfits hout
    exact ⟨t, _, _, hexec, hcompleted, hfft, rfl, ha, rfl, kmacStage_length _ _ _ _⟩
  · rw [exec_kmacFinal, command_passes (widthIllegal_fst.mpr hw), command_passes (bitLengthOverflow_countOperand n)]
    exact command_buffersExceeded he (by simpa [countOperand] using hbig)

/-- Settles O44: the state of the updates is that of the joined whole blocks after KMAC_INIT, from which the stage on
the tail is the stage on the message. -/
theorem kmacComputeEqualsStreamedKmac : Obligations.KmacComputeEqualsStreamedKmac := by
  refine fun w n message key custom => ⟨congrArg
    (· ++ (store32 n.toNat ++ (encodePayload message ++ (encodePayload key ++ encodePayload custom))))
    (encodeWord_fieldA 0x3E w), fun s he => ⟨fun rate hmem hkey hcustom hfits hout => ?_, command_widthIllegal he,
      command_encodingOverflow he, fun hw hkey hcustom hbig => ?_⟩⟩
  · obtain ⟨hw, rfl⟩ := rateOfWidth_of_mem hmem
    obtain ⟨t, hexec, hcompleted, hfft, ha⟩ := exec_kmacCompute_completes he hw hkey hcustom hfits hout
    refine ⟨t, _, hexec, hcompleted, hfft, kmacStage_length _ _ _ _, ?_⟩
    rintro chunks tail hwhole rfl
    rw [List.length_append] at hfits
    obtain ⟨z, hinit, hz, -, hza⟩ := exec_kmacInit_completes he hw hkey hcustom (by omega)
    obtain ⟨u, huerr, hucfg, hua, hall⟩ := execAll_session (closing := .kmacFinal w n tail) hinit hz hwhole (by omega)
    obtain ⟨v, hfinal, hv, -, hva⟩ :=
      exec_kmacFinal_completes (tail := tail) huerr hw (by rw [hucfg]; omega) (by rw [hucfg]; exact hout)
    have same : kmacStage u.a w (countOperand n) tail =
        kmacStage (kmacState w key custom) w (countOperand n) (chunks.flatten ++ tail) := by
      rw [hua, hza, kmacStage_append (flatten_length_mod hwhole)]
    rw [same] at hv hva
    exact ⟨v, _, hall v hfinal, hva.trans ha.symm, hv.responses⟩
  · rw [exec_kmacCompute, command_passes (widthIllegal_fst.mpr hw), command_passes (bitLengthOverflow_fst.mpr hkey),
      command_passes (bitLengthOverflow_fst.mpr hcustom), command_passes (bitLengthOverflow_countOperand n)]
    exact command_buffersExceeded he (by simpa [← Nat.add_assoc, countOperand] using hbig)

/-- Settles O45: each of the seven effects is a new `A` that does not depend on the old one. -/
theorem sessionStartersIgnoreTheOldState : Obligations.SessionStartersIgnoreTheOldState := by
  intro i s a t hi h ht
  cases i
  case sha3Compute | shakeInit | shakeCompute | cshakeInit | cshakeCompute | kmacInit | kmacCompute =>
    exact command_setA_overwrites a h ht
  all_goals simp [Instr.row] at hi

end Machine
end Sys2Proof
end

section
/-! PROOFS. The family of spec/44_encode.md: the byte length as a least number, the bytes of both encodings, their
decoders, and commands that only emit. -/

namespace Sys2Proof
namespace Machine

/-! ### The byte length -/

/-- R240: the search over 1 to 8 succeeds on a 64-bit value, and what it passes over is too short. -/
theorem byteLen_isLeast {v : Nat} (hv : v < 2 ^ 64) : IsLeast {n | 1 ≤ n ∧ v < 2 ^ (8 * n)} (byteLen v) := by
  have found : ((List.range' 1 8).find? fun n => v < 2 ^ (8 * n)).isSome :=
    List.find?_isSome.mpr ⟨8, by decide, decide_eq_true hv⟩
  obtain ⟨n, hn⟩ := Option.isSome_iff_exists.mp found
  have hlen : byteLen v = n := by rw [byteLen, hn, Option.getD_some]
  obtain ⟨fits, hmem, shorter⟩ := List.find?_range'_eq_some.mp hn
  rw [hlen]
  refine ⟨⟨(List.mem_range'_1.mp hmem).1, of_decide_eq_true fits⟩, fun k ⟨hk, hvk⟩ => ?_⟩
  by_contra hlt
  simpa [hvk] using shorter k hk (not_le.mp hlt)

theorem lt_two_pow_byteLen {v : Nat} (hv : v < 2 ^ 64) : v < 2 ^ (8 * byteLen v) := (byteLen_isLeast hv).1.2

theorem byteLen_le_eight {v : Nat} (hv : v < 2 ^ 64) : byteLen v ≤ 8 := (byteLen_isLeast hv).2 ⟨by decide, hv⟩

/-- The byte that carries the length loses nothing. -/
theorem byteLen_as_byte {v : Nat} (hv : v < 2 ^ 64) : (BitVec.ofNat 8 (byteLen v)).toNat = byteLen v :=
  Nat.mod_eq_of_lt ((byteLen_le_eight hv).trans_lt (by decide))

/-! ### The encodings and their decoders -/

/-- R240: the lowest byte comes last, behind the length byte and the higher ones. -/
theorem byteAt_leftEncode (v : Nat) {k : Nat} (hk : k < byteLen v) :
    byteAt (leftEncode v) (byteLen v - k) = byteOf v k := by
  have place : byteLen v - k = byteLen v - 1 - k + 1 := by omega
  have digit : byteLen v - 1 - (byteLen v - 1 - k) = k := by omega
  have inside : byteLen v - 1 - k < byteLen v := by omega
  simp [place, leftEncode, byteAt, bigEndianBytes, inside, digit]

theorem loadBE_bigEndianBytes {v : Nat} (hv : v < 2 ^ 64) : loadBE (bigEndianBytes v) = v := by
  rw [loadBE, bigEndianBytes_reverse, loadLE_storeLE, Nat.mod_eq_of_lt (lt_two_pow_byteLen hv)]

theorem decodeLeft_leftEncode {v : Nat} (hv : v < 2 ^ 64) : decodeLeft (leftEncode v) = v := by
  have body : slice (leftEncode v) 1 (1 + byteLen v) = bigEndianBytes v := by simp [slice, leftEncode]
  rw [decodeLeft, show byteAt (leftEncode v) 0 = BitVec.ofNat 8 (byteLen v) from rfl, byteLen_as_byte hv, body,
    loadBE_bigEndianBytes hv]

theorem decodeRight_rightEncode {v : Nat} (hv : v < 2 ^ 64) : decodeRight (rightEncode v) = v := by
  have last : byteAt (rightEncode v) ((rightEncode v).length - 1) = BitVec.ofNat 8 (byteLen v) := by
    simp [byteAt, rightEncode]
  have body : slice (rightEncode v) 0 (byteLen v) = bigEndianBytes v := by simp [slice, rightEncode]
  rw [decodeRight, last, byteLen_as_byte hv, body, loadBE_bigEndianBytes hv]

/-! ### Commands that only emit -/

/-- A healthy engine whose command meets no fault condition and has no effect but its output completes. -/
theorem command_emits {s : State} {checks : List Check} (out : Bytes) (he : s.err = 0)
    (hf : ∀ check ∈ checks, check.1 = false) :
    ∃ t, command s checks s out = .next t ∧ s.Completed t out ∧ s.KeepsRegisters t :=
  ⟨_, command_runs s out he hf, ⟨he, rfl, rfl, rfl, rfl, by simp [he]⟩, rfl, rfl, rfl⟩

/-! ### The obligations -/

/-- Settles O46: the least fitting length is `byteLen_isLeast`, and the bytes are `byteAt_leftEncode`. -/
theorem leftEncodeIsMinimalBigEndian : Obligations.LeftEncodeIsMinimalBigEndian := by
  intro v hv
  obtain ⟨⟨hpos, hfits⟩, hleast⟩ := byteLen_isLeast hv
  refine ⟨⟨hpos, hfits, fun n hn hvn => hleast ⟨hn, hvn⟩⟩, byteLen_le_eight hv, leftEncode_length v, rfl,
    fun k hk => ?_⟩
  rw [byteAt_leftEncode v hk, byteOf, Nat.shiftRight_eq_div_pow]

/-- Settles O47: both decoders read back the same big-endian bytes, which stand behind or before the length byte. -/
theorem encodersRoundTrip : Obligations.EncodersRoundTrip :=
  fun v hv => ⟨decodeLeft_leftEncode hv, decodeRight_rightEncode hv, leftEncode_length v, rightEncode_length v, rfl⟩

/-- Settles O48: both commands only emit, and no condition can stop them. -/
theorem encoderCommandsEmitTheEncoding : Obligations.EncoderCommandsEmitTheEncoding := by
  refine fun v => ⟨rfl, rfl, fun s he => ⟨?_, ?_⟩⟩
  · rw [exec_lenc]
    exact command_emits _ he (by simp)
  · rw [exec_renc]
    exact command_emits _ he (by simp)

end Machine
end Sys2Proof
end

section
/-! PROOFS. The family of spec/45_fft.md: the loads and stores of the FFT unit's files, `VecMul` as multiplication of
polynomials in every slot, the rules of the two phases, and their linearity over XOR. -/

open Polynomial

namespace Sys2Proof
namespace Machine

/-! ### Commands that write the FFT files -/

/-- A healthy engine whose command meets no fault condition and writes the FFT files only completes. -/
theorem command_setFiles_completes {s : State} {checks : List Check} (fin : FftVector) (fout : List FftVector)
    (he : s.err = 0) (hf : ∀ check ∈ checks, check.1 = false) :
    ∃ t, command s checks ((s.setFin fin).setFout fout) [] = .next t ∧ s.Completed t [] ∧ t.a = s.a ∧ t.fin = fin ∧
      t.fout = fout :=
  ⟨_, command_runs _ [] he hf, ⟨he, rfl, rfl, rfl, rfl, by simp [he]⟩, rfl, rfl, rfl⟩

section
variable {s : State} (he : s.err = 0)
include he

theorem exec_fftLd_completes {p : Bytes} (hp : p.length = 8 * s.cfg.fftM) :
    ∃ t, exec (.fftLd p) s = .next t ∧ s.Completed t [] ∧ t.a = s.a ∧ t.fin = loadVector s.cfg.fftM p ∧
      t.fout = s.fout :=
  command_setFiles_completes (checks := [lengthNot p _]) (loadVector _ p) s.fout he (by simp [lengthNot, hp])

theorem exec_fftRadix_completes :
    ∃ t, exec .fftRadix s = .next t ∧ s.Completed t [] ∧ t.a = s.a ∧ t.fin = radixConv s.cfg s.fin ∧
      t.fout = s.fout :=
  command_setFiles_completes (checks := []) (radixConv _ s.fin) s.fout he (by simp)

theorem exec_fftBfly_completes :
    ∃ t, exec .fftBfly s = .next t ∧ s.Completed t [] ∧ t.a = s.a ∧ t.fin = s.fin ∧
      t.fout = butterflies s.cfg s.fin :=
  command_setFiles_completes (checks := []) s.fin _ he (by simp)

theorem exec_fft_completes :
    ∃ t, exec .fft s = .next t ∧ s.Completed t [] ∧ t.a = s.a ∧ t.fin = radixConv s.cfg s.fin ∧
      t.fout = butterflies s.cfg (radixConv s.cfg s.fin) :=
  command_setFiles_completes (checks := []) _ _ he (by simp)

theorem exec_fftStin_completes :
    ∃ t, exec .fftStin s = .next t ∧ s.Completed t (storeVector s.cfg.fftM s.fin) ∧ s.KeepsRegisters t :=
  command_emits (checks := []) _ he (by simp)

end

theorem storeVector_loadVector {m : Nat} {p : Bytes} (hp : p.length = 8 * m) :
    storeVector m (loadVector m p) = p := by
  have words : ∀ i ∈ List.range m,
      store64 ((loadVector m p).word i) = store64 (load64 (slice p (8 * i) (8 * i + 8))) :=
    fun i hi => by rw [loadVector_word m p i (List.mem_range.mp hi)]
  rw [storeVector, List.flatMap_congr words, flatMap_store64_load64 p m hp]

/-! ### Words of vectors -/

theorem FftVector.word_xor {f g : FftVector} (h : f.length = g.length) (i : Nat) :
    (f.xor g).word i = f.word i ^^^ g.word i := by
  simp only [FftVector.word, FftVector.xor, List.getD_eq_getElem?_getD, List.getElem?_zipWith]
  by_cases hi : i < f.length
  · simp [hi, h ▸ hi]
  · simp [hi, h ▸ hi]

theorem FftVector.word_take (f : FftVector) (n i : Nat) :
    FftVector.word (f.take n) i = if i < n then f.word i else 0 := by
  simp only [FftVector.word, List.getD_eq_getElem?_getD, List.getElem?_take]
  split <;> rfl

theorem FftVector.zero_word (n i : Nat) : (FftVector.zero n).word i = 0 := by
  simp only [FftVector.word, FftVector.zero, List.getD_eq_getElem?_getD, List.getElem?_replicate]
  split <;> rfl

/-! ### `VecMul` in one slot -/

/-- Bit `e` of a word, as a coefficient in GF(2). -/
def slotBit (e : Nat) (v : Lane) : ZMod 2 := if v.getLsbD e then 1 else 0

@[simp] theorem slotBit_zero (e : Nat) : slotBit e 0#64 = 0 := by simp [slotBit]

theorem slotBit_xor (e : Nat) (v w : Lane) : slotBit e (v ^^^ w) = slotBit e v + slotBit e w := by
  simp only [slotBit, BitVec.getLsbD_xor]
  cases v.getLsbD e <;> cases w.getLsbD e <;> decide

theorem slotBit_and (e : Nat) (v w : Lane) : slotBit e (v &&& w) = slotBit e v * slotBit e w := by
  simp only [slotBit, BitVec.getLsbD_and]
  cases v.getLsbD e <;> cases w.getLsbD e <;> decide

theorem elementOf_eq_sum (f : FftVector) (e : Nat) :
    elementOf f e = ((List.range f.length).map fun i => C (slotBit e (f.word i)) * X ^ i).sum := by
  rw [elementOf]
  congr 2
  funext i
  rw [slotBit]
  split <;> simp

theorem coeff_elementOf (f : FftVector) (e i : Nat) : (elementOf f e).coeff i = slotBit e (f.word i) := by
  rw [elementOf_eq_sum]
  -- A sum over `Finset.range` is by definition one over the list.
  change (∑ k ∈ Finset.range f.length, C (slotBit e (f.word k)) * X ^ k).coeff i = _
  simp only [finsetSum_coeff, coeff_C_mul_X_pow, Finset.sum_ite_eq, Finset.mem_range]
  by_cases hi : i < f.length
  · rw [if_pos hi]
  · rw [if_neg hi, FftVector.word, List.getD_eq_default _ _ (Nat.le_of_not_lt hi)]
    exact (slotBit_zero e).symm

theorem elementOf_xorAt {buf : FftVector} {k : Nat} (hk : k < buf.length) (v : Lane) (e : Nat) :
    elementOf (xorAt buf k v) e = elementOf buf e + C (slotBit e v) * X ^ k := by
  ext i
  rw [coeff_add, coeff_C_mul_X_pow, coeff_elementOf, coeff_elementOf, FftVector.word, xorAt_word _ _ _ _ hk]
  split
  · rw [slotBit_xor]; rfl
  · rw [add_zero]; rfl

theorem elementOf_take_succ (buf : FftVector) (n e : Nat) :
    elementOf (buf.take (n + 1)) e = elementOf (buf.take n) e + C (slotBit e (buf.word n)) * X ^ n := by
  ext i
  rw [coeff_add, coeff_C_mul_X_pow, coeff_elementOf, coeff_elementOf, FftVector.word_take, FftVector.word_take]
  rcases lt_trichotomy i n with h | rfl | h
  · simp [h, h.ne, h.trans (Nat.lt_succ_self n)]
  · simp
  · simp [h.ne', Nat.not_lt.mpr h, Nat.not_lt.mpr h.le]

/-- Folding steps that each add to `μ` what `d` says adds the sum of it; `P` is what the steps keep and rely on. -/
theorem foldl_adds {α β M : Type} [AddMonoid M] (P : β → Prop) (μ : β → M) (d : α → M) {step : β → α → β} {l : List α}
    (adds : ∀ b, P b → ∀ a ∈ l, P (step b a) ∧ μ (step b a) = μ b + d a) {b : β} (start : P b) :
    P (l.foldl step b) ∧ μ (l.foldl step b) = μ b + (l.map d).sum := by
  induction l generalizing b with
  | nil => exact ⟨start, by simp⟩
  | cons a l ih =>
    obtain ⟨kept, added⟩ := adds b start a (by simp)
    obtain ⟨keptAll, addedAll⟩ := ih (fun b hb a ha => adds b hb a (by simp [ha])) kept
    refine ⟨keptAll, ?_⟩
    rw [List.foldl_cons, addedAll, added, List.map_cons, List.sum_cons, add_assoc]

/-- One row of the product loop of R254: the word `v` of the one factor times every word of the other. -/
def productRow (m : Nat) (g : FftVector) (v : Lane) (i : Nat) (buf : FftVector) : FftVector :=
  (List.range m).foldl (fun buf j => xorAt buf (i + j) (v &&& g.word j)) buf

theorem vecMulProduct_eq (m : Nat) (f g : FftVector) :
    vecMulProduct m f g =
      (List.range m).foldl (fun buf i => productRow m g (f.word i) i buf) (FftVector.zero (2 * m - 1)) := rfl

/-- One step of the reduction loop of R254: word `i` is added at the exponents of the polynomial, `i - m` higher. -/
def reduceStep (m : Nat) (poly : List Nat) (buf : FftVector) (i : Nat) : FftVector :=
  poly.foldl (fun buf x => xorAt buf (i - m + x) (buf.word i)) buf

theorem vecMulReduce_eq (m : Nat) (poly : List Nat) (buf : FftVector) :
    vecMulReduce m poly buf = (List.range (m - 1)).foldl (fun b t => reduceStep m poly b (2 * m - 2 - t)) buf := rfl

theorem productRow_adds {m i : Nat} (hi : i < m) {g : FftVector} (hg : g.length = m) (v : Lane) (e : Nat)
    {buf : FftVector} (hbuf : buf.length = 2 * m - 1) :
    (productRow m g v i buf).length = 2 * m - 1 ∧
    elementOf (productRow m g v i buf) e = elementOf buf e + C (slotBit e v) * X ^ i * elementOf g e := by
  rw [elementOf_eq_sum g, hg, ← List.sum_map_mul_left]
  refine foldl_adds (fun b : FftVector => b.length = 2 * m - 1) (elementOf · e) _ (fun b hb j hj => ?_) hbuf
  have inside : i + j < b.length := by have := List.mem_range.mp hj; omega
  refine ⟨(xorAt_length _ _ _).trans hb, ?_⟩
  rw [elementOf_xorAt inside, slotBit_and, C_mul, pow_add, mul_mul_mul_comm]

theorem elementOf_zero (n e : Nat) : elementOf (FftVector.zero n) e = 0 := by
  ext i
  rw [coeff_elementOf, FftVector.zero_word]
  exact slotBit_zero e

/-- The product loop of R254 multiplies the polynomials of every slot. -/
theorem elementOf_vecMulProduct {m : Nat} {f g : FftVector} (hf : f.length = m) (hg : g.length = m) (e : Nat) :
    elementOf (vecMulProduct m f g) e = elementOf f e * elementOf g e := by
  have rows := foldl_adds (fun b : FftVector => b.length = 2 * m - 1) (elementOf · e)
    (fun i => C (slotBit e (f.word i)) * X ^ i * elementOf g e) (l := List.range m)
    (fun b hb i hi => productRow_adds (List.mem_range.mp hi) hg (f.word i) e hb)
    (b := FftVector.zero (2 * m - 1)) List.length_replicate
  rw [vecMulProduct_eq, rows.2, elementOf_zero, zero_add, List.sum_map_mul_right, elementOf_eq_sum f, hf]

/-- The defining polynomial of R252: `x^m` and the exponents of the list. -/
noncomputable def definingPolynomial (m : Nat) (poly : List Nat) : (ZMod 2)[X] :=
  X ^ m + (poly.map fun x => X ^ x).sum

/-- A step of the reduction reads a word above those it writes, so it adds multiples of one power of `x`. -/
theorem reduceStep_adds {m i : Nat} {poly : List Nat} (hpoly : ∀ x ∈ poly, x < m) (hm : m ≤ i) {buf : FftVector}
    (hi : i < buf.length) (e : Nat) :
    (reduceStep m poly buf i).length = buf.length ∧
    elementOf ((reduceStep m poly buf i).take i) e =
      elementOf (buf.take i) e + C (slotBit e (buf.word i)) * X ^ (i - m) * (poly.map fun x => X ^ x).sum := by
  rw [← List.sum_map_mul_left]
  have adds := foldl_adds (fun b : FftVector => b.length = buf.length ∧ b.word i = buf.word i)
    (fun b => elementOf (b.take i) e) (fun x => C (slotBit e (buf.word i)) * X ^ (i - m) * X ^ x) (l := poly)
    (step := fun buf x => xorAt buf (i - m + x) (buf.word i))
    (fun b ⟨hlength, hword⟩ x hx => by
      have below : i - m + x < i := by have := hpoly x hx; omega
      have inside : i - m + x < (b.take i).length := by rw [List.length_take]; omega
      refine ⟨⟨(xorAt_length _ _ _).trans hlength, ?_⟩, ?_⟩
      · rw [FftVector.word, xorAt_word _ _ _ _ (by omega), if_neg below.ne']
        exact hword
      · rw [hword, show (xorAt b (i - m + x) (buf.word i)).take i = xorAt (b.take i) (i - m + x) (buf.word i) from
          List.take_modify _ _ _ _, elementOf_xorAt inside, pow_add, mul_assoc])
    (b := buf) ⟨rfl, rfl⟩
  exact ⟨adds.1.1, adds.2⟩

/-- A step of the reduction drops the word `i`, whose power of `x` it has replaced modulo the defining polynomial. -/
theorem reduceStep_congruent {m i : Nat} {poly : List Nat} (hpoly : ∀ x ∈ poly, x < m) (hm : m ≤ i) {buf : FftVector}
    (hi : i < buf.length) (e : Nat) :
    definingPolynomial m poly ∣
      elementOf (buf.take (i + 1)) e - elementOf ((reduceStep m poly buf i).take i) e := by
  refine ⟨C (slotBit e (buf.word i)) * X ^ (i - m), ?_⟩
  have power : (X : (ZMod 2)[X]) ^ i = X ^ (i - m) * X ^ m := by rw [← pow_add, Nat.sub_add_cancel hm]
  rw [(reduceStep_adds hpoly hm hi e).2, elementOf_take_succ, definingPolynomial, power, add_sub_add_left_eq_sub,
    CharTwo.sub_eq_add]
  ring

/-- After `k` steps of the reduction the words below `2m - 1 - k` hold the element modulo the defining polynomial. -/
theorem foldl_reduceStep_congruent {m : Nat} {poly : List Nat} (hpoly : ∀ x ∈ poly, x < m) {buf : FftVector}
    (hbuf : buf.length = 2 * m - 1) (e : Nat) {k : Nat} (hk : k ≤ m - 1) :
    let reduced := (List.range k).foldl (fun b t => reduceStep m poly b (2 * m - 2 - t)) buf
    reduced.length = 2 * m - 1 ∧
    definingPolynomial m poly ∣ elementOf buf e - elementOf (reduced.take (2 * m - 1 - k)) e := by
  induction k with
  | zero => exact ⟨hbuf, by simp [← hbuf]⟩
  | succ k ih =>
    obtain ⟨hlength, hcongruent⟩ := ih (by omega)
    have inside : 2 * m - 2 - k < 2 * m - 1 := by omega
    rw [← hlength] at inside
    have step := reduceStep_congruent hpoly (show m ≤ 2 * m - 2 - k by omega) inside e
    rw [show 2 * m - 2 - k + 1 = 2 * m - 1 - k by omega] at step
    simp only [List.range_succ, List.foldl_append, List.foldl_cons, List.foldl_nil]
    refine ⟨(reduceStep_adds hpoly (by omega) inside e).1.trans hlength, ?_⟩
    rw [show 2 * m - 1 - (k + 1) = 2 * m - 2 - k by omega]
    simpa using dvd_add hcongruent step

/-- R254: in every slot `VecMul` multiplies modulo the defining polynomial. -/
theorem vecMul_congruent {c : Config} {f g : FftVector} (hm : 1 ≤ c.fftM) (hpoly : ∀ x ∈ c.fftPoly, x < c.fftM)
    (hf : f.length = c.fftM) (hg : g.length = c.fftM) (e : Nat) :
    definingPolynomial c.fftM c.fftPoly ∣ elementOf f e * elementOf g e - elementOf (vecMul c f g) e := by
  have reduced := (foldl_reduceStep_congruent hpoly (vecMulProduct_length c.fftM f g) e le_rfl).2
  rwa [elementOf_vecMulProduct hf hg, ← vecMulReduce_eq,
    show 2 * c.fftM - 1 - (c.fftM - 1) = c.fftM by omega] at reduced

/-! ### Radix conversion (R256) -/

/-- What pair `k` of masks does and that the reductions go from pair 4 down determine the reductions. -/
theorem eq_radixWord {c : Config} {pair red : Nat → Lane → Lane}
    (hpair : ∀ k v u, u = v ^^^ ((v &&& (c.fftMask.getD k (0, 0)).1) >>> (2 ^ k)) →
      pair k v = u ^^^ ((u &&& (c.fftMask.getD k (0, 0)).2) >>> (2 ^ k)))
    (hlast : ∀ v, red 5 v = v) (hred : ∀ k v, k < 5 → red k v = pair k (red (k + 1) v)) {k : Nat} (hk : k ≤ 5) :
    red k = radixWord c k := by
  induction hk using Nat.decreasingInduction with
  | self => exact funext hlast
  | of_succ k hk ih =>
    funext v
    rw [hred k v hk, hpair k _ _ rfl, ih, radixWord_succ c k v hk]
    rfl

theorem lane_xor_and (v w mask : Lane) : (v ^^^ w) &&& mask = (v &&& mask) ^^^ (w &&& mask) := by
  ext i
  simp [Bool.and_xor_distrib_right]

theorem xorShift_xor (v w mask : Lane) (n : Nat) :
    xorShift (v ^^^ w) mask n = xorShift v mask n ^^^ xorShift w mask n := by
  simp only [xorShift, lane_xor_and, BitVec.ushiftRight_xor_distrib]
  ac_rfl

theorem radixWord_xor (c : Config) {k : Nat} (hk : k ≤ 5) (v w : Lane) :
    radixWord c k (v ^^^ w) = radixWord c k v ^^^ radixWord c k w := by
  induction hk using Nat.decreasingInduction with
  | self => rfl
  | of_succ k hk ih => simp only [radixWord_succ c k _ hk, ih, xorShift_xor]

/-- R256: the two words worked out with the default masks. -/
theorem radixWord_defaultMask {c : Config} (hmask : c.fftMask = Config.defaultMask) :
    radixWord c 4 (radixWord c 3 (radixWord c 2 (radixWord c 1 (radixWord c 0 0x0000000000000010)))) =
      0x0000000000000012 ∧
    radixWord c 4 (radixWord c 3 (radixWord c 2 (radixWord c 1 (radixWord c 0 0x8000000000000000)))) =
      0xFFFFFFFFFFFF000E := by
  simp only [radixWord, hmask]
  decide

/-- Vectors that follow one another by the rounds of R256 are those of the fold. -/
theorem eq_foldl_radixRound {c : Config} {f : FftVector} {round : Nat → FftVector} (h0 : round 0 = f)
    (hround : ∀ j, j < 5 → round (j + 1) = radixRound c (round j) j) {n : Nat} (hn : n ≤ 5) :
    round n = (List.range n).foldl (radixRound c) f := by
  induction n with
  | zero => exact h0
  | succ n ih => rw [hround n hn, ih (by omega), List.range_succ, List.foldl_append, List.foldl_cons, List.foldl_nil]

/-! ### Butterflies (R257) -/

/-- R258: the shifts of `bitReverse6` are divisions. -/
theorem bitReversal_getD {j : Nat} (hj : j < 64) :
    Config.bitReversal.getD j 64 = ((List.range 6).map fun b => ((j / 2 ^ b) % 2) * 2 ^ (5 - b)).sum := by
  simp [Config.bitReversal, Config.bitReverse6, hj, Nat.shiftRight_eq_div_pow]

/-- The output file after the broadcast and `n` stages. -/
def afterStages (c : Config) (f : FftVector) : Nat → List FftVector
  | 0 => broadcast c f
  | n + 1 => butterflyStage c (2 ^ n) (2 ^ n - 1) (afterStages c f n)

theorem butterflies_eq_afterStages (c : Config) (f : FftVector) : butterflies c f = afterStages c f 6 :=
  butterflies_eq c f

theorem afterStages_length (c : Config) (f : FftVector) {n : Nat} (hn : n ≤ 6) : (afterStages c f n).length = 64 := by
  induction n with
  | zero => exact (broadcast_shaped c f).1
  | succ n ih => exact (butterflyStage_at c n _ hn _ (ih (by omega))).1

/-- Every index of the file is the lower or the upper one of a pair of stage `n`. -/
theorem lower_or_upper {n j : Nat} (hn : n < 6) (hj : j < 64) :
    j % 2 ^ (n + 1) < 2 ^ n ∨ ∃ k < 64, k % 2 ^ (n + 1) < 2 ^ n ∧ j = k + 2 ^ n := by
  by_cases lower : j % 2 ^ (n + 1) < 2 ^ n
  · exact .inl lower
  · refine .inr ⟨j - 2 ^ n, by omega, ?_, ?_⟩ <;> interval_cases n <;> simp at * <;> omega

section
variable {n k : Nat} (hn : n < 6) (hk : k < 64) (lower : k % 2 ^ (n + 1) < 2 ^ n)
include hn hk lower

theorem upper_lt : k + 2 ^ n < 64 := stagePairs_lt n hn _ (mem_stagePairs n k hn hk lower)

theorem afterStages_succ_lower (c : Config) (f : FftVector) :
    vectorAt (afterStages c f (n + 1)) k =
      (vectorAt (afterStages c f n) k).xor
        (vecMul c (vectorAt (afterStages c f n) (k + 2 ^ n)) (c.fftConsts.getD (2 ^ n - 1 + k % 2 ^ n) [])) :=
  ((butterflyStage_at c n _ hn _ (afterStages_length c f hn.le)).2 k hk lower).1

theorem afterStages_succ_upper (c : Config) (f : FftVector) :
    vectorAt (afterStages c f (n + 1)) (k + 2 ^ n) =
      (vectorAt (afterStages c f n) (k + 2 ^ n)).xor (vectorAt (afterStages c f (n + 1)) k) :=
  ((butterflyStage_at c n _ hn _ (afterStages_length c f hn.le)).2 k hk lower).2

end

theorem vectorAt_broadcast (c : Config) (f : FftVector) {j : Nat} (hj : j < 64) :
    vectorAt (broadcast c f) j =
      (List.range c.fftM).map fun i => maskOfBit ((f.word i).getLsbD (c.fftRev.getD j 0)) := by
  simp [vectorAt, broadcast, hj]

/-- Files that follow one another by the pairs of R257 are the output file after each stage. -/
theorem vectorAt_afterStages {c : Config} {f : FftVector} {out : Nat → Nat → FftVector}
    (h0 : ∀ j, j < 64 → out 0 j = (List.range c.fftM).map fun i =>
      if (f.word i).getLsbD (c.fftRev.getD j 0) then 0xFFFFFFFFFFFFFFFF else 0)
    (hstage : ∀ i k, i < 6 → k < 64 → k % 2 ^ (i + 1) < 2 ^ i →
      out (i + 1) k = (out i k).xor (vecMul c (out i (k + 2 ^ i)) (c.fftConsts.getD (2 ^ i - 1 + k % 2 ^ i) [])) ∧
      out (i + 1) (k + 2 ^ i) = (out i (k + 2 ^ i)).xor (out (i + 1) k)) {n : Nat} (hn : n ≤ 6) {j : Nat} (hj : j < 64) :
    vectorAt (afterStages c f n) j = out n j := by
  induction n generalizing j with
  | zero => exact (vectorAt_broadcast c f hj).trans (h0 j hj).symm
  | succ n ih =>
    have before {k : Nat} (hk : k < 64) := ih (Nat.le_of_succ_le hn) hk
    rcases lower_or_upper hn hj with lower | ⟨k, hk, lower, rfl⟩
    · rw [afterStages_succ_lower hn hj lower, before hj, before (upper_lt hn hj lower), (hstage n j hn hj lower).1]
    · rw [afterStages_succ_upper hn hk lower, afterStages_succ_lower hn hk lower, before hk, before hj,
        (hstage n k hn hk lower).2, (hstage n k hn hk lower).1]

/-! ### Linearity over XOR (R270) -/

/-- A relation of three starts that every step keeps holds of the three ends of a fold. -/
theorem foldl_keeps_three {α β : Type} (R : β → β → β → Prop) {f₁ f₂ f₃ : β → α → β} {l : List α}
    (keeps : ∀ a ∈ l, ∀ x y z, R x y z → R (f₁ x a) (f₂ y a) (f₃ z a)) {x y z : β} (start : R x y z) :
    R (l.foldl f₁ x) (l.foldl f₂ y) (l.foldl f₃ z) := by
  induction l generalizing x y z with
  | nil => exact start
  | cons a l ih => exact ih (fun a ha => keeps a (by simp [ha])) (keeps a (by simp) _ _ _ start)

/-- R255: `mask` carries the XOR of two bits to the XOR of two words. -/
theorem maskOfBit_xor (b b' : Bool) : maskOfBit (b ^^ b') = maskOfBit b ^^^ maskOfBit b' := by
  cases b <;> cases b' <;> rfl

/-- `h` is the sum of two vectors of one length (R250). -/
def IsXor (h f g : FftVector) : Prop := f.length = g.length ∧ h = f.xor g

namespace IsXor

variable {h f g h' f' g' : FftVector}

theorem word (hx : IsXor h f g) (i : Nat) : h.word i = f.word i ^^^ g.word i := by
  obtain ⟨hlength, rfl⟩ := hx
  exact FftVector.word_xor hlength i

theorem zero (n : Nat) : IsXor (FftVector.zero n) (FftVector.zero n) (FftVector.zero n) :=
  ⟨rfl, by simp [FftVector.xor, FftVector.zero]⟩

theorem map {r : Lane → Lane} (hr : ∀ v w, r (v ^^^ w) = r v ^^^ r w) (hx : IsXor h f g) :
    IsXor (h.map r) (f.map r) (g.map r) := by
  obtain ⟨hlength, rfl⟩ := hx
  refine ⟨by simpa using hlength, ?_⟩
  simp only [FftVector.xor, List.map_zipWith, List.zipWith_map, hr]

theorem take (n : Nat) (hx : IsXor h f g) : IsXor (h.take n) (f.take n) (g.take n) := by
  obtain ⟨hlength, rfl⟩ := hx
  exact ⟨by simp [hlength], List.take_zipWith⟩

theorem xorAt {u v w : Lane} (hw : u = v ^^^ w) (k : Nat) (hx : IsXor h f g) :
    IsXor (xorAt h k u) (xorAt f k v) (xorAt g k w) := by
  obtain ⟨hlength, rfl⟩ := hx
  refine ⟨by simpa using hlength, List.ext_getElem (by simp [FftVector.xor]) fun i _ _ => ?_⟩
  simp only [hw, Machine.xorAt, FftVector.xor, List.getElem_modify, List.getElem_zipWith]
  split
  · ac_rfl
  · rfl

theorem xor (hx : IsXor h f g) (hx' : IsXor h' f' g') : IsXor (h.xor h') (f.xor f') (g.xor g') := by
  obtain ⟨hlength, rfl⟩ := hx
  obtain ⟨hlength', rfl⟩ := hx'
  refine ⟨by simp [FftVector.xor, hlength, hlength'],
    List.ext_getElem (by simp [FftVector.xor, hlength, hlength']) fun i _ _ => ?_⟩
  simp only [FftVector.xor, List.getElem_zipWith]
  ac_rfl

theorem productRow (m : Nat) (k : FftVector) {u v w : Lane} (hw : u = v ^^^ w) (i : Nat) (hx : IsXor h f g) :
    IsXor (productRow m k u i h) (productRow m k v i f) (productRow m k w i g) :=
  foldl_keeps_three IsXor (fun j _ _ _ _ hbuf => hbuf.xorAt (hw ▸ lane_xor_and v w _) (i + j)) hx

theorem vecMulProduct (m : Nat) (k : FftVector) (hx : IsXor h f g) :
    IsXor (vecMulProduct m h k) (vecMulProduct m f k) (vecMulProduct m g k) := by
  simp only [vecMulProduct_eq]
  exact foldl_keeps_three IsXor (fun i _ _ _ _ hbuf => hbuf.productRow m k (hx.word i) i) (zero _)

theorem reduceStep (m : Nat) (poly : List Nat) (i : Nat) (hx : IsXor h f g) :
    IsXor (reduceStep m poly h i) (reduceStep m poly f i) (reduceStep m poly g i) :=
  foldl_keeps_three IsXor (fun x _ _ _ _ hbuf => hbuf.xorAt (hbuf.word i) (i - m + x)) hx

theorem vecMulReduce (m : Nat) (poly : List Nat) (hx : IsXor h f g) :
    IsXor (vecMulReduce m poly h) (vecMulReduce m poly f) (vecMulReduce m poly g) := by
  simp only [vecMulReduce_eq]
  exact foldl_keeps_three IsXor (fun t _ _ _ _ hbuf => hbuf.reduceStep m poly (2 * m - 2 - t)) hx

theorem vecMul (c : Config) (k : FftVector) (hx : IsXor h f g) : IsXor (vecMul c h k) (vecMul c f k) (vecMul c g k) :=
  ((hx.vecMulProduct c.fftM k).vecMulReduce c.fftM c.fftPoly).take c.fftM

theorem radixConv (c : Config) (hx : IsXor h f g) : IsXor (radixConv c h) (radixConv c f) (radixConv c g) :=
  foldl_keeps_three IsXor (fun j hj _ _ _ hbuf =>
    (hbuf.map (radixWord_xor c (List.mem_range.mp hj).le)).vecMul c (c.fftScal.getD j [])) hx

theorem broadcast (c : Config) (hx : IsXor h f g) {j : Nat} (hj : j < 64) :
    IsXor (vectorAt (broadcast c h) j) (vectorAt (broadcast c f) j) (vectorAt (broadcast c g) j) := by
  simp only [vectorAt_broadcast c _ hj]
  refine ⟨by simp, ?_⟩
  simp only [FftVector.xor, List.zipWith_map, List.zipWith_self, hx.word, BitVec.getLsbD_xor, maskOfBit_xor]

theorem afterStages (c : Config) (hx : IsXor h f g) {n : Nat} (hn : n ≤ 6) {j : Nat} (hj : j < 64) :
    IsXor (vectorAt (afterStages c h n) j) (vectorAt (afterStages c f n) j) (vectorAt (afterStages c g n) j) := by
  induction n generalizing j with
  | zero => exact hx.broadcast c hj
  | succ n ih =>
    have before {k : Nat} (hk : k < 64) := ih (Nat.le_of_succ_le hn) hk
    have lowerSum {k : Nat} (hk : k < 64) (lower : k % 2 ^ (n + 1) < 2 ^ n) :
        IsXor (vectorAt (Machine.afterStages c h (n + 1)) k) (vectorAt (Machine.afterStages c f (n + 1)) k)
          (vectorAt (Machine.afterStages c g (n + 1)) k) := by
      simp only [afterStages_succ_lower hn hk lower]
      exact (before hk).xor ((before (upper_lt hn hk lower)).vecMul c _)
    rcases lower_or_upper hn hj with lower | ⟨k, hk, lower, rfl⟩
    · exact lowerSum hj lower
    · simp only [afterStages_succ_upper hn hk lower]
      exact (before hj).xor (lowerSum hk lower)

theorem butterflies_word (c : Config) (hx : IsXor h f g) (j i : Nat) :
    (vectorAt (butterflies c h) j).word i =
      (vectorAt (butterflies c f) j).word i ^^^ (vectorAt (butterflies c g) j).word i := by
  simp only [butterflies_eq_afterStages]
  by_cases hj : j < 64
  · exact (hx.afterStages c le_rfl hj).word i
  · have outside (v : FftVector) : vectorAt (Machine.afterStages c v 6) j = [] := by
      rw [vectorAt, List.getD_eq_default _ _ (by rw [afterStages_length c v le_rfl]; omega)]
    simp only [outside]
    exact BitVec.xor_self.symm

end IsXor

/-! ### The obligations -/

/-- Settles O49: `VecMul` gives `m` words, and every step of its loops is a step of the division with remainder. -/
theorem vecMulIsFieldMultiplication : Obligations.VecMulIsFieldMultiplication :=
  fun c f g hm hpoly hf hg => ⟨vecMul_length c f g, fun slot _ => vecMul_congruent hm hpoly hf hg slot⟩

/-- Settles O50: both commands move whole words, and eight bytes loaded and stored are the same bytes. -/
theorem fftLdAndStinMoveTheInputFile : Obligations.FftLdAndStinMoveTheInputFile := by
  refine fun p => ⟨rfl, rfl, fun s he => ⟨fun hp => ?_, fun hp => ?_, exec_fftStin_completes he, fun hp => ?_⟩⟩
  · obtain ⟨t, hexec, hcompleted, ha, hfin, hfout⟩ := exec_fftLd_completes he hp
    refine ⟨t, hexec, hcompleted, ha, hfout, ?_, fun i hi => ?_⟩
    · rw [hfin, loadVector_length]
    · rw [hfin, loadVector_word _ _ _ hi]
  · exact command_raises _ _ he (by simp [firstFault, lengthNot, hp])
  · obtain ⟨t, hload, ⟨hterr, -, hcfg, -, -, hresponses⟩, -, hfin, -⟩ := exec_fftLd_completes he hp
    obtain ⟨u, hstore, ⟨-, -, -, -, -, houtput⟩, -⟩ := exec_fftStin_completes hterr
    refine ⟨u, by rw [execAll_cons hload, execAll_cons hstore, execAll], ?_⟩
    rw [houtput, hresponses, hfin, hcfg, storeVector_loadVector hp, List.append_assoc, List.singleton_append]

/-- Settles O51: the index is the one condition, and the command only emits. -/
theorem fftStReadsOneOutputVector : Obligations.FftStReadsOneOutputVector := by
  refine fun j => ⟨encodeWord_fieldA 0x54 j, fun s he => ⟨fun hj => ?_, fun hj => ?_⟩⟩
  · obtain ⟨t, hexec, hcompleted, hkeeps⟩ := command_emits (checks := [vectorIllegal j])
      (storeVector s.cfg.fftM (vectorAt s.fout (indexOperand j))) he (by simp [vectorIllegal, hj])
    exact ⟨t, _, hexec, hcompleted, hkeeps, rfl, storeVector_length _ _⟩
  · exact command_raises _ _ he (by simp [firstFault, vectorIllegal, hj])

/-- Settles O52: FFT_BFLY after FFT_RADIX reads the converted vector, which FFT passes on itself. -/
theorem fftIsRadixThenButterflies : Obligations.FftIsRadixThenButterflies := by
  refine ⟨rfl, rfl, rfl, fun s he => ⟨?_, exec_fftBfly_completes he, ?_⟩⟩
  · obtain ⟨t, hexec, hcompleted, ha, hfin, hfout⟩ := exec_fftRadix_completes he
    exact ⟨t, hexec, hcompleted, ha, hfout, hfin⟩
  · obtain ⟨t, hexec, hcompleted, ha, hfin, hfout⟩ := exec_fft_completes he
    obtain ⟨r, hradix, ⟨hrerr, -, hcfg, -⟩, -, hrfin, -⟩ := exec_fftRadix_completes he
    obtain ⟨u, hbfly, -, -, hufin, hufout⟩ := exec_fftBfly_completes hrerr
    refine ⟨t, u, hexec, hcompleted, ha, by rw [execAll_cons hradix, execAll_cons hbfly, execAll], ?_, ?_⟩
    · rw [hfin, hufin, hrfin]
    · rw [hfout, hufout, hrfin, hcfg]

/-- Settles O53: the rules' functions are the model's own rounds and stages. -/
theorem radixConvAndButterfliesFollowTheirRules : Obligations.RadixConvAndButterfliesFollowTheirRules := by
  refine ⟨fun c pair red hpair hlast hred => ?_, fun c f out h0 hstage => ?_,
    ⟨by decide, fun j hj => bitReversal_getD hj⟩, rfl⟩
  · have hword {k : Nat} (hk : k ≤ 5) : red k = radixWord c k := eq_radixWord hpair hlast hred hk
    refine ⟨fun f round hstart hround => ?_, fun k v w hk => ?_, fun hmask => ?_⟩
    · exact (eq_foldl_radixRound hstart (fun j hj => by rw [hround j hj, hword hj.le, radixRound]) le_rfl).symm
    · rw [hword hk.le, radixWord_xor c hk.le]
    · simpa only [hword, Nat.zero_le, Nat.reduceLeDiff] using radixWord_defaultMask hmask
  · rw [butterflies_eq_afterStages]
    exact ⟨afterStages_length c f le_rfl, fun j hj => vectorAt_afterStages h0 hstage le_rfl hj⟩

/-- Settles O54: both phases keep `IsXor`, and the zero vector is the sum of itself with itself. -/
theorem transformIsLinear : Obligations.TransformIsLinear := by
  intro c a b ha hb
  have linear {h f g : FftVector} (hx : IsXor h f g) (j i : Nat) := (hx.radixConv c).butterflies_word c j i
  refine ⟨linear ⟨ha.trans hb.symm, rfl⟩, fun j i => ?_⟩
  rw [linear (IsXor.zero c.fftM) j i, BitVec.xor_self]
  rfl

end Machine
end Sys2Proof
end

section
/-! PROOFS. The family of spec/60_exceptions.md: what a fault and a refusal leave, the checks of every command in the
order of R87, and which commands can raise which fault. -/

namespace Sys2Proof
namespace Machine

/-! ### Faults and refusal -/

/-- R306: a healthy engine that ends a command with `ERR` latched has raised a fault, and done nothing else. -/
theorem command_precise {s t done : State} {checks : List Check} {out : Bytes} (he : s.err = 0)
    (hdone : done.err = s.err) (h : command s checks done out = .next t) (ht : t.err ≠ 0) : ∃ fault, t = raise fault s := by
  rcases command_cases s checks done out with ⟨hne, -⟩ | ⟨-, fault, -, e⟩ | ⟨-, -, e⟩
  · exact absurd he hne
  all_goals obtain rfl := Host.Outcome.next.inj (e.symm.trans h)
  · exact ⟨fault, rfl⟩
  · exact absurd (hdone.trans he) ht

/-- R307: an engine that has latched a fault refuses every packet, whether it decodes or not. -/
theorem runPacket_refuses {s : State} (he : s.err ≠ 0) (packet : Bytes) : runPacket packet s = .next (refuse s) := by
  obtain ⟨checks, done, out, e, -⟩ := runPacket_is_command packet s
  rw [e, command_refuses checks done out he]

/-! ### The checks of a command -/

/-- The checks of a command after the one of its index or selector, in the order of R87 steps 4 to 7. -/
def laterChecks (i : Instr) (s : State) : List Check :=
  match i with
  | .zero | .ststate | .permute | .round _ | .theta | .rhopi | .chi | .iota _ | .lenc _ | .renc _ | .fftRadix | .fftBfly
  | .fft | .fftSt _ | .fftStin => []
  | .ldstate p => [lengthNot p 200]
  | .fftLd p => [lengthNot p (8 * s.cfg.fftM)]
  | .absorb rate _ input => [rateInvalid rate, payloadsExceed s [input]]
  | .squeeze rate n => [rateInvalid rate, outputExceeds s (countOperand n * rateOperand rate)]
  | .blockupdate rate blocks => [rateInvalid rate, notWholeBlocks blocks rate, payloadsExceed s [blocks]]
  | .sha3Compute _ p | .sha3Final _ p | .shakeInit _ p => [payloadsExceed s [p]]
  | .shakeSqueeze w n => [outputExceeds s (countOperand n * rateOfWidth w)]
  | .shakeCompute _ n key => [payloadsExceed s [key], outputExceeds s (countOperand n)]
  | .cshakeInit _ key name custom =>
    [bitLengthOverflow name.length, bitLengthOverflow custom.length, payloadsExceed s [key, name, custom]]
  | .cshakeCompute _ n key name custom =>
    [bitLengthOverflow name.length, bitLengthOverflow custom.length, payloadsExceed s [key, name, custom],
     outputExceeds s (countOperand n)]
  | .kmacInit _ key custom =>
    [bitLengthOverflow key.length, bitLengthOverflow custom.length, payloadsExceed s [key, custom]]
  | .kmacFinal _ n tail =>
    [bitLengthOverflow (countOperand n), payloadsExceed s [tail], outputExceeds s (countOperand n)]
  | .kmacCompute _ n message key custom =>
    [bitLengthOverflow key.length, bitLengthOverflow custom.length, bitLengthOverflow (countOperand n),
     payloadsExceed s [message, key, custom], outputExceeds s (countOperand n)]

/-- R87 step 3: an index or a selector out of its range. -/
def rangeCheck (i : Instr) : Check := (!i.inRange, .illegalCommand)

/-- The model's own condition on an index or selector bounded by `k` is `rangeCheck`. -/
theorem above_eq_rangeCheck {i : Instr} {n k : Nat} (hi : i.inRange = decide (n ≤ k)) :
    (decide (k < n), ErrCode.illegalCommand) = rangeCheck i := by
  simp [rangeCheck, hi, ← decide_not]

theorem sha3WidthIllegal_eq_rangeCheck {i : Instr} {w : Byte}
    (hi : i.inRange = (decide (1 ≤ w.toNat) && decide (w.toNat ≤ 2))) : sha3WidthIllegal w = rangeCheck i := by
  rw [rangeCheck, hi]
  refine Prod.ext (Bool.eq_iff_iff.mpr ?_) rfl
  simp only [sha3WidthIllegal, Bool.or_eq_true, beq_iff_eq, Bool.not_eq_true', Bool.and_eq_false_iff, decide_eq_true_eq,
    decide_eq_false_iff_not]
  omega

/-- `exec i s` checks the range first and `laterChecks` after it, and its effect does not write `ERR`. -/
def ChecksRangeFirst (i : Instr) (s : State) : Prop :=
  ∃ done out, exec i s = command s (rangeCheck i :: laterChecks i s) done out ∧ done.err = s.err

section
variable {i : Instr} {s done : State} {check : Check} {out : Bytes}

theorem checksRangeFirst_of_condition (h : exec i s = command s (check :: laterChecks i s) done out)
    (hcheck : check = rangeCheck i) (hdone : done.err = s.err) : ChecksRangeFirst i s :=
  ⟨done, out, hcheck ▸ h, hdone⟩

theorem checksRangeFirst_of_inRange (h : exec i s = command s (laterChecks i s) done out) (hi : i.inRange = true)
    (hdone : done.err = s.err) : ChecksRangeFirst i s :=
  ⟨done, out, h.trans (command_passes (congrArg not hi)).symm, hdone⟩

end

theorem exec_checksRangeFirst (i : Instr) (s : State) : ChecksRangeFirst i s := by
  cases i
  case round | iota | fftSt | shakeInit | shakeSqueeze | shakeCompute | cshakeInit | cshakeCompute | kmacInit
    | kmacFinal | kmacCompute => exact checksRangeFirst_of_condition rfl (above_eq_rangeCheck rfl) rfl
  case sha3Compute | sha3Final => exact checksRangeFirst_of_condition rfl (sha3WidthIllegal_eq_rangeCheck rfl) rfl
  -- Neither an index nor a selector: every term is in range.
  case fftBfly => exact checksRangeFirst_of_inRange (exec_fftBfly s) rfl (setFout_err s _)
  all_goals exact checksRangeFirst_of_inRange rfl rfl rfl

/-! ### Which command raises which fault -/

theorem ErrCode.code_injective : Function.Injective ErrCode.code := by
  rintro ⟨⟩ ⟨⟩ <;> simp [ErrCode.code]

/-- Whether one of the `laterChecks` of a command can raise the fault (R301, R302, R303, R305); IllegalCommand is that
of `rangeCheck` alone (R304). -/
def MayRaise (i : Instr) : ErrCode → Prop
  | .invalidRate => i.row.mnemonic ∈ ["ABSORB", "SQUEEZE", "BLOCKUPDATE"]
  | .bufferTooSmall => i.payloads ≠ [] ∨ i.row.mnemonic ∈ ["SQUEEZE", "SHAKE_SQUEEZE"]
  | .encodingOverflow =>
    i.row.mnemonic ∈ ["CSHAKE_INIT", "CSHAKE_COMPUTE", "KMAC_INIT", "KMAC_FINAL", "KMAC_COMPUTE"]
  | .illegalCommand => False
  | .badLength => i.row.mnemonic ∈ ["LDSTATE", "FFT_LD", "BLOCKUPDATE"]

/-- Every check of R87 steps 4 to 7 stands at commands that may raise its fault. -/
theorem laterChecks_mayRaise (i : Instr) (s : State) : ∀ check ∈ laterChecks i s, MayRaise i check.2 := by
  cases i <;> simp [laterChecks, MayRaise, lengthNot, rateInvalid, notWholeBlocks, bitLengthOverflow, payloadsExceed,
    outputExceeds, Instr.row, Instr.payloads]

theorem laterChecks_eq_nil {i : Instr} (s : State)
    (hi : i.row.mnemonic ∈ ["ZERO", "STSTATE", "PERMUTE", "ROUND", "THETA", "RHOPI", "CHI", "IOTA", "LENC", "RENC",
      "FFT_RADIX", "FFT_BFLY", "FFT", "FFT_ST", "FFT_STIN"]) : laterChecks i s = [] := by
  cases i
  case zero | ststate | permute | round | theta | rhopi | chi | iota | lenc | renc | fftRadix | fftBfly | fft | fftSt
    | fftStin => rfl
  all_goals simp [Instr.row] at hi

/-- What `ERR` is after a command of a healthy engine: IllegalCommand out of range; in range the fault of one of
`laterChecks`, or 0. -/
theorem exec_err_cases {i : Instr} {s t : State} (he : s.err = 0) (h : exec i s = .next t) :
    (i.inRange = false ∧ t.err = ErrCode.illegalCommand.code) ∨
    (i.inRange = true ∧ ∃ check ∈ laterChecks i s, t.err = check.2.code) ∨ (i.inRange = true ∧ t.err = 0) := by
  obtain ⟨done, out, e, hdone⟩ := exec_checksRangeFirst i s
  rw [e] at h
  cases hrange : i.inRange with
  | false =>
    rw [command_stops he (congrArg not hrange)] at h
    obtain rfl := Host.Outcome.next.inj h
    exact .inl ⟨rfl, rfl⟩
  | true =>
    rw [command_passes (congrArg not hrange)] at h
    rcases command_cases s (laterChecks i s) done out with ⟨hne, -⟩ | ⟨-, fault, hf, e'⟩ | ⟨-, -, e'⟩
    · exact absurd he hne
    all_goals obtain rfl := Host.Outcome.next.inj (e'.symm.trans h)
    · exact .inr (.inl ⟨rfl, _, firstFault_mem hf, rfl⟩)
    · exact .inr (.inr ⟨rfl, hdone.trans he⟩)

/-! ### The obligations -/

/-- Settles O57: the check of the range decides about IllegalCommand, and the later checks are those of the fault's own
commands. -/
theorem eachCommandRaisesOnlyItsFaults : Obligations.EachCommandRaisesOnlyItsFaults := by
  intro i s t he h
  rcases exec_err_cases he h with ⟨hrange, ht⟩ | ⟨hrange, check, hmem, ht⟩ | ⟨hrange, ht⟩
  · simp [ht, hrange, ErrCode.code]
  · have raised {c : ErrCode} (e : t.err = c.code) : MayRaise i c :=
      ErrCode.code_injective (ht.symm.trans e) ▸ laterChecks_mayRaise i s _ hmem
    exact ⟨raised (c := .invalidRate), raised (c := .bufferTooSmall), raised (c := .encodingOverflow),
      iff_of_false (raised (c := .illegalCommand)) (by simp [hrange]), raised (c := .badLength),
      fun _ hi => absurd (laterChecks_eq_nil s hi ▸ hmem) List.not_mem_nil⟩
  · simp [ht, hrange]

/-- Settles O55: a packet is run as one command, whose effect does not write `ERR`. -/
theorem faultIsPrecise : Obligations.FaultIsPrecise := by
  intro s t packet hr hf he h ht
  obtain ⟨checks, done, out, e, hdone, -⟩ := runPacket_is_command packet s
  rw [step_packet hr hf, e] at h
  obtain ⟨fault, rfl⟩ := command_precise he hdone h ht
  exact ⟨⟨fault, rfl⟩, rfl⟩

/-- Settles O56: of the five things a step can do, the release alone writes 0 to `ERR`. -/
theorem faultedEngineRefusesEveryPacket : Obligations.FaultedEngineRefusesEveryPacket := by
  intro s he
  refine ⟨fun packet hr hf => (step_packet hr hf).trans (runPacket_refuses he packet), fun t h => ?_⟩
  have answer {u : State} (e : step s = .next u) : t = u := Host.Outcome.next.inj (h.symm.trans e)
  rcases step_cases s with ⟨hf, e⟩ | ⟨hr, packet, -, e⟩ | ⟨hr, -, e⟩ | ⟨hr, hf, e⟩ | ⟨-, held, e⟩
  · rw [answer e]
    exact iff_of_false he (by simp [hf])
  · rw [answer (e.trans (runPacket_refuses he packet))]
    exact iff_of_false he (by simp [hr])
  · rw [answer e]
    exact iff_of_false he (by simp [hr])
  · rw [answer e]
    exact iff_of_true rfl ⟨hr, hf⟩
  · rw [answer e]
    exact iff_of_false he fun ⟨hr, hf⟩ => held.mp hr hf

end Machine
end Sys2Proof
end

section
/-! PROOFS. The family of spec/70_reset_and_hazards.md: what a step does at the edges of the reset input and to a packet
offered during reset, and which steps change the input's level. -/

namespace Sys2Proof
namespace Machine

/-! ### A step at the reset input -/

section
variable {s : State}

theorem step_assertion (hr : s.inReset = false)
    (h : fetch s = some .assertReset ∨ ∃ packet, fetch s = some (.packetCutByReset packet)) :
    step s = .next (assertReset s) := by
  rcases h with h | ⟨packet, h⟩ <;> simp [step, h, hr, acceptInput]

theorem step_packet_inReset {packet : Bytes} (hr : s.inReset = true) (h : fetch s = some (.packet packet)) :
    step s = .next (passInput s) := by simp [step, h, hr, inputDuringReset]

theorem step_release (hr : s.inReset = true) (h : fetch s = some .releaseReset) : step s = .next (releaseReset s) := by
  simp [step, h, hr, inputDuringReset]

end

/-! ### The reset input's level -/

theorem command_keeps_inReset {s t done : State} {checks : List Check} {out : Bytes}
    (hdone : done.inReset = s.inReset) (h : command s checks done out = .next t) : t.inReset = s.inReset := by
  rcases command_cases s checks done out with ⟨-, e⟩ | ⟨-, fault, -, e⟩ | ⟨-, -, e⟩
  all_goals obtain rfl := Host.Outcome.next.inj (e.symm.trans h)
  · exact refuse_inReset s
  · exact raise_inReset s fault
  · exact (respond_inReset done out).trans hdone

theorem runPacket_keeps_inReset {s t : State} {packet : Bytes} (h : runPacket packet s = .next t) :
    t.inReset = s.inReset := by
  obtain ⟨checks, done, out, e, -, hdone, -⟩ := runPacket_is_command packet s
  exact command_keeps_inReset hdone (e.symm.trans h)

/-- Whether the host's next input is an edge of the reset input: its release while it is asserted, or its assertion,
between commands or during one, while it is not (R340). -/
def AtResetEdge (s : State) : Prop :=
  if s.inReset then fetch s = some .releaseReset
  else fetch s = some .assertReset ∨ ∃ packet, fetch s = some (.packetCutByReset packet)

theorem step_changes_inReset_iff {s t : State} (h : step s = .next t) : t.inReset ≠ s.inReset ↔ AtResetEdge s := by
  have answer {u : State} (e : step s = .next u) : t = u := Host.Outcome.next.inj (h.symm.trans e)
  rcases step_cases s with ⟨hf, e⟩ | ⟨hr, packet, hf, e⟩ | ⟨hr, hf, e⟩ | ⟨hr, hf, e⟩ | ⟨-, held, e⟩
  · exact iff_of_false (by simp [answer e]) (by simp [AtResetEdge, hf])
  · exact iff_of_false (not_not_intro (runPacket_keeps_inReset (e.symm.trans h))) (by simp [AtResetEdge, hr, hf])
  · exact iff_of_true (by simp [answer e, hr]) (by simpa [AtResetEdge, hr] using hf)
  · exact iff_of_true (by simp [answer e, hr]) (by simp [AtResetEdge, hr, hf])
  · refine iff_of_false (by simp [answer e]) ?_
    cases hr : s.inReset with
    | true => simpa [AtResetEdge, hr] using held.mp hr
    | false =>
      have released : fetch s = some .releaseReset := not_not.mp (mt held.mpr (by simp [hr]))
      simp [AtResetEdge, hr, released]

/-! ### The obligations -/

/-- Settles O60: each input of the reset has its step, and of the five things a step can do only the assertion and the
release write the level. -/
theorem resetInputRestoresEveryRegister : Obligations.ResetInputRestoresEveryRegister := fun s =>
  ⟨step_assertion, fun hr _ hf => step_packet_inReset hr hf,
    fun hr hf => ⟨releaseReset s, step_release hr hf, fun i _ => lane_zero i, rfl, rfl, rfl, rfl, rfl, rfl, rfl, rfl⟩,
    fun _ h => step_changes_inReset_iff h⟩

end Machine
end Sys2Proof
end
